-- ==== Sys2Proof/Word.lean ====
section
/-! DEFINITION. The word types of poseidon-core: the 64-bit word of both stores and of every command (00_scope.md R5,
20_memory.md R40, 30_encoding.md R60), the 12-bit operand address (R61), the 13-bit command index (10_state.md R21), the
8-bit field and the byte of the host's byte view (20_memory.md R44). -/

namespace Sys2Proof

/-- `WORD`: 64 bits, unsigned (00_scope.md R5). -/
abbrev Word := BitVec 64

/-- A byte of the host's byte view of a store (20_memory.md R44), and an 8-bit field of a command (30_encoding.md R60). -/
abbrev Byte := BitVec 8

/-- An operand address field, `ADDR_BITS` = 12 (00_scope.md R5, 30_encoding.md R61). -/
abbrev Addr := BitVec 12

/-- The command index `PC`, `PC_BITS` = 13 (00_scope.md R5, 10_state.md R21). -/
abbrev Index := BitVec 13

end Sys2Proof
end

