-- ==== Sys2Proof/Config.lean ====
section
/-! DEFINITION. The free values: constants without a body, so that no proof can see what they are. What the spec fixes for
every instance (its parameters and constants, 00_scope.md R5 and 10_state.md R31) is in Machine/Constants.lean, and the one
parameter it leaves open, `OFFSET_2`, is `State.offset2`. -/

namespace Sys2Proof

/-- The free words of `draw(n)` (00_scope.md R9, R11): the word drawn when the machine has drawn `k` words before. Nothing
constrains it. Log entry 3. -/
opaque Config.freeWord (k : Nat) : Word

/-- The content after power-up of byte `x` (20_memory.md R44) of the operand store: any value (70_reset_and_hazards.md
R181). Log entry 1. -/
opaque Config.powerUpOperandByte (x : Nat) : Byte

/-- The content after power-up of byte `x` (20_memory.md R44) of the command store: any value (70_reset_and_hazards.md
R181). Log entry 1. -/
opaque Config.powerUpCommandByte (x : Nat) : Byte

end Sys2Proof
end

