-- ==== Sys2Proof/Syntax.lean ====
section
/-! DEFINITION. The commands of PCORE-1, whole: one constructor of `Instr` per row of spec/opcode_table.json, its arguments
the used address fields in the assembler's order D, A, B, C (30_encoding.md R62, R67). -/

namespace Sys2Proof

/-- The four address fields of a command word (30_encoding.md R60). -/
inductive Field where
  | D | A | B | C
  deriving DecidableEq, Repr

/-- The fields in the order in which R63 checks them. -/
def Field.all : List Field := [.D, .A, .B, .C]

/-- The rows of the opcode map (30_encoding.md R62), by mnemonic. -/
inductive Opcode where
  | halt
  | add64 | sub64 | mul64 | add128 | sub128 | add256 | sub256
  | overflowReduce | fewbitsReduce | finalReduce
  | fadd | fsub | xPlus2y | xPlus3y | xPlus4y | xMinus2y | xMinus3y | xMinus4y
  | montRound | montMult | toMont | fromMont | montCube
  deriving DecidableEq, Repr

/-- A command (30_encoding.md R62): its opcode and the address fields that opcode uses. -/
inductive Instr where
  | halt
  | add64 (d a b c : Addr)
  | sub64 (d a b c : Addr)
  | mul64 (d a b : Addr)
  | add128 (d a b c : Addr)
  | sub128 (d a b c : Addr)
  | add256 (d a b c : Addr)
  | sub256 (d a b c : Addr)
  | overflowReduce (d a : Addr)
  | fewbitsReduce (d a : Addr)
  | finalReduce (d a : Addr)
  | fadd (d a b : Addr)
  | fsub (d a b : Addr)
  | xPlus2y (d a b : Addr)
  | xPlus3y (d a b : Addr)
  | xPlus4y (d a b : Addr)
  | xMinus2y (d a b : Addr)
  | xMinus3y (d a b : Addr)
  | xMinus4y (d a b : Addr)
  | montRound (d a b c : Addr)
  | montMult (d a b : Addr)
  | toMont (d a : Addr)
  | fromMont (d a : Addr)
  | montCube (d a : Addr)
  deriving DecidableEq, Repr

/-- The opcode-map row a command belongs to. -/
def Instr.opcode : Instr → Opcode
  | .halt => .halt
  | .add64 _ _ _ _ => .add64
  | .sub64 _ _ _ _ => .sub64
  | .mul64 _ _ _ => .mul64
  | .add128 _ _ _ _ => .add128
  | .sub128 _ _ _ _ => .sub128
  | .add256 _ _ _ _ => .add256
  | .sub256 _ _ _ _ => .sub256
  | .overflowReduce _ _ => .overflowReduce
  | .fewbitsReduce _ _ => .fewbitsReduce
  | .finalReduce _ _ => .finalReduce
  | .fadd _ _ _ => .fadd
  | .fsub _ _ _ => .fsub
  | .xPlus2y _ _ _ => .xPlus2y
  | .xPlus3y _ _ _ => .xPlus3y
  | .xPlus4y _ _ _ => .xPlus4y
  | .xMinus2y _ _ _ => .xMinus2y
  | .xMinus3y _ _ _ => .xMinus3y
  | .xMinus4y _ _ _ => .xMinus4y
  | .montRound _ _ _ _ => .montRound
  | .montMult _ _ _ => .montMult
  | .toMont _ _ => .toMont
  | .fromMont _ _ => .fromMont
  | .montCube _ _ => .montCube

/-- The four address fields D, A, B, C of a command, an unused field being 0 (30_encoding.md R62, R64 (c), R67). -/
def Instr.addresses : Instr → Addr × Addr × Addr × Addr
  | .halt => (0, 0, 0, 0)
  | .add64 d a b c | .sub64 d a b c | .add128 d a b c | .sub128 d a b c | .add256 d a b c | .sub256 d a b c
  | .montRound d a b c => (d, a, b, c)
  | .mul64 d a b | .fadd d a b | .fsub d a b | .xPlus2y d a b | .xPlus3y d a b | .xPlus4y d a b
  | .xMinus2y d a b | .xMinus3y d a b | .xMinus4y d a b | .montMult d a b => (d, a, b, 0)
  | .overflowReduce d a | .fewbitsReduce d a | .finalReduce d a | .toMont d a | .fromMont d a
  | .montCube d a => (d, a, 0, 0)

/-- The address a field of a command holds. -/
def Instr.field (i : Instr) : Field → Addr
  | .D => i.addresses.1
  | .A => i.addresses.2.1
  | .B => i.addresses.2.2.1
  | .C => i.addresses.2.2.2

end Sys2Proof
end

