-- ==== Sys2Proof/Machine/OpMap.lean ====
section
/-! DEFINITION. The opcode map of 30_encoding.md R62: for each row its opcode value and the number of words the command
writes at D and reads at A, B and C (`none` is the table's dash), and the span check of R46 and R65. -/

namespace Sys2Proof

/-- The widths of one row of R62, in words. -/
structure Widths where
  d : Option Nat
  a : Option Nat
  b : Option Nat
  c : Option Nat
  deriving DecidableEq, Repr

/-- The width columns of the opcode map (30_encoding.md R62). -/
def Opcode.widths : Opcode → Widths
  | .halt           => ⟨none, none, none, none⟩
  | .add64          => ⟨some 2, some 1, some 1, some 1⟩
  | .sub64          => ⟨some 2, some 1, some 1, some 1⟩
  | .mul64          => ⟨some 2, some 1, some 1, none⟩
  | .add128         => ⟨some 3, some 2, some 2, some 1⟩
  | .sub128         => ⟨some 3, some 2, some 2, some 1⟩
  | .add256         => ⟨some 5, some 4, some 4, some 1⟩
  | .sub256         => ⟨some 5, some 4, some 4, some 1⟩
  | .overflowReduce => ⟨some 4, some 5, none, none⟩
  | .fewbitsReduce  => ⟨some 4, some 5, none, none⟩
  | .finalReduce    => ⟨some 4, some 4, none, none⟩
  | .fadd           => ⟨some 4, some 4, some 4, none⟩
  | .fsub           => ⟨some 4, some 4, some 4, none⟩
  | .xPlus2y        => ⟨some 4, some 4, some 4, none⟩
  | .xPlus3y        => ⟨some 4, some 4, some 4, none⟩
  | .xPlus4y        => ⟨some 4, some 4, some 4, none⟩
  | .xMinus2y       => ⟨some 4, some 4, some 4, none⟩
  | .xMinus3y       => ⟨some 4, some 4, some 4, none⟩
  | .xMinus4y       => ⟨some 4, some 4, some 4, none⟩
  | .montRound      => ⟨some 6, some 6, some 4, some 1⟩
  | .montMult       => ⟨some 4, some 4, some 4, none⟩
  | .toMont         => ⟨some 4, some 4, none, none⟩
  | .fromMont       => ⟨some 4, some 4, none, none⟩
  | .montCube       => ⟨some 4, some 4, none, none⟩

/-- `OPMAP[op].width(F)` of 30_encoding.md R63. -/
def Opcode.width (o : Opcode) : Field → Option Nat
  | .D => o.widths.d
  | .A => o.widths.a
  | .B => o.widths.b
  | .C => o.widths.c

/-- The opcode values of 30_encoding.md R62. -/
def Opcode.code : Opcode → Byte
  | .halt           => 0x00
  | .add64          => 0x01
  | .sub64          => 0x02
  | .mul64          => 0x03
  | .add128         => 0x04
  | .sub128         => 0x05
  | .add256         => 0x06
  | .sub256         => 0x07
  | .overflowReduce => 0x10
  | .fewbitsReduce  => 0x11
  | .finalReduce    => 0x12
  | .fadd           => 0x20
  | .fsub           => 0x21
  | .xPlus2y        => 0x22
  | .xPlus3y        => 0x23
  | .xPlus4y        => 0x24
  | .xMinus2y       => 0x25
  | .xMinus3y       => 0x26
  | .xMinus4y       => 0x27
  | .montRound      => 0x30
  | .montMult       => 0x31
  | .toMont         => 0x32
  | .fromMont       => 0x33
  | .montCube       => 0x34

/-- The mnemonics of 30_encoding.md R62. -/
def Opcode.mnemonic : Opcode → String
  | .halt           => "HALT"
  | .add64          => "ADD64"
  | .sub64          => "SUB64"
  | .mul64          => "MUL64"
  | .add128         => "ADD128"
  | .sub128         => "SUB128"
  | .add256         => "ADD256"
  | .sub256         => "SUB256"
  | .overflowReduce => "OVERFLOW_REDUCE"
  | .fewbitsReduce  => "FEWBITS_REDUCE"
  | .finalReduce    => "FINAL_REDUCE"
  | .fadd           => "FADD"
  | .fsub           => "FSUB"
  | .xPlus2y        => "X_PLUS_2Y"
  | .xPlus3y        => "X_PLUS_3Y"
  | .xPlus4y        => "X_PLUS_4Y"
  | .xMinus2y       => "X_MINUS_2Y"
  | .xMinus3y       => "X_MINUS_3Y"
  | .xMinus4y       => "X_MINUS_4Y"
  | .montRound      => "MONT_ROUND"
  | .montMult       => "MONT_MULT"
  | .toMont         => "TO_MONT"
  | .fromMont       => "FROM_MONT"
  | .montCube       => "MONT_CUBE"

/-- Every row of the opcode map, in its order. -/
def Opcode.all : List Opcode :=
  [.halt, .add64, .sub64, .mul64, .add128, .sub128, .add256, .sub256, .overflowReduce, .fewbitsReduce, .finalReduce,
   .fadd, .fsub, .xPlus2y, .xPlus3y, .xPlus4y, .xMinus2y, .xMinus3y, .xMinus4y,
   .montRound, .montMult, .toMont, .fromMont, .montCube]

/-- The row an opcode value names; `none` for the unassigned values of 30_encoding.md R64 (a). -/
def Opcode.ofCode (b : Byte) : Option Opcode := Opcode.all.find? (fun o => o.code == b)

/-- `OPMAP[op].width(F)` for a command's own opcode. -/
def Instr.width (i : Instr) (f : Field) : Option Nat := i.opcode.width f

/-- `N_OPERAND` = 4096 words, and `N_COMMAND` = 4096 words (00_scope.md R5). -/
def storeWords : Nat := 4096

/-- An operand of `n` words at address `a` lies in the store: a + n <= 4096 (20_memory.md R46, 30_encoding.md R65). -/
def spanFits (a n : Nat) : Bool := decide (a + n ≤ storeWords)

/-- The span of one field of a command lies in the store; an unused field has no span. -/
def Instr.fieldFits (i : Instr) (f : Field) : Bool :=
  match i.width f with
  | none => true
  | some n => spanFits (i.field f).toNat n

/-- The first field, in the order D, A, B, C, whose span leaves the store (30_encoding.md R63, the last check). -/
def Instr.firstOutOfRange (i : Instr) : Option Field := Field.all.find? (fun f => !i.fieldFits f)

end Sys2Proof
end

