-- ==== Sys2Proof/WellFormed.lean ====
section
/-! DEFINITION. Which commands are well formed: the operand spans R62 gives their opcode lie in the operand store
(20_memory.md R46, 30_encoding.md R65). A legal command that is not well formed still decodes; it raises `OPERAND_RANGE`
when it is executed (30_encoding.md R63). -/

namespace Sys2Proof

/-- Every operand span of the command lies in the operand store. -/
def Instr.wellFormed (i : Instr) : Bool := Field.all.all i.fieldFits

end Sys2Proof
end

