-- ==== Sys2Proof/Decode.lean ====
section
/-! DEFINITION. The command format CMD64 (30_encoding.md R60), decoding of a fetched word (R63, R64) and, after it, the
encoder (R60, R67). -/

namespace Sys2Proof

/-! ### The fields of a command word (30_encoding.md R60) -/

/-- `OP`, bits 7:0. -/
def fieldOp (w : Word) : Byte := w.extractLsb' 0 8

/-- `D`, bits 19:8; `A`, bits 31:20; `B`, bits 43:32; `C`, bits 55:44. -/
def fieldAddr (w : Word) : Field → Addr
  | .D => w.extractLsb' 8 12
  | .A => w.extractLsb' 20 12
  | .B => w.extractLsb' 32 12
  | .C => w.extractLsb' 44 12

/-- `RSV`, bits 63:56. -/
def fieldRsv (w : Word) : Byte := w.extractLsb' 56 8

/-! ### Decoding (30_encoding.md R63, R64) -/

/-- Why a word is no command: the three clauses of 30_encoding.md R64, each of which raises `ILLEGAL_COMMAND`. -/
inductive Reject where
  /-- (a) `OP` is not one of the 24 values of R62. -/
  | unassignedOpcode (op : Byte)
  /-- (b) `RSV` is not 0. -/
  | reservedNotZero (rsv : Byte)
  /-- (c) a field unused by the opcode is not 0; the first such field in the order D, A, B, C. -/
  | unusedNotZero (f : Field)
  deriving DecidableEq, Repr

/-- The first field, in the order D, A, B, C, that the opcode does not use and the word does not leave 0. -/
def firstUnusedNotZero (o : Opcode) (w : Word) : Option Field :=
  Field.all.find? (fun f => (o.width f).isNone && !(fieldAddr w f == 0))

/-- The command an opcode forms with the four address fields; a field the opcode does not use is dropped. -/
def Opcode.instr (d a b c : Addr) : Opcode → Instr
  | .halt           => .halt
  | .add64          => .add64 d a b c
  | .sub64          => .sub64 d a b c
  | .mul64          => .mul64 d a b
  | .add128         => .add128 d a b c
  | .sub128         => .sub128 d a b c
  | .add256         => .add256 d a b c
  | .sub256         => .sub256 d a b c
  | .overflowReduce => .overflowReduce d a
  | .fewbitsReduce  => .fewbitsReduce d a
  | .finalReduce    => .finalReduce d a
  | .fadd           => .fadd d a b
  | .fsub           => .fsub d a b
  | .xPlus2y        => .xPlus2y d a b
  | .xPlus3y        => .xPlus3y d a b
  | .xPlus4y        => .xPlus4y d a b
  | .xMinus2y       => .xMinus2y d a b
  | .xMinus3y       => .xMinus3y d a b
  | .xMinus4y       => .xMinus4y d a b
  | .montRound      => .montRound d a b c
  | .montMult       => .montMult d a b
  | .toMont         => .toMont d a
  | .fromMont       => .fromMont d a
  | .montCube       => .montCube d a

/-- Decoding of a word (30_encoding.md R63), its checks of legality in the order written there. The last check of R63, the
operand range, is made when the command is executed: it raises another fault, and the command is legal. -/
def decode (w : Word) : Except Reject Instr :=
  match Opcode.ofCode (fieldOp w) with
  | none => .error (.unassignedOpcode (fieldOp w))
  | some o =>
    if fieldRsv w ≠ 0 then .error (.reservedNotZero (fieldRsv w))
    else match firstUnusedNotZero o w with
      | some f => .error (.unusedNotZero f)
      | none => .ok (o.instr (fieldAddr w .D) (fieldAddr w .A) (fieldAddr w .B) (fieldAddr w .C))

/-! ### Encoding (30_encoding.md R60, R67) -/

/-- A word from its fields, most significant first: the bit pattern of 30_encoding.md R60. -/
def packWord (rsv : Byte) (c b a d : Addr) (op : Byte) : Word := rsv ++ c ++ b ++ a ++ d ++ op

/-- The command word of a command: `RSV` and the unused fields are 0 (30_encoding.md R64, R67). -/
def encode (i : Instr) : Word :=
  packWord 0 (i.field .C) (i.field .B) (i.field .A) (i.field .D) i.opcode.code

/-- The words of a command: one (30_encoding.md R60, R66). -/
def encodeWords (i : Instr) : List Word := [encode i]

/-- The command the decoder reads from the bits `w` of an opcode-table row of `nbits` bits, the bits above them being 0. A
command is one whole word (30_encoding.md R60): bits beyond the word, were any set, are no command of this hardware. -/
def decodeTableWord (nbits w : Nat) : Option Instr :=
  if w % 2 ^ nbits < 2 ^ 64 then (decode (BitVec.ofNat 64 (w % 2 ^ nbits))).toOption else none

/-! ### The byte order of a word in the host's byte view (20_memory.md R44) -/

/-- Byte k of a word holds bits 8k+7:8k. -/
def byteOfWord (w : Word) (k : Nat) : Byte := w.extractLsb' (8 * k) 8

/-- The word whose byte k is `f k`, for k = 0..7. -/
def wordOfBytes (f : Nat → Byte) : Word := f 7 ++ f 6 ++ f 5 ++ f 4 ++ f 3 ++ f 2 ++ f 1 ++ f 0

/-! ### The opcode table as masks (30_encoding.md R64, spec/opcode_table.json) -/

/-- The mask of a field: its bits set. -/
def fieldMask : Field → Word
  | .D => 0x00000000000fff00
  | .A => 0x00000000fff00000
  | .B => 0x00000fff00000000
  | .C => 0x00fff00000000000

/-- A row's mask: `OP`, `RSV` and every field the opcode does not use. -/
def Opcode.mask (o : Opcode) : Word :=
  Field.all.foldl (fun m f => if (o.width f).isNone then m ||| fieldMask f else m) 0xff000000000000ff

/-- A row's match value: the opcode in bits 7:0, every other masked bit 0. -/
def Opcode.matchValue (o : Opcode) : Word := o.code.setWidth 64

/-- `(w & mask) = match` for a row of the opcode table. -/
def Opcode.matches (o : Opcode) (w : Word) : Bool := (w &&& o.mask) == o.matchValue

end Sys2Proof
end

