-- ==== Sys2Proof/Machine/State.lean ====
section
/-! DEFINITION. The state of the engine (10_state.md R33), the reasons a step or a host move can stop, and the machine right
after power-up and reset (70_reset_and_hazards.md R180, R181). -/

namespace Sys2Proof.Machine

/-- A store, as the bytes written to it since power-up, in the host's byte view: byte k of the word at address a is the
cell at 8a + k (20_memory.md R44). Addresses rise strictly (Memory.wf, Machine/Ops.lean); a byte not listed has not been
written since power-up (log entries 1 and 2). -/
structure Memory where
  cells : List Host.Cell
  deriving DecidableEq, Repr

/-- The values the parameter `OFFSET_2` may take: 32p, as the source writes it, and 64p, the value that fits the pattern of the
other two offsets (93_implementation_defined.md section 3). As integers: `Offset2.value`, Machine/Constants.lean. -/
inductive Offset2 where
  | p32 | p64
  deriving DecidableEq, Repr

/-- The complete architectural state (10_state.md R33), one field of the model's own (`draws`), and the one parameter of the
engine (`offset2`), which every function of a state thereby takes as an argument. `CTRL` stores nothing, and the run state is a
function of `status`. -/
structure State where
  /-- `S`, the operand store (20_memory.md R40). -/
  operands : Memory
  /-- `CS`, the command store (20_memory.md R41). -/
  commands : Memory
  /-- `PC`, the command index (10_state.md R21, R27). -/
  pc : Index
  /-- `STATUS` (10_state.md R26). -/
  status : Word
  /-- `ERRCMD` (10_state.md R28). -/
  errcmd : Word
  /-- The MODEL's own field: how many free words have been drawn (00_scope.md R9, R11). Log entries 3 and 10. -/
  draws : Nat
  /-- The parameter `OFFSET_2` the engine is built with (00_scope.md R5, 42_field_ops.md R123, 92_eei_decisions.md D35): no
  state of the hardware, and no command, move or reset changes it. Log entry 4. -/
  offset2 : Offset2
  deriving DecidableEq, Repr

/-- The run states (10_state.md R29). -/
inductive RunState where
  | idle | running | done | faulted
  deriving DecidableEq, Repr

/-- The fault causes of the engine (60_exceptions.md R160). Each is taken: its entry (R161) is a next state. -/
inductive Cause where
  /-- Cause 1: the fetched word is no legal command. -/
  | illegalCommand
  /-- Cause 2: a used operand span runs past address 4095. -/
  | operandRange
  /-- Cause 3: a step begins with `PC` >= 4096. -/
  | commandRange
  deriving DecidableEq, Repr

/-- Why the machine has no next state. The engine's own faults are no reason: they are taken (60_exceptions.md R161). -/
inductive Fault where
  /-- Raised by `step` alone, when the run state is not RUNNING: the engine takes no step (10_state.md R29), it is stuck until
  the host writes `START` (93_implementation_defined.md S11). Safe: the model stops where the hardware waits. Log entry 5. -/
  | notRunning
  deriving DecidableEq, Repr

/-- What the model does not offer. -/
inductive Refusal where
  /-- Raised by a dispatch arm whose instruction has no meaning yet; no arm raises it. Safe. -/
  | notModelled (mnemonic : String)
  /-- Raised by a host access to a store while `STATUS.BUSY` = 1 (20_memory.md R56: a model offers no such move). No command
  raises it. Safe: the hardware gives unspecified values. Log entry 8. -/
  | hostStoreWhileBusy
  deriving DecidableEq, Repr

/-- The machine after power-up and reset: `PC`, `STATUS` and `ERRCMD` are 0 (70_reset_and_hazards.md R180), no word of either
store has been written (R181), and nothing has been drawn (DESIGN CHOICE, log entry 10). The parameter `OFFSET_2` is at its
default 32p (42_field_ops.md R123); `State.reset.withOffset2 .p64` is the engine built with 64p (log entry 4). -/
def State.reset : State :=
  { operands := ⟨[]⟩, commands := ⟨[]⟩, pc := 0, status := 0, errcmd := 0, draws := 0, offset2 := .p32 }

end Sys2Proof.Machine
end

