-- ==== Sys2Proof/Machine/Ops.lean ====
section
/-! DEFINITION. The named operations on the state: the stores by byte, word and span (00_scope.md R8, 20_memory.md R43, R44),
the free values of a broken contract (00_scope.md R9, R11), the fields of `STATUS` (10_state.md R26), the command fetch, TAKING
A FAULT (60_exceptions.md R161) and, beside it, the `START` that a host resumes with (10_state.md R25, 60_exceptions.md R163),
and the part every command but `HALT` shares (30_encoding.md R63, 44_sequencer.md R151). -/

namespace Sys2Proof.Machine

open Host (Outcome)

/-! ### Integers and words (00_scope.md R7) -/

/-- `word_i(v)` = (v >> 64*i) mod 2^64. -/
def wordAt (i v : Nat) : Nat := v / 2 ^ (64 * i) % 2 ^ 64

/-! ### The cells of a store -/

/-- The byte listed at `x`. -/
def lookupCell (x : Nat) : List Host.Cell → Option Byte
  | [] => none
  | (y, b) :: rest => if x = y then some b else lookupCell x rest

/-- Lists the byte `b` at `x`, in place of what was listed there, keeping the addresses rising. -/
def insertCell (x : Nat) (b : Byte) : List Host.Cell → List Host.Cell
  | [] => [(x, b)]
  | (y, c) :: rest =>
    if x < y then (x, b) :: (y, c) :: rest
    else if x = y then (x, b) :: rest
    else (y, c) :: insertCell x b rest

/-- The bytes of a store of 4096 words (20_memory.md R40, R41, R44). -/
def storeBytes : Nat := 8 * storeWords

/-- The canonical form of a store: addresses strictly rising, and none outside the store. (An unlisted byte reads as a free
value that no listed byte can be told from, so nothing more can be asked: log entry 1.) -/
abbrev Memory.wf (m : Memory) : Prop :=
  m.cells.Pairwise (fun c c' => c.1 < c'.1) ∧ ∀ c ∈ m.cells, c.1 < storeBytes

/-- The byte of a store written at `x` since power-up, if one was. -/
def Memory.byte? (m : Memory) (x : Nat) : Option Byte := lookupCell x m.cells

/-- Writes one byte. -/
def Memory.writeByte (m : Memory) (x : Nat) (b : Byte) : Memory := ⟨insertCell x b m.cells⟩

/-- The byte a store holds at `x`: the one written, or what it held after power-up (70_reset_and_hazards.md R181). -/
def Memory.byte (powerUp : Nat → Byte) (m : Memory) (x : Nat) : Byte := (m.byte? x).getD (powerUp x)

/-- The word a store holds at address `a` (20_memory.md R44). -/
def Memory.word (powerUp : Nat → Byte) (m : Memory) (a : Nat) : Word :=
  wordOfBytes (fun k => m.byte powerUp (8 * a + k))

/-- Writes the bytes `k` to 7 of a word at address `a`, `n` of them being left. -/
def Memory.writeBytes (m : Memory) (a : Nat) (w : Word) : Nat → Nat → Memory
  | _, 0 => m
  | k, n + 1 => (m.writeByte (8 * a + k) (byteOfWord w k)).writeBytes a w (k + 1) n

/-- Writes the word at address `a` (20_memory.md R44). -/
def Memory.writeWord (m : Memory) (a : Nat) (w : Word) : Memory := m.writeBytes a w 0 8

/-- Writes word_i(v) at address a + i, for i = 0..n-1 (00_scope.md R8). -/
def Memory.writeSpan (m : Memory) (a : Nat) : Nat → Nat → Memory
  | 0, _ => m
  | n + 1, v => (m.writeWord a (BitVec.ofNat 64 (wordAt 0 v))).writeSpan (a + 1) n (v / 2 ^ 64)

/-! ### The stores of a state -/

/-- The byte of the operand store at host offset `x` (20_memory.md R44). -/
def State.operandByte (s : State) (x : Nat) : Byte := s.operands.byte Config.powerUpOperandByte x

/-- The byte of the command store at host offset `x` (20_memory.md R44). -/
def State.commandByte (s : State) (x : Nat) : Byte := s.commands.byte Config.powerUpCommandByte x

/-- `S[a]` (00_scope.md R8, 20_memory.md R40). -/
def State.operandWord (s : State) (a : Nat) : Word := s.operands.word Config.powerUpOperandByte a

/-- `CS[k]` (00_scope.md R8, 20_memory.md R41). -/
def State.commandWord (s : State) (k : Nat) : Word := s.commands.word Config.powerUpCommandByte k

/-- val(S[a], ..., S[a+n-1]), the least significant word first (00_scope.md R7, R8; 20_memory.md R43). -/
def State.readSpan (s : State) (a : Nat) : Nat → Nat
  | 0 => 0
  | n + 1 => (s.operandWord a).toNat + 2 ^ 64 * s.readSpan (a + 1) n

/-- `MemRead(a, n)` at an address field (00_scope.md R8, 30_encoding.md R61). -/
def State.memRead (s : State) (a : Addr) (n : Nat) : Nat := s.readSpan a.toNat n

/-- `MemWrite(a, n, v)` at an address field (00_scope.md R8, 30_encoding.md R61). -/
def State.memWrite (s : State) (a : Addr) (n v : Nat) : State :=
  { s with operands := s.operands.writeSpan a.toNat n v }

/-! ### The result of a command -/

/-- `draw(n)` when `k` words have been drawn before: n free words (00_scope.md R9). -/
def drawValue (k : Nat) : Nat → Nat
  | 0 => 0
  | n + 1 => (Config.freeWord k).toNat + 2 ^ 64 * drawValue (k + 1) n

/-- Writes a result of `n` words at `d`: its value, or, where the contract is broken (`none`), `draw(n)` (00_scope.md R11). -/
def State.writeResult (s : State) (d : Addr) (n : Nat) : Option Nat → State
  | some v => s.memWrite d n v
  | none => { s.memWrite d n (drawValue s.draws n) with draws := s.draws + n }

/-- `pc <- PC + 1` (10_state.md R21). -/
def State.advance (s : State) : State := { s with pc := s.pc + 1 }

/-! ### `STATUS` (10_state.md R26, R29) -/

/-- `STATUS` while a run is in progress: 0b001. -/
def statusRunning : Word := 0b001

/-- `STATUS` of a run that ended by `HALT`: 0b010. -/
def statusDone : Word := 0b010

/-- The code of a cause (60_exceptions.md R160). -/
def Cause.code : Cause → Word
  | .illegalCommand => 1
  | .operandRange => 2
  | .commandRange => 3

/-- `STATUS` of a run that ended by a fault: (cause << 4) | 0b100 (60_exceptions.md R161). -/
def statusFaulted (c : Cause) : Word := (c.code <<< 4) ||| 0b100

/-- `STATUS.BUSY`, bit 0. -/
def State.busy (s : State) : Bool := s.status.getLsbD 0

/-- `STATUS.DONE`, bit 1. -/
def State.done (s : State) : Bool := s.status.getLsbD 1

/-- `STATUS.FAULT`, bit 2. -/
def State.fault (s : State) : Bool := s.status.getLsbD 2

/-- `STATUS.CAUSE`, bits 7:4. -/
def State.causeField (s : State) : BitVec 4 := s.status.extractLsb' 4 4

/-- The run state, a function of `STATUS` bits 2:0 (10_state.md R29); `none` for the combinations that do not occur. -/
def State.runState (s : State) : Option RunState :=
  let bits : BitVec 3 := s.status.extractLsb' 0 3
  if bits = 0b000 then some .idle
  else if bits = 0b001 then some .running
  else if bits = 0b010 then some .done
  else if bits = 0b100 then some .faulted
  else none

/-! ### Taking a fault, and starting again -/

/-- `raise Fault(cause)`: fault entry (60_exceptions.md R161). `w` is the command word, used by the two causes that record
one. Nothing else changes: no store is written and `PC` keeps the index of the command that faulted. -/
def State.raiseFault (s : State) (cause : Cause) (w : Word) : State :=
  { s with
    status := statusFaulted cause
    errcmd := match cause with
      | .illegalCommand | .operandRange => w
      | .commandRange => 0 }

/-- What a host's `START` does when it is not ignored (10_state.md R25): a run begins at the current `PC`. It is also the
return from a fault (60_exceptions.md R163). -/
def State.start (s : State) : State := { s with status := statusRunning, errcmd := 0 }

/-! ### The parameter -/

/-- `s`, in an engine built with the value `o` of `OFFSET_2` (42_field_ops.md R123). It is no move of the machine. -/
def State.withOffset2 (s : State) (o : Offset2) : State := { s with offset2 := o }

/-! ### Fetching, and what every command but `HALT` shares -/

/-- `PC` >= N_COMMAND: there is no command to fetch (44_sequencer.md R151). -/
def State.pcOutOfStore (s : State) : Bool := decide (storeWords ≤ s.pc.toNat)

/-- `w <- CS[PC]` (44_sequencer.md R151). -/
def State.fetchWord (s : State) : Word := s.commandWord s.pc.toNat

/-- The shared part of every command that names operands: the operand-range check (30_encoding.md R63, R65), whose fault
records the command's word (60_exceptions.md R160; the word of a legal command is its encoding), and otherwise the write of
the `n`-word result at `d` and the step to the next command (44_sequencer.md R151). Each meaning hands it the result as a
function of its operands, all read from `s`: every read comes before any write (20_memory.md R47). -/
def runCommand (i : Instr) (s : State) (d : Addr) (n : Nat) (result : Option Nat) : State :=
  match i.firstOutOfRange with
  | some _ => s.raiseFault .operandRange (encode i)
  | none => (s.writeResult d n result).advance

end Sys2Proof.Machine
end

