-- ==== Sys2Proof/Machine/Flags.lean ====
section
/-! DEFINITION. Carry and borrow. The engine has no flags (10_state.md R22): a carry or a borrow is a value, 0 or 1, written
and read as a whole word (40_carry_chain.md R80, R88). Here are their values and the wrapping subtraction they go with. -/

namespace Sys2Proof.Machine

/-- The carry out of an n-word sum (40_carry_chain.md R80 (c)): what lies above its n words. -/
def carryOut (n sum : Nat) : Nat := sum / 2 ^ (64 * n)

/-- The borrow of x - y (40_carry_chain.md R80 (d)): 1 exactly when x < y. -/
def borrowOut (x y : Nat) : Nat := if x < y then 1 else 0

/-- (x - y) mod 2^bits, the non-negative remainder of the exact difference (00_scope.md R6, 40_carry_chain.md R80 (b)). -/
def wrapSub (bits x y : Nat) : Nat := (((x : Int) - (y : Int)) % ((2 ^ bits : Nat) : Int)).toNat

/-- A carry or borrow input word keeps the contract of 40_carry_chain.md R88: it is 0 or 1. -/
def carryWordOk (c : Nat) : Bool := decide (c ≤ 1)

end Sys2Proof.Machine
end

