-- ==== Sys2Proof/Machine/Operands.lean ====
section
/-! DEFINITION. The operands of a command. There is one operand form, the address of an n-word operand, n fixed by the opcode
(30_encoding.md R61, R62). -/

namespace Sys2Proof.Machine

/-- A one-word operand: `MemRead(F, 1)` (20_memory.md R43). -/
def State.word1 (s : State) (a : Addr) : Nat := s.memRead a 1

/-- A two-word operand: `MemRead(F, 2)`. -/
def State.word2 (s : State) (a : Addr) : Nat := s.memRead a 2

/-- A field element: `MemRead(F, 4)` (10_state.md R32). -/
def State.element (s : State) (a : Addr) : Nat := s.memRead a 4

/-- The five-word input of a reduction: `MemRead(F, 5)`. -/
def State.word5 (s : State) (a : Addr) : Nat := s.memRead a 5

/-- The six-word window of a Montgomery round: `MemRead(F, 6)`. -/
def State.window (s : State) (a : Addr) : Nat := s.memRead a 6

/-- The words a command writes: its destination address and width; `none` for `HALT`, which writes none (30_encoding.md
R62). -/
def destSpan (i : Instr) : Option (Addr × Nat) := (i.width .D).map (fun n => (i.field .D, n))

/-- An address of the operand store is a destination word of the command (20_memory.md R46, R48). -/
def isDest (i : Instr) (a : Nat) : Bool :=
  match destSpan i with
  | none => false
  | some (d, n) => decide (d.toNat ≤ a) && decide (a < d.toNat + n)

end Sys2Proof.Machine
end

