-- ==== Sys2Proof/Machine/CarryChain.lean ====
section
/-! DEFINITION. The carry-chain commands (40_carry_chain.md R81 to R87): additions and subtractions of 1, 2 and 4 words with
a carry or borrow word in and out, and the full 64 x 64 product. A carry or borrow word above 1 breaks the contract (R88):
the result is `none`, which draws. -/

namespace Sys2Proof.Machine

open Host (Outcome)

/-- x + y + c, the sum of n words and above it the carry word (40_carry_chain.md R81, R84, R86). -/
def addCarry (x y c : Nat) : Option Nat :=
  if carryWordOk c then some (x + y + c) else none

/-- (x - y - b) mod 2^(64n), and above it the borrow word (40_carry_chain.md R82, R85, R87). -/
def subBorrow (n x y b : Nat) : Option Nat :=
  if carryWordOk b then some (wrapSub (64 * n) x (y + b) + borrowOut x (y + b) * 2 ^ (64 * n)) else none

/-- x * y, exact (40_carry_chain.md R83). -/
def mulFull (x y : Nat) : Nat := x * y

/-- `ADD64` (40_carry_chain.md R81). -/
def execAdd64 (d a b c : Addr) (s : State) : Outcome State Fault Refusal :=
  .next (runCommand (.add64 d a b c) s d 2 (addCarry (s.word1 a) (s.word1 b) (s.word1 c)))

/-- `SUB64` (40_carry_chain.md R82). -/
def execSub64 (d a b c : Addr) (s : State) : Outcome State Fault Refusal :=
  .next (runCommand (.sub64 d a b c) s d 2 (subBorrow 1 (s.word1 a) (s.word1 b) (s.word1 c)))

/-- `MUL64` (40_carry_chain.md R83). -/
def execMul64 (d a b : Addr) (s : State) : Outcome State Fault Refusal :=
  .next (runCommand (.mul64 d a b) s d 2 (some (mulFull (s.word1 a) (s.word1 b))))

/-- `ADD128` (40_carry_chain.md R84). -/
def execAdd128 (d a b c : Addr) (s : State) : Outcome State Fault Refusal :=
  .next (runCommand (.add128 d a b c) s d 3 (addCarry (s.word2 a) (s.word2 b) (s.word1 c)))

/-- `SUB128` (40_carry_chain.md R85). -/
def execSub128 (d a b c : Addr) (s : State) : Outcome State Fault Refusal :=
  .next (runCommand (.sub128 d a b c) s d 3 (subBorrow 2 (s.word2 a) (s.word2 b) (s.word1 c)))

/-- `ADD256` (40_carry_chain.md R86). -/
def execAdd256 (d a b c : Addr) (s : State) : Outcome State Fault Refusal :=
  .next (runCommand (.add256 d a b c) s d 5 (addCarry (s.element a) (s.element b) (s.word1 c)))

/-- `SUB256` (40_carry_chain.md R87). -/
def execSub256 (d a b c : Addr) (s : State) : Outcome State Fault Refusal :=
  .next (runCommand (.sub256 d a b c) s d 5 (subBorrow 4 (s.element a) (s.element b) (s.word1 c)))

end Sys2Proof.Machine
end

