-- ==== Sys2Proof/Machine/Constants.lean ====
section
/-! DEFINITION. The constants the engine holds (10_state.md R31) and the parameters of 00_scope.md R5 that a computation
uses, as integers (00_scope.md R6). None of them is state: what the engine is built with, `OFFSET_2`, is the field
`State.offset2`, and its integer is here. -/

namespace Sys2Proof.Machine

/-- The modulus p (10_state.md R31). -/
def P : Nat := 2 ^ 251 + 17 * 2 ^ 192 + 1

/-- 16p, four words (10_state.md R31; 90_conflicts.md C5). -/
def P16 : Nat := 16 * P

/-- 32p, five words (10_state.md R31). -/
def P32 : Nat := 32 * P

/-- 32p - 2^256 = 544*2^192 + 32 (10_state.md R31). -/
def K32 : Nat := 544 * 2 ^ 192 + 32

/-- 96p, five words (10_state.md R31). -/
def P96 : Nat := 96 * P

/-- 128p, five words (10_state.md R31). -/
def P128 : Nat := 128 * P

/-- The integer 1, the multiplicand that leaves Montgomery form (10_state.md R31; 90_conflicts.md C6). -/
def constOne : Nat := 1

/-- 2^512 mod p, the canonical residue (10_state.md R31). -/
def constMont2256 : Nat := 2 ^ 512 % P

/-- `FEW_LIMIT`, the bound on the fifth word of a few-bits reduction (00_scope.md R5). -/
def fewLimit : Nat := 2 ^ 53

/-- 2^384: what a window of `MONT_WINDOW_WORDS` = 6 words cannot hold (00_scope.md R5, 43_montgomery.md R131). -/
def windowLimit : Nat := 2 ^ 384

/-- `OFFSET_2`, the pre-offset of x - 2y (00_scope.md R5, 42_field_ops.md R123): 32p, or 64p
(93_implementation_defined.md section 3). Log entry 4. -/
def Offset2.value : Offset2 → Nat
  | .p32 => P32
  | .p64 => 64 * P

/-- `OFFSET_3` = 96p (00_scope.md R5, 42_field_ops.md R112). -/
def offset3 : Nat := P96

/-- `OFFSET_4` = 128p (00_scope.md R5, 42_field_ops.md R112). -/
def offset4 : Nat := P128

end Sys2Proof.Machine
end

