-- ==== Sys2Proof/Machine/Reduction.lean ====
section
/-! DEFINITION. The reduction engine: the three functions of 41_reduction.md R100 to R102, and the commands R103 to R105 that
apply them. A function answers `none` where its contract is broken, which draws. -/

namespace Sys2Proof.Machine

open Host (Outcome)

/-- `overflow_reduce(t)` (41_reduction.md R100): one masked subtrahend, 0, 16p or 32p; contract t4 <= 1. -/
def overflowReduce (t : Nat) : Option Nat :=
  let t4 := t / 2 ^ 256
  if 1 < t4 then none
  else
    let b255 := t / 2 ^ 255 % 2
    let m := t4 * (P16 + b255 * P16)
    some (wrapSub 256 t m)

/-- `fewbits_reduce(r)` (41_reduction.md R101): r - r4*32p over four words, p added back on a borrow; contract r4 < 2^53.
Inside the contract the result is the procedure's, congruent or not (90_conflicts.md C2). -/
def fewbitsReduce (r : Nat) : Option Nat :=
  let r4 := r / 2 ^ 256
  let rl := r % 2 ^ 256
  if fewLimit ≤ r4 then none
  else
    let sl := r4 * K32
    some ((wrapSub 256 rl sl + borrowOut rl sl * P) % 2 ^ 256)

/-- `final_reduce(x)` (41_reduction.md R102): x minus its top five bits times p, p added back on a borrow; no contract. -/
def finalReduce (x : Nat) : Nat :=
  let xh := x / 2 ^ 251
  let q := xh * P
  (wrapSub 256 x q + borrowOut x q * P) % 2 ^ 256

/-- `OVERFLOW_REDUCE` (41_reduction.md R103). -/
def execOverflowReduce (d a : Addr) (s : State) : Outcome State Fault Refusal :=
  .next (runCommand (.overflowReduce d a) s d 4 (overflowReduce (s.word5 a)))

/-- `FEWBITS_REDUCE` (41_reduction.md R104). -/
def execFewbitsReduce (d a : Addr) (s : State) : Outcome State Fault Refusal :=
  .next (runCommand (.fewbitsReduce d a) s d 4 (fewbitsReduce (s.word5 a)))

/-- `FINAL_REDUCE` (41_reduction.md R105). -/
def execFinalReduce (d a : Addr) (s : State) : Outcome State Fault Refusal :=
  .next (runCommand (.finalReduce d a) s d 4 (some (finalReduce (s.element a))))

end Sys2Proof.Machine
end

