-- ==== Sys2Proof/Machine/FieldOps.lean ====
section
/-! DEFINITION. The field operations: the functions of 42_field_ops.md R110 to R112 on integers below 2^256, and the commands
R113 to R120 that apply them. -/

namespace Sys2Proof.Machine

open Host (Outcome)

/-- `fadd(x, y)` (42_field_ops.md R110). -/
def fadd (x y : Nat) : Option Nat := overflowReduce (x + y)

/-- `fsub(x, y)` (42_field_ops.md R111): 32p > 2^256 > y, so x + 32p - y is never negative. -/
def fsub (x y : Nat) : Option Nat := fewbitsReduce (x + P32 - y)

/-- `x_plus_cy(c, x, y)` (42_field_ops.md R112). -/
def xPlusCy (c x y : Nat) : Option Nat := fewbitsReduce (x + c * y)

/-- `x_minus_cy(c, x, y)` with its pre-offset as an argument (42_field_ops.md R112): a negative x + offset - c*y breaks the
contract, which can happen for c = 2 at the offset 32p only (R123). -/
def xMinusCy (offset c x y : Nat) : Option Nat :=
  if x + offset < c * y then none else fewbitsReduce (x + offset - c * y)

/-- `FADD` (42_field_ops.md R113). -/
def execFadd (d a b : Addr) (s : State) : Outcome State Fault Refusal :=
  .next (runCommand (.fadd d a b) s d 4 (fadd (s.element a) (s.element b)))

/-- `FSUB` (42_field_ops.md R114). -/
def execFsub (d a b : Addr) (s : State) : Outcome State Fault Refusal :=
  .next (runCommand (.fsub d a b) s d 4 (fsub (s.element a) (s.element b)))

/-- `X_PLUS_2Y` (42_field_ops.md R115). -/
def execXPlus2y (d a b : Addr) (s : State) : Outcome State Fault Refusal :=
  .next (runCommand (.xPlus2y d a b) s d 4 (xPlusCy 2 (s.element a) (s.element b)))

/-- `X_PLUS_3Y` (42_field_ops.md R116). -/
def execXPlus3y (d a b : Addr) (s : State) : Outcome State Fault Refusal :=
  .next (runCommand (.xPlus3y d a b) s d 4 (xPlusCy 3 (s.element a) (s.element b)))

/-- `X_PLUS_4Y` (42_field_ops.md R117). -/
def execXPlus4y (d a b : Addr) (s : State) : Outcome State Fault Refusal :=
  .next (runCommand (.xPlus4y d a b) s d 4 (xPlusCy 4 (s.element a) (s.element b)))

/-- `X_MINUS_2Y` (42_field_ops.md R118), at the `OFFSET_2` the engine is built with (R123). -/
def execXMinus2y (d a b : Addr) (s : State) : Outcome State Fault Refusal :=
  .next (runCommand (.xMinus2y d a b) s d 4 (xMinusCy s.offset2.value 2 (s.element a) (s.element b)))

/-- `X_MINUS_3Y` (42_field_ops.md R119). -/
def execXMinus3y (d a b : Addr) (s : State) : Outcome State Fault Refusal :=
  .next (runCommand (.xMinus3y d a b) s d 4 (xMinusCy offset3 3 (s.element a) (s.element b)))

/-- `X_MINUS_4Y` (42_field_ops.md R120). -/
def execXMinus4y (d a b : Addr) (s : State) : Outcome State Fault Refusal :=
  .next (runCommand (.xMinus4y d a b) s d 4 (xMinusCy offset4 4 (s.element a) (s.element b)))

end Sys2Proof.Machine
end

