-- ==== Sys2Proof/Machine/Montgomery.lean ====
section
/-! DEFINITION. The Montgomery engine: the round and the multiplication (43_montgomery.md R131, R132), and the commands R133
to R137. The 9-word buffer is internal scratch (10_state.md R30), held as the integer val(buf[0..8]) it denotes
(00_scope.md R7; log entry 17). -/

namespace Sys2Proof.Machine

open Host (Outcome)

/-- `montgomery_round(acc, xi, y)` (43_montgomery.md R131): acc + xi*y, then u*p cancels its lowest word; contract: the sum
stays below 2^384 (windowLimit). -/
def montgomeryRound (acc xi y : Nat) : Option Nat :=
  let a1 := acc + xi * y
  let u := (2 ^ 64 - a1 % 2 ^ 64) % 2 ^ 64
  let a2 := a1 + u * P
  if windowLimit ≤ a2 then none else some a2

/-- val(buf[i..i+n-1]) of a buffer. -/
def bufRead (buf i n : Nat) : Nat := buf / 2 ^ (64 * i) % 2 ^ (64 * n)

/-- The buffer after buf[i..i+n-1] <- words_n(v). -/
def bufWrite (buf i n v : Nat) : Nat :=
  buf % 2 ^ (64 * i) + v * 2 ^ (64 * i) + buf / 2 ^ (64 * (i + n)) * 2 ^ (64 * (i + n))

/-- Round i of a multiplication (43_montgomery.md R132): one round on the window buf[i..i+5], written back to it. -/
def multRound (x y i buf : Nat) : Option Nat :=
  (montgomeryRound (bufRead buf i 6) (wordAt i x) y).map (bufWrite buf i 6)

/-- The buffer after the rounds 0 to 3, from a buffer of zeros. -/
def multBuffer (x y : Nat) : Option Nat :=
  (((multRound x y 0 0).bind (multRound x y 1)).bind (multRound x y 2)).bind (multRound x y 3)

/-- `montgomery_mult(x, y)` (43_montgomery.md R132): four rounds, then the top five words through `overflow_reduce`. -/
def montgomeryMult (x y : Nat) : Option Nat :=
  (multBuffer x y).bind (fun buf => overflowReduce (bufRead buf 4 5))

/-- `MONT_ROUND` (43_montgomery.md R133). -/
def execMontRound (d a b c : Addr) (s : State) : Outcome State Fault Refusal :=
  .next (runCommand (.montRound d a b c) s d 6 (montgomeryRound (s.window a) (s.word1 c) (s.element b)))

/-- `MONT_MULT` (43_montgomery.md R134). -/
def execMontMult (d a b : Addr) (s : State) : Outcome State Fault Refusal :=
  .next (runCommand (.montMult d a b) s d 4 (montgomeryMult (s.element a) (s.element b)))

/-- `TO_MONT` (43_montgomery.md R135). -/
def execToMont (d a : Addr) (s : State) : Outcome State Fault Refusal :=
  .next (runCommand (.toMont d a) s d 4 (montgomeryMult (s.element a) constMont2256))

/-- `FROM_MONT` (43_montgomery.md R136). -/
def execFromMont (d a : Addr) (s : State) : Outcome State Fault Refusal :=
  .next (runCommand (.fromMont d a) s d 4 ((montgomeryMult (s.element a) constOne).map finalReduce))

/-- `MONT_CUBE` (43_montgomery.md R137). -/
def execMontCube (d a : Addr) (s : State) : Outcome State Fault Refusal :=
  .next (runCommand (.montCube d a) s d 4
    ((montgomeryMult (s.element a) (s.element a)).bind (fun sq => montgomeryMult sq (s.element a))))

end Sys2Proof.Machine
end

