-- ==== Sys2Proof/Machine/Sequencer.lean ====
section
/-! DEFINITION. The sequencer's one command, `HALT` (44_sequencer.md R150). -/

namespace Sys2Proof.Machine

open Host (Outcome)

/-- `HALT` (44_sequencer.md R150): the run ends, `STATUS` <- 0b010; `PC` keeps the index of this `HALT`, no store is written. -/
def execHalt (s : State) : Outcome State Fault Refusal := .next { s with status := statusDone }

end Sys2Proof.Machine
end

