-- ==== Sys2Proof/Machine/Dispatch.lean ====
section
/-! DEFINITION. What each command does: one arm per constructor of `Instr`, each one call of that command's meaning. -/

namespace Sys2Proof.Machine

open Host (Outcome)

def exec (i : Instr) (s : State) : Host.Outcome State Fault Refusal :=
  match i with
  | .halt => Sys2Proof.Machine.execHalt s
  | .add64 d a b c => Sys2Proof.Machine.execAdd64 d a b c s
  | .sub64 d a b c => Sys2Proof.Machine.execSub64 d a b c s
  | .mul64 d a b => Sys2Proof.Machine.execMul64 d a b s
  | .add128 d a b c => Sys2Proof.Machine.execAdd128 d a b c s
  | .sub128 d a b c => Sys2Proof.Machine.execSub128 d a b c s
  | .add256 d a b c => Sys2Proof.Machine.execAdd256 d a b c s
  | .sub256 d a b c => Sys2Proof.Machine.execSub256 d a b c s
  | .overflowReduce d a => Sys2Proof.Machine.execOverflowReduce d a s
  | .fewbitsReduce d a => Sys2Proof.Machine.execFewbitsReduce d a s
  | .finalReduce d a => Sys2Proof.Machine.execFinalReduce d a s
  | .fadd d a b => Sys2Proof.Machine.execFadd d a b s
  | .fsub d a b => Sys2Proof.Machine.execFsub d a b s
  | .xPlus2y d a b => Sys2Proof.Machine.execXPlus2y d a b s
  | .xPlus3y d a b => Sys2Proof.Machine.execXPlus3y d a b s
  | .xPlus4y d a b => Sys2Proof.Machine.execXPlus4y d a b s
  | .xMinus2y d a b => Sys2Proof.Machine.execXMinus2y d a b s
  | .xMinus3y d a b => Sys2Proof.Machine.execXMinus3y d a b s
  | .xMinus4y d a b => Sys2Proof.Machine.execXMinus4y d a b s
  | .montRound d a b c => Sys2Proof.Machine.execMontRound d a b c s
  | .montMult d a b => Sys2Proof.Machine.execMontMult d a b s
  | .toMont d a => Sys2Proof.Machine.execToMont d a s
  | .fromMont d a => Sys2Proof.Machine.execFromMont d a s
  | .montCube d a => Sys2Proof.Machine.execMontCube d a s

end Sys2Proof.Machine
end

