-- ==== Sys2Proof/Machine/Step.lean ====
section
/-! DEFINITION. The engine's step (44_sequencer.md R151), and a state that is about to run one given word. -/

namespace Sys2Proof.Machine

open Host (Outcome)

/-- `step()` (44_sequencer.md R151): only in RUNNING; no fetch at `PC` >= 4096; an illegal word faults (30_encoding.md R63,
R64); a legal command is executed, and its meaning makes the operand-range check and advances `PC`. -/
def step (s : State) : Outcome State Fault Refusal :=
  if s.runState = some .running then
    if s.pcOutOfStore then .next (s.raiseFault .commandRange 0)
    else match decode s.fetchWord with
      | .error _ => .next (s.raiseFault .illegalCommand s.fetchWord)
      | .ok i => exec i s
  else .fault .notRunning

/-- A state whose very next step runs the word `w` (its low `nbits` bits): the word is stored at CS[PC], `PC` is in the
command store (0 if it was not), and the engine is RUNNING (by `START` if it was not). It stands for the host's boot sequence
(70_reset_and_hazards.md R182, steps 3 to 5). Log entry 6. -/
def State.withFetchWord (s : State) (nbits w : Nat) : State :=
  let s := if s.pcOutOfStore then { s with pc := 0 } else s
  let s := { s with commands := s.commands.writeWord s.pc.toNat (BitVec.ofNat 64 (w % 2 ^ nbits)) }
  if s.runState = some .running then s else s.start

end Sys2Proof.Machine
end

