-- ==== Sys2Proof/Machine/Pseudo.lean ====
section
/-! DEFINITION. The pseudo-instructions of 30_encoding.md R68 to R74: macros of the assembler, each a sequence of commands.
None is an opcode. An address above 4095 is refused (R67). -/

namespace Sys2Proof.Machine

/-- The pseudo-instructions, with their operands in the order the rules write them. -/
inductive Pseudo where
  /-- `SUM3 @d, @a` (30_encoding.md R68). -/
  | sum3 (d a : Nat)
  /-- `SUM4 @d, @e, @a` (30_encoding.md R69). -/
  | sum4 (d e a : Nat)
  /-- `SUM5 @d, @a` (30_encoding.md R70). -/
  | sum5 (d a : Nat)
  /-- `SUM9 @d, @e, @a` (30_encoding.md R71). -/
  | sum9 (d e a : Nat)
  /-- `MONT_SQR @d, @a` (30_encoding.md R72). -/
  | montSqr (d a : Nat)
  /-- `ZERO4 @d, @a` (30_encoding.md R73). -/
  | zero4 (d a : Nat)
  /-- `COPY4 @d, @a, @z` (30_encoding.md R74). -/
  | copy4 (d a z : Nat)
  deriving DecidableEq, Repr

/-- An address an assembler accepts: at most 4095 (30_encoding.md R67). -/
def addrOf (n : Nat) : Option Addr := if n < storeWords then some (BitVec.ofNat 12 n) else none

/-- `FADD @d, @x, @y`. -/
def faddLine (d x y : Nat) : Option Instr := do
  return .fadd (← addrOf d) (← addrOf x) (← addrOf y)

/-- The commands `FADD @d, @d, @a+4k` for k from `k`, `n` of them, in increasing order. -/
def accumulate (d a k : Nat) : Nat → List (Option Instr)
  | 0 => []
  | n + 1 => faddLine d d (a + 4 * k) :: accumulate d a (k + 1) n

/-- The sum of the elements at a, a+4, ..., strictly left to right, into d: `n` of them, n >= 2 (90_conflicts.md C7). -/
def sumInto (d a n : Nat) : List (Option Instr) := faddLine d a (a + 4) :: accumulate d a 2 (n - 2)

/-- The lines of a pseudo-instruction's expansion (30_encoding.md R68 to R74). -/
def Pseudo.lines : Pseudo → List (Option Instr)
  | .sum3 d a => sumInto d a 3
  | .sum4 d e a => sumInto e a 3 ++ [faddLine d e (a + 12)]
  | .sum5 d a => sumInto d a 5
  | .sum9 d e a => sumInto e a 8 ++ [faddLine d e (a + 32)]
  | .montSqr d a => [do return .montMult (← addrOf d) (← addrOf a) (← addrOf a)]
  | .zero4 d a => [do return .fsub (← addrOf d) (← addrOf a) (← addrOf a)]
  | .copy4 d a z => [faddLine d a z]

/-- The expansion of a pseudo-instruction; `none` where an address is above 4095. -/
def Pseudo.expand (p : Pseudo) : Option (List Instr) := p.lines.mapM id

/-- The spans [a, a+m-1] and [b, b+n-1] have no address in common. -/
def disjointSpans (a m b n : Nat) : Bool := decide (a + m ≤ b) || decide (b + n ≤ a)

/-- The overlap constraints a program keeps (30_encoding.md R68 to R71, 70_reset_and_hazards.md R188). Breaking one gives the
expanded commands' result, which is defined but not the sum. -/
def Pseudo.constraint : Pseudo → Bool
  | .sum3 d a => disjointSpans d 4 (a + 8) 4
  | .sum4 d e a => disjointSpans e 4 (a + 8) 8 && disjointSpans d 4 e 4
  | .sum5 d a => disjointSpans d 4 (a + 8) 12
  | .sum9 d e a => disjointSpans e 4 (a + 8) 28 && disjointSpans d 4 e 4
  | .montSqr _ _ => true
  | .zero4 _ _ => true
  | .copy4 _ _ _ => true

end Sys2Proof.Machine
end

