-- ==== Sys2Proof/Machine/Assembler.lean ====
section
/-! DEFINITION. The assembler's text syntax (30_encoding.md R67), with the pseudo-instructions of R68 to R74. It is no part of
the engine: it says which command words a host stores for a text. What R67 leaves open is in log entry 15. -/

namespace Sys2Proof.Machine

/-- Why a line is refused (30_encoding.md R67). -/
inductive AsmError where
  /-- The first word of the line is no mnemonic, no pseudo-instruction and not `.equ`. -/
  | unknownMnemonic
  /-- An operand is not `@` and a number or a name, or a directive is not `.equ name, n`. -/
  | malformed
  /-- A name that no earlier `.equ` defines. -/
  | undefinedName
  /-- An address above 4095. -/
  | addressTooLarge
  /-- The number of operands is not the number of fields the opcode uses. -/
  | operandCount
  deriving DecidableEq, Repr

/-- The names defined so far, the latest first. -/
abbrev Names := List (List Char × Nat)

/-! ### Characters -/

/-- A blank. -/
def isBlank (c : Char) : Bool := c == ' ' || c == '\t'

/-- The text without blanks at its ends. -/
def trimBlanks (l : List Char) : List Char :=
  ((l.dropWhile isBlank).reverse.dropWhile isBlank).reverse

/-- The parts of a text between commas. -/
def splitCommas : List Char → List (List Char)
  | [] => [[]]
  | c :: rest =>
    if c == ',' then [] :: splitCommas rest
    else match splitCommas rest with
      | [] => [[c]]
      | part :: parts => (c :: part) :: parts

/-- The value of a digit, at most 15. -/
def digitValue (c : Char) : Option Nat :=
  let n := c.toNat
  if 48 ≤ n ∧ n ≤ 57 then some (n - 48)
  else if 97 ≤ n ∧ n ≤ 102 then some (n - 87)
  else if 65 ≤ n ∧ n ≤ 70 then some (n - 55)
  else none

/-- The number the digits of a base write after the value `acc`. -/
def digitsFrom (base acc : Nat) : List Char → Option Nat
  | [] => some acc
  | c :: rest =>
    match digitValue c with
    | none => none
    | some v => if v < base then digitsFrom base (base * acc + v) rest else none

/-- A number, decimal or `0x`-hexadecimal (30_encoding.md R67). -/
def parseNumber : List Char → Option Nat
  | [] => none
  | '0' :: 'x' :: c :: rest => digitsFrom 16 0 (c :: rest)
  | c :: rest => digitsFrom 10 0 (c :: rest)

/-- A letter or an underscore. -/
def isNameStart (c : Char) : Bool :=
  let n := c.toNat
  (decide (65 ≤ n) && decide (n ≤ 90)) || (decide (97 ≤ n) && decide (n ≤ 122)) || c == '_'

/-- A name: a letter or an underscore, then letters, digits and underscores. -/
def isName : List Char → Bool
  | [] => false
  | c :: rest => isNameStart c && rest.all (fun x => isNameStart x || (decide (48 ≤ x.toNat) && decide (x.toNat ≤ 57)))

/-! ### Operands -/

/-- The address an operand `@n` or `@name` writes (30_encoding.md R67). -/
def parseOperand (names : Names) (text : List Char) : Except AsmError Nat :=
  match trimBlanks text with
  | '@' :: rest =>
    if isName rest then
      match names.lookup rest with
      | none => .error .undefinedName
      | some n => .ok n
    else match parseNumber rest with
      | none => .error .malformed
      | some n => .ok n
  | _ => .error .malformed

/-- The operands of a line; an empty text has none. -/
def parseOperands (names : Names) (text : List Char) : Except AsmError (List Nat) :=
  if trimBlanks text = [] then .ok [] else (splitCommas text).mapM (parseOperand names)

/-- The number of fields an opcode uses. -/
def Opcode.operandCount (o : Opcode) : Nat := Field.all.countP (fun f => (o.width f).isSome)

/-- The addresses of a list of operands, refused above 4095. -/
def operandAddrs (operands : List Nat) : Except AsmError (List Addr) :=
  match operands.mapM addrOf with
  | none => .error .addressTooLarge
  | some addrs => .ok addrs

/-- A command from its opcode and its operands in the order D, A, B, C; the fields left out are 0 (30_encoding.md R67). -/
def assembleCommand (o : Opcode) (operands : List Nat) : Except AsmError (List Instr) :=
  if operands.length = Opcode.operandCount o then
    (operandAddrs operands).map (fun l => [o.instr (l.getD 0 0) (l.getD 1 0) (l.getD 2 0) (l.getD 3 0)])
  else .error .operandCount

/-- The pseudo-instruction of a name and its operands (30_encoding.md R68 to R74). -/
def pseudoOf (name : List Char) (operands : List Nat) : Except AsmError Pseudo :=
  if name = "SUM3".toList then
    match operands with | [d, a] => .ok (.sum3 d a) | _ => .error .operandCount
  else if name = "SUM4".toList then
    match operands with | [d, e, a] => .ok (.sum4 d e a) | _ => .error .operandCount
  else if name = "SUM5".toList then
    match operands with | [d, a] => .ok (.sum5 d a) | _ => .error .operandCount
  else if name = "SUM9".toList then
    match operands with | [d, e, a] => .ok (.sum9 d e a) | _ => .error .operandCount
  else if name = "MONT_SQR".toList then
    match operands with | [d, a] => .ok (.montSqr d a) | _ => .error .operandCount
  else if name = "ZERO4".toList then
    match operands with | [d, a] => .ok (.zero4 d a) | _ => .error .operandCount
  else if name = "COPY4".toList then
    match operands with | [d, a, z] => .ok (.copy4 d a z) | _ => .error .operandCount
  else .error .unknownMnemonic

/-- The commands of a pseudo-instruction, refused where an address is above 4095. -/
def expandPseudo (p : Pseudo) : Except AsmError (List Instr) :=
  match p.expand with
  | none => .error .addressTooLarge
  | some l => .ok l

/-! ### Lines -/

/-- The commands of a line that is neither blank nor a directive. -/
def assembleOperation (names : Names) (name rest : List Char) : Except AsmError (List Instr) := do
  match Opcode.all.find? (fun o => o.mnemonic.toList == name) with
  | some o => assembleCommand o (← parseOperands names rest)
  | none => expandPseudo (← pseudoOf name (← parseOperands names rest))

/-- The names after `.equ name, n` (30_encoding.md R67). -/
def defineName (names : Names) (rest : List Char) : Except AsmError Names :=
  match (splitCommas rest).map trimBlanks with
  | [name, number] =>
    match parseNumber number with
    | none => .error .malformed
    | some n => if isName name then .ok ((name, n) :: names) else .error .malformed
  | _ => .error .malformed

/-- One line: the names defined after it, and the commands it stands for (30_encoding.md R67). `;` starts a comment. -/
def assembleLine (names : Names) (line : List Char) : Except AsmError (Names × List Instr) :=
  let text := trimBlanks (line.takeWhile (fun c => c != ';'))
  let name := text.takeWhile (fun c => !isBlank c)
  let rest := text.dropWhile (fun c => !isBlank c)
  if name = [] then .ok (names, [])
  else if name = ".equ".toList then (defineName names rest).map (fun ns => (ns, []))
  else (assembleOperation names name rest).map (fun l => (names, l))

/-- The commands of a text, line by line. -/
def assembleLines : Names → List (List Char) → Except AsmError (List Instr)
  | _, [] => .ok []
  | names, line :: lines => do
    let (names', l) ← assembleLine names line
    return l ++ (← assembleLines names' lines)

/-- The command words of a program's lines. -/
def assemble (lines : List String) : Except AsmError (List Word) :=
  (assembleLines [] (lines.map String.toList)).map (fun l => l.map encode)

end Sys2Proof.Machine
end

