-- ==== Sys2Proof/Machine/HostPort.lean ====
section
/-! DEFINITION. The host's side: the register block (10_state.md R24 to R28), the host's store accesses (20_memory.md R40, R41,
R56), reset (70_reset_and_hazards.md R180), and the transition relation of the whole machine (44_sequencer.md R154): the
engine's step, the host's moves, and reset. -/

namespace Sys2Proof.Machine

open Host (Outcome)

/-! ### The register block (10_state.md R24) -/

/-- A host read of register `n`: `CTRL` and the numbers above 3 read 0, `PC` is zero-extended (10_state.md R24 to R28). -/
def hostReadReg (n : Nat) (s : State) : Word :=
  match n with
  | 1 => s.status
  | 2 => s.pc.setWidth 64
  | 3 => s.errcmd
  | _ => 0

/-- A host write of register `n`. `CTRL`: bit 0 starts a run unless `BUSY` = 1, the other bits are ignored (10_state.md R25).
`PC`: its bits 12:0, unless `BUSY` = 1 (R27). `STATUS`, `ERRCMD` and the numbers above 3 ignore writes (R24, R26, R28). -/
def hostWriteReg (n : Nat) (v : Word) (s : State) : State :=
  match n with
  | 0 => if v.getLsbD 0 && !s.busy then s.start else s
  | 2 => if s.busy then s else { s with pc := v.extractLsb' 0 13 }
  | _ => s

/-! ### The stores (20_memory.md R40, R41, R56) -/

/-- A host read of `S[a]`: only while `BUSY` = 0 (20_memory.md R40, R56). -/
def hostReadOperand (a : Addr) (s : State) : Except Refusal Word :=
  if s.busy then .error .hostStoreWhileBusy else .ok (s.operandWord a.toNat)

/-- A host write of `S[a]`: only while `BUSY` = 0 (20_memory.md R40, R56). -/
def hostWriteOperand (a : Addr) (v : Word) (s : State) : Outcome State Fault Refusal :=
  if s.busy then .refused .hostStoreWhileBusy
  else .next { s with operands := s.operands.writeWord a.toNat v }

/-- A host read of `CS[k]`: only while `BUSY` = 0 (44_sequencer.md R154 (c); log entry 8). -/
def hostReadCommand (k : Addr) (s : State) : Except Refusal Word :=
  if s.busy then .error .hostStoreWhileBusy else .ok (s.commandWord k.toNat)

/-- A host write of `CS[k]`: only while `BUSY` = 0 (20_memory.md R41, R56). -/
def hostWriteCommand (k : Addr) (v : Word) (s : State) : Outcome State Fault Refusal :=
  if s.busy then .refused .hostStoreWhileBusy
  else .next { s with commands := s.commands.writeWord k.toNat v }

/-! ### Reset (70_reset_and_hazards.md R180) -/

/-- What reset sets; the stores keep their contents, and the parameter `OFFSET_2` its value. -/
def State.resetRegisters (s : State) : State := { s with pc := 0, status := 0, errcmd := 0 }

/-- The command that is executing in a RUNNING engine: the one the next step would execute to its end. -/
def State.executing (s : State) : Option Instr :=
  if s.runState = some .running && !s.pcOutOfStore then
    match decode s.fetchWord with
    | .ok i => if i.wellFormed then some i else none
    | .error _ => none
  else none

/-- The operand store of `old` with the words a + j (j from `j` to n - 1) that `keepNew` marks taken from `new`. -/
def mergeWords (old new : State) (a : Nat) (keepNew : List Bool) : Nat → Memory
  | 0 => old.operands
  | n + 1 =>
    let m := mergeWords old new a keepNew n
    if keepNew.getD n false then m.writeWord (a + n) (new.operandWord (a + n)) else m

/-- Reset asserted while a command is executing: each destination word is either old or new, unspecified which; `keepNew`
says which (word j of the destination is new exactly when `keepNew` holds true at place j), and every choice is a behaviour of
the hardware (log entry 9). No other operand-store word changes, and the registers are reset. -/
def State.resetDuring (keepNew : List Bool) (s : State) : State :=
  match s.executing with
  | none => s.resetRegisters
  | some i =>
    match exec i s, destSpan i with
    | .next t, some (d, n) =>
      { s with operands := mergeWords s t d.toNat keepNew n, draws := t.draws }.resetRegisters
    | _, _ => s.resetRegisters

/-! ### The transition relation (44_sequencer.md R154, 70_reset_and_hazards.md R189) -/

/-- The moves of the machine. -/
inductive Move where
  /-- (a) The engine's step. -/
  | engine
  /-- (b) A host register read. -/
  | readReg (n : Nat)
  /-- (b) A host register write. -/
  | writeReg (n : Nat) (v : Word)
  /-- (c) A host read of the operand store. -/
  | readOperand (a : Addr)
  /-- (c) A host write of the operand store. -/
  | writeOperand (a : Addr) (v : Word)
  /-- (c) A host read of the command store. -/
  | readCommand (k : Addr)
  /-- (c) A host write of the command store. -/
  | writeCommand (k : Addr) (v : Word)
  /-- Reset between commands. -/
  | reset
  /-- Reset inside the command that is executing, with the destination words that are new. -/
  | resetDuring (keepNew : List Bool)
  deriving DecidableEq, Repr

/-- What a host read leaves: the state as it was (20_memory.md R49), or the refusal of the read. -/
def afterRead (s : State) : Except Refusal Word → Outcome State Fault Refusal
  | .ok _ => .next s
  | .error r => .refused r

/-- One move of the machine (44_sequencer.md R154). A register read has no side effect (20_memory.md R49). -/
def move (m : Move) (s : State) : Outcome State Fault Refusal :=
  match m with
  | .engine => step s
  | .readReg _ => .next s
  | .writeReg n v => .next (hostWriteReg n v s)
  | .readOperand a => afterRead s (hostReadOperand a s)
  | .writeOperand a v => hostWriteOperand a v s
  | .readCommand k => afterRead s (hostReadCommand k s)
  | .writeCommand k v => hostWriteCommand k v s
  | .reset => .next s.resetRegisters
  | .resetDuring keepNew => .next (s.resetDuring keepNew)

/-- A sequence of moves, as far as each has a next state. -/
def moves : List Move → State → Outcome State Fault Refusal
  | [], s => .next s
  | m :: ms, s =>
    match move m s with
    | .next t => moves ms t
    | .fault r => .fault r
    | .refused r => .refused r

/-! ### The host's boot sequence and recovery (70_reset_and_hazards.md R182, 60_exceptions.md R163) -/

/-- Host writes of consecutive operand-store words (70_reset_and_hazards.md R182, step 2). -/
def loadOperands (a : Addr) : List Word → List Move
  | [] => []
  | w :: ws => .writeOperand a w :: loadOperands (a + 1) ws

/-- Host writes of consecutive commands (70_reset_and_hazards.md R182, step 3). -/
def loadCommands (k : Addr) : List Word → List Move
  | [] => []
  | w :: ws => .writeCommand k w :: loadCommands (k + 1) ws

/-- The host's register writes that begin a run at index `k` (70_reset_and_hazards.md R182, steps 4 and 5; the same two writes
resume after a fault, 60_exceptions.md R163). -/
def startAt (k : Index) : List Move := [.writeReg 2 (k.setWidth 64), .writeReg 0 1]

end Sys2Proof.Machine
end

