-- ==== Sys2Proof/Safety.lean ====
section
/-! DEFINITION. The terms statements are made in: the invariant of the machine, what a command changes and what it leaves, the
contracts of 70_reset_and_hazards.md R185 (a safe run breaks none and ends DONE), and runs of several commands. -/

namespace Sys2Proof.Machine

open Host (Outcome)

/-! ### The invariant -/

/-- The values `STATUS` takes (10_state.md R26): idle, running, done, and faulted with cause 1, 2 or 3. -/
def statusValues : List Word :=
  [0, statusRunning, statusDone, statusFaulted .illegalCommand, statusFaulted .operandRange, statusFaulted .commandRange]

/-- `ERRCMD` agrees with `STATUS` (10_state.md R28): after an `ILLEGAL_COMMAND` it holds a word that is no command, after an
`OPERAND_RANGE` a legal command that is not well formed, and in every other state 0. -/
def errcmdAgrees (s : State) : Bool :=
  if s.status = statusFaulted .illegalCommand then
    (match decode s.errcmd with | .ok _ => false | .error _ => true)
  else if s.status = statusFaulted .operandRange then
    (match decode s.errcmd with | .ok i => !i.wellFormed | .error _ => false)
  else s.errcmd == 0

/-- What every move of the machine keeps: both stores in canonical form and inside their address space, `STATUS` one of its
six values (10_state.md R26), and `ERRCMD` in agreement with it (R28). -/
abbrev State.Inv (s : State) : Prop :=
  s.operands.wf ∧ s.commands.wf ∧ s.status ∈ statusValues ∧ errcmdAgrees s = true

/-! ### What a command changes, and what it leaves -/

/-- A byte of the operand store lies in the `n` words at `d`. -/
def inSpan (d : Addr) (n x : Nat) : Prop := 8 * d.toNat ≤ x ∧ x < 8 * (d.toNat + n)

/-- `t` is `s` after a command that completed and wrote at most the `n` words at `d`: every byte outside them, the command
store, `STATUS`, `ERRCMD` and the parameter are as before, and `PC` has advanced by 1 (10_state.md R21, 20_memory.md R41,
R48). -/
def CompletedAt (s t : State) (d : Addr) (n : Nat) : Prop :=
  (∀ x, ¬ inSpan d n x → t.operandByte x = s.operandByte x) ∧
  (∀ x, t.commandByte x = s.commandByte x) ∧
  t.pc = s.pc + 1 ∧ t.status = s.status ∧ t.errcmd = s.errcmd ∧ t.offset2 = s.offset2

/-- `t` is `s` after a command that wrote the value `v` to the `n` words at `d`, drawing nothing. -/
def Wrote (s t : State) (d : Addr) (n v : Nat) : Prop :=
  CompletedAt s t d n ∧ t.memRead d n = v ∧ t.draws = s.draws

/-- `t` is `s` after a command whose contract was broken: the `n` words at `d` are the next `n` free words (00_scope.md R11). -/
def Drew (s t : State) (d : Addr) (n : Nat) : Prop :=
  CompletedAt s t d n ∧ (∀ j, j < n → t.operandWord (d.toNat + j) = Config.freeWord (s.draws + j)) ∧
  t.draws = s.draws + n

/-- `t` is `s` after a fault was taken: `STATUS` and `ERRCMD` report it, and nothing else changed (60_exceptions.md R161). -/
def FaultTaken (s t : State) (cause : Cause) (errcmd : Word) : Prop :=
  t.status = statusFaulted cause ∧ t.errcmd = errcmd ∧ t.pc = s.pc ∧
  t.operands = s.operands ∧ t.commands = s.commands ∧ t.draws = s.draws ∧ t.offset2 = s.offset2

/-! ### Contracts (70_reset_and_hazards.md R185) -/

/-- The integer a Montgomery round comes to (43_montgomery.md R131): acc + xi*y + u*p. -/
def roundSum (acc xi y : Nat) : Nat := acc + xi * y + (2 ^ 64 - (acc + xi * y) % 2 ^ 64) % 2 ^ 64 * P

/-- The contract of a command on the operands it finds in `s` (70_reset_and_hazards.md R185 (a) to (e)), that of X_MINUS_2Y at
the `OFFSET_2` of the engine (93_implementation_defined.md U6); a command named in no clause has none. -/
def contract (i : Instr) (s : State) : Bool :=
  match i with
  | .add64 _ _ _ c | .sub64 _ _ _ c | .add128 _ _ _ c | .sub128 _ _ _ c | .add256 _ _ _ c | .sub256 _ _ _ c =>
    decide (s.memRead c 1 ≤ 1)
  | .overflowReduce _ a => decide (s.memRead a 5 / 2 ^ 256 ≤ 1)
  | .fewbitsReduce _ a => decide (s.memRead a 5 / 2 ^ 256 < 2 ^ 53)
  | .xMinus2y _ a b => decide (2 * s.memRead b 4 ≤ s.memRead a 4 + s.offset2.value)
  | .montRound _ a b c => decide (roundSum (s.memRead a 6) (s.memRead c 1) (s.memRead b 4) < windowLimit)
  | .halt | .mul64 _ _ _ | .finalReduce _ _ | .fadd _ _ _ | .fsub _ _ _ | .xPlus2y _ _ _ | .xPlus3y _ _ _
  | .xPlus4y _ _ _ | .xMinus3y _ _ _ | .xMinus4y _ _ _ | .montMult _ _ _ | .toMont _ _ | .fromMont _ _
  | .montCube _ _ => true

/-! ### Runs of several commands -/

/-- `k` steps of the engine, stopping where there is no next state (44_sequencer.md R151). -/
def steps : Nat → State → Outcome State Fault Refusal
  | 0, s => .next s
  | k + 1, s =>
    match step s with
    | .next t => steps k t
    | .fault r => .fault r
    | .refused r => .refused r

/-- A safe run: from `s`, some number of steps reaches DONE (10_state.md R26) and none of its commands broke a contract, so that
nothing was drawn. -/
def SafeRun (s : State) : Prop := ∃ k t, steps k s = .next t ∧ t.status = statusDone ∧ t.draws = s.draws

/-- The commands of a list executed one after the other. -/
def execAll : List Instr → State → Outcome State Fault Refusal
  | [], s => .next s
  | i :: is, s =>
    match exec i s with
    | .next t => execAll is t
    | .fault r => .fault r
    | .refused r => .refused r

/-- The commands of a list stand in the command store from `PC` on. -/
def programAt (s : State) (l : List Instr) : Prop :=
  s.pc.toNat + l.length ≤ storeWords ∧
  ∀ j i, l[j]? = some i → decode (s.commandWord (s.pc.toNat + j)) = .ok i

/-- The chain of 40_carry_chain.md R90: one-word additions from the lowest word up, each passing its carry on; the words of
the sum and above them the last carry, as one integer. -/
def addChain : List (Nat × Nat) → Nat → Option Nat
  | [], c => some c
  | (x, y) :: rest, c => (addCarry x y c).bind (fun s => (addChain rest (s / 2 ^ 64)).map (fun hi => s % 2 ^ 64 + 2 ^ 64 * hi))

/-- The chain of 40_carry_chain.md R90 for subtraction, passing the borrow. -/
def subChain : List (Nat × Nat) → Nat → Option Nat
  | [], b => some b
  | (x, y) :: rest, b =>
    (subBorrow 1 x y b).bind (fun s => (subChain rest (s / 2 ^ 64)).map (fun hi => s % 2 ^ 64 + 2 ^ 64 * hi))

/-- val(w0, w1, ...), the least significant word first (00_scope.md R7). -/
def valWords : List Nat → Nat
  | [] => 0
  | w :: ws => w + 2 ^ 64 * valWords ws

/-- Two states whose commands, `PC`, `STATUS` and `ERRCMD` are the same; their operand stores, free values and parameters may differ. -/
def SameControl (s t : State) : Prop :=
  s.commands = t.commands ∧ s.pc = t.pc ∧ s.status = t.status ∧ s.errcmd = t.errcmd

/-- The left-to-right sum of field elements (42_field_ops.md R110, 90_conflicts.md C7). -/
def foldFadd : Nat → List Nat → Option Nat
  | x, [] => some x
  | x, y :: ys => (fadd x y).bind (fun z => foldFadd z ys)

end Sys2Proof.Machine
end

