-- ==== Sys2Proof/Certificates/Slice0/Obligations.lean ====
section
/-! DEFINITION. The statements about the machine, each a proposition to be proved or refuted by others. A docstring names the
rule or the sections of spec/ a statement rests on. -/

open Sys2Proof Sys2Proof.Machine

/-- The built-in constants have the words the spec lists. Rests on 10_state.md section 3, 00_scope.md section 4. -/
def Obligations.ConstantsHaveTheirWords : Prop :=
  P = valWords [0x1, 0, 0, 0x0800000000000011] ∧ P = 2 ^ 251 + 17 * 2 ^ 192 + 1 ∧
  P16 = valWords [0x10, 0, 0, 0x8000000000000110] ∧ P16 = 16 * P ∧
  P32 = valWords [0x20, 0, 0, 0x220, 0x1] ∧ P32 = 32 * P ∧
  K32 = valWords [0x20, 0, 0, 0x220] ∧ P32 = 2 ^ 256 + K32 ∧
  P96 = valWords [0x60, 0, 0, 0x660, 0x3] ∧ P96 = 96 * P ∧
  P128 = valWords [0x80, 0, 0, 0x880, 0x4] ∧ P128 = 128 * P ∧
  constOne = valWords [0x1, 0, 0, 0] ∧ constOne = 1 ∧
  constMont2256 = valWords [0xfffffd737e000401, 0x00000001330fffff, 0xffffffffff6f8000, 0x07ffd4ab5e008810] ∧
  constMont2256 < P ∧ constMont2256 = 2 ^ 512 % P

/-- The state after power-up and reset meets the invariant. Rests on 10_state.md section 4, 70_reset_and_hazards.md
section 1. The canonical form of the stores is the model's choice, log entry 2. -/
def Obligations.ResetStateMeetsInvariant : Prop :=
  State.reset.Inv ∧ State.reset.runState = some .idle ∧ State.reset.pc = 0 ∧ State.reset.status = 0 ∧
  State.reset.errcmd = 0

/-- Every step keeps the invariant. Rests on 10_state.md section 2, 60_exceptions.md section 2, 44_sequencer.md
section 2. The canonical form of the stores is the model's choice, log entry 2. -/
def Obligations.StepKeepsInvariant : Prop :=
  ∀ s t : State, s.Inv → step s = .next t → t.Inv

/-- Every host move and every reset keeps the invariant. Rests on 44_sequencer.md section 2, 70_reset_and_hazards.md
section 4. The canonical form of the stores is the model's choice, log entry 2. -/
def Obligations.HostMovesKeepInvariant : Prop :=
  ∀ (m : Move) (s t : State), m ≠ .engine → s.Inv → move m s = .next t → t.Inv

/-- Reset clears the registers; inside a command it may leave each destination word old or new. Rests on
70_reset_and_hazards.md section 1, 20_memory.md section 3. That an engine not RUNNING answers notRunning is the
model's, log entry 5; keepNew is the choice of log entry 9. -/
def Obligations.ResetClearsRegistersAndTearsOnlyDestinations : Prop :=
  (∀ s : State, ∃ t, move .reset s = .next t ∧ t.pc = 0 ∧ t.status = 0 ∧ t.errcmd = 0 ∧
    t.operands = s.operands ∧ t.commands = s.commands ∧ step t = .fault .notRunning) ∧
  (∀ (s : State) (keepNew : List Bool), ∃ t, move (.resetDuring keepNew) s = .next t ∧
    t.pc = 0 ∧ t.status = 0 ∧ t.errcmd = 0 ∧ t.commands = s.commands ∧ step t = .fault .notRunning ∧
    (s.executing = none → t.operands = s.operands) ∧
    (∀ i u, s.executing = some i → exec i s = .next u → ∀ a,
      t.operandWord a =
        if isDest i a && keepNew.getD (a - (i.field .D).toNat) false then u.operandWord a else s.operandWord a))

/-- Decoding an encoded command gives it back, for every command. Rests on 30_encoding.md section 1, 30_encoding.md
section 2. -/
def Obligations.DecodeOfEncodeIsTheCommand : Prop :=
  ∀ i : Instr, decode (encode i) = .ok i

/-- A word that decodes is the word of the command it decodes to. Rests on 30_encoding.md section 3. -/
def Obligations.EncodeOfDecodeIsTheWord : Prop :=
  ∀ (w : Word) (i : Instr), decode w = .ok i → encode i = w

/-- A word is legal exactly when one row of the opcode table matches it, and otherwise raises ILLEGAL_COMMAND. States
R64. -/
def Obligations.LegalWordsAreTheTableRows : Prop :=
  (∀ (w : Word) (o : Opcode), o.matches w = true ↔ ∃ i, decode w = .ok i ∧ i.opcode = o) ∧
  (∀ w : Word, (∃ r, decode w = .error r) ↔
    (Opcode.ofCode (fieldOp w) = none ∨ fieldRsv w ≠ 0 ∨
      ∃ o f, Opcode.ofCode (fieldOp w) = some o ∧ o.width f = none ∧ fieldAddr w f ≠ 0)) ∧
  (∀ (w : Word) (o o' : Opcode), o.matches w = true → o'.matches w = true → o = o') ∧
  (∀ (s : State) (r : Reject), s.runState = some .running → s.pc.toNat < 4096 → decode (s.commandWord s.pc.toNat) = .error r →
    ∃ t, step s = .next t ∧ FaultTaken s t .illegalCommand (s.commandWord s.pc.toNat) ∧ t.status = 0x14) ∧
  (∀ op : Byte, Opcode.ofCode op = none ↔ (0x08 ≤ op ∧ op ≤ 0x0f) ∨ (0x13 ≤ op ∧ op ≤ 0x1f) ∨
    (0x28 ≤ op ∧ op ≤ 0x2f) ∨ 0x35 ≤ op) ∧
  (∀ w : Word, decode w = .ok .halt ↔ w = 0)

/-- Sample words of the spec decode to the commands they stand for. Rests on 95_test_vectors.md section 3.5,
30_encoding.md section 2. -/
def Obligations.SampleWordsDecodeToTheirCommands : Prop :=
  decode 0x0000000000000000 = .ok .halt ∧
  decode 0x0004003002001001 = .ok (.add64 16 32 48 64) ∧
  decode 0x0000000002001011 = .ok (.fewbitsReduce 16 32) ∧
  decode 0x0000003002001025 = .ok (.xMinus2y 16 32 48) ∧
  decode 0x0004003002001030 = .ok (.montRound 16 32 48 64) ∧
  decode 0x0000000002001033 = .ok (.fromMont 16 32)

/-- A step runs the command its word decodes to. Rests on 44_sequencer.md section 2, 30_encoding.md section 2. -/
def Obligations.StepRunsTheDecodedCommand : Prop :=
  ∀ (s : State) (i : Instr), s.runState = some .running → s.pc.toNat < 4096 →
    decode (s.commandWord s.pc.toNat) = .ok i → step s = exec i s

/-- The engine takes a step exactly when STATUS bits 2:0 are 0b001. States R29. -/
def Obligations.EngineStepsOnlyWhenRunning : Prop :=
  (∀ s : State, (∃ t, step s = .next t) ↔ s.status.extractLsb' 0 3 = 0b001) ∧
  (∀ s : State, (s.runState = some .idle ↔ s.status.extractLsb' 0 3 = 0b000) ∧
    (s.runState = some .running ↔ s.status.extractLsb' 0 3 = 0b001) ∧
    (s.runState = some .done ↔ s.status.extractLsb' 0 3 = 0b010) ∧
    (s.runState = some .faulted ↔ s.status.extractLsb' 0 3 = 0b100))

/-- HALT sets STATUS to DONE and changes nothing else; only the all-zero word is HALT. States R150. -/
def Obligations.HaltEndsTheRun : Prop :=
  (∀ s : State, ∃ t, exec .halt s = .next t ∧ t.status = 0b010 ∧ t.pc = s.pc ∧ t.errcmd = s.errcmd ∧
    t.operands = s.operands ∧ t.commands = s.commands ∧ t.draws = s.draws ∧ t.offset2 = s.offset2) ∧
  (∀ w : Word, decode w = .ok .halt ↔ w = 0) ∧
  (∀ (s : State) (w : Word), s.runState = some .running → s.pc.toNat < 4096 → w = s.commandWord s.pc.toNat →
    fieldOp w = 0 →
    (w ≠ 0 → ∃ t, step s = .next t ∧ FaultTaken s t .illegalCommand w) ∧
    (w = 0 → ∃ t u v, step s = .next t ∧ t.status = 0b010 ∧ t.pc = s.pc ∧ t.operands = s.operands ∧
      t.commands = s.commands ∧ move (.writeReg 0 1) t = .next u ∧ u.status = 0b001 ∧ step u = .next v ∧
      v.status = 0b010 ∧ v.pc = s.pc ∧ v.operands = s.operands ∧ v.commands = s.commands))

/-- A command with a span past address 4095 takes OPERAND_RANGE. Rests on 30_encoding.md section 3, 60_exceptions.md
section 1, 60_exceptions.md section 2. That ERRCMD is the encoding of the command is DEDUCED, log entry 7. -/
def Obligations.OperandRangeFaultsWithoutWriting : Prop :=
  ∀ (i : Instr) (s : State),
    ((∃ f n, i.width f = some n ∧ (i.field f).toNat + n > 4096) →
      ∃ t, exec i s = .next t ∧ FaultTaken s t .operandRange (encode i) ∧ t.status = 0x24) ∧
    ((∀ f n, i.width f = some n → (i.field f).toNat + n ≤ 4096) →
      ∃ t, exec i s = .next t ∧ t.errcmd = s.errcmd ∧ (t.status = s.status ∨ i = .halt))

/-- Each step takes at most one fault, the first of COMMAND_RANGE, ILLEGAL_COMMAND, OPERAND_RANGE, and stays FAULTED
until START or reset. States R161, R162. -/
def Obligations.FaultsAreTakenInPriorityOrder : Prop :=
  (∀ s : State, s.runState = some .running →
    (s.pc.toNat ≥ 4096 → ∃ t, step s = .next t ∧ FaultTaken s t .commandRange 0 ∧ t.status = 0x34 ∧
      t.runState = some .faulted) ∧
    (s.pc.toNat < 4096 → ∀ r, decode (s.commandWord s.pc.toNat) = .error r →
      ∃ t, step s = .next t ∧ FaultTaken s t .illegalCommand (s.commandWord s.pc.toNat) ∧ t.status = 0x14 ∧
        t.runState = some .faulted) ∧
    (s.pc.toNat < 4096 → ∀ i, decode (s.commandWord s.pc.toNat) = .ok i → i.wellFormed = false →
      ∃ t, step s = .next t ∧ FaultTaken s t .operandRange (s.commandWord s.pc.toNat) ∧ t.status = 0x24 ∧
        t.runState = some .faulted) ∧
    (s.pc.toNat < 4096 → ∀ i, decode (s.commandWord s.pc.toNat) = .ok i → i.wellFormed = true →
      ∃ t, step s = .next t ∧ t.runState ≠ some .faulted) ∧
    (∀ v, move (.writeReg 0 v) s = .next s) ∧ ∃ t, move .reset s = .next t ∧ t.status = 0) ∧
  (∀ t u : State, t.runState = some .faulted → step t ≠ .next u) ∧
  (∀ (t u : State) (m : Move), t.runState = some .faulted → move m t = .next u → u.status ≠ t.status ∨ u.errcmd ≠ t.errcmd →
    (∃ v, m = .writeReg 0 v ∧ v.getLsbD 0 = true) ∨ m = .reset ∨ ∃ keepNew, m = .resetDuring keepNew)

/-- Resuming after a fault with nothing changed faults again in the same way. Rests on 60_exceptions.md section 2,
10_state.md section 2. -/
def Obligations.StartAfterAFaultFaultsAgain : Prop :=
  ∀ s t : State, step s = .next t → t.fault = true →
    ∃ u, move (.writeReg 0 1) t = .next u ∧ u.status = 0b001 ∧ u.errcmd = 0 ∧ u.pc = t.pc ∧
      u.operands = t.operands ∧ u.commands = t.commands ∧ step u = .next t

/-- A step moves PC by exactly 1 and keeps STATUS, or keeps PC and ends the run. Rests on 10_state.md section 1,
44_sequencer.md section 2. -/
def Obligations.PcMovesByOneOrTheRunEnds : Prop :=
  ∀ s t : State, step s = .next t →
    (t.pc.toNat = s.pc.toNat + 1 ∧ s.pc.toNat < 4096 ∧ t.status = s.status) ∨
    (t.pc = s.pc ∧ (t.status = statusDone ∨ ∃ c, t.status = statusFaulted c))

/-- Every run ends, by HALT or by a fault, within 4097 steps, and the host cannot abort it. States R153. -/
def Obligations.EveryRunEndsWithin4097Steps : Prop :=
  (∀ s : State, s.runState = some .running →
    ∃ k t, k ≤ 4097 ∧ steps k s = .next t ∧ (t.status = statusDone ∨ ∃ c, t.status = statusFaulted c)) ∧
  (∀ s t : State, step s = .next t →
    (t.pc.toNat = s.pc.toNat + 1 ∧ t.runState = some .running) ∨
    (t.status = statusDone ∧ s.pc.toNat < 4096 ∧ decode (s.commandWord s.pc.toNat) = .ok .halt) ∨
    ∃ c w, FaultTaken s t c w) ∧
  (∀ s t : State, step s = .next t → s.pc.toNat = 4096 → t.status = statusFaulted .commandRange) ∧
  (∀ (s : State) (n : Nat) (v : Word), s.busy = true → move (.writeReg n v) s = .next s)

/-- No run of the engine changes the command store. Rests on 20_memory.md section 1, 20_memory.md section 5. -/
def Obligations.CommandStoreNeverWrittenByARun : Prop :=
  ∀ (k : Nat) (s t : State), steps k s = .next t → t.commands = s.commands

/-- The sequence of commands, STATUS, PC and ERRCMD never depend on operand values. Rests on 44_sequencer.md section
2, 70_reset_and_hazards.md section 5. -/
def Obligations.ControlDoesNotDependOnData : Prop :=
  ∀ (k : Nat) (s s' t : State), SameControl s s' → steps k s = .next t →
    ∃ t', steps k s' = .next t' ∧ SameControl t t'

/-- A run executes the commands from PC on, one after the other. Rests on 44_sequencer.md section 2, 20_memory.md
section 5. -/
def Obligations.StraightLineRunExecutesInOrder : Prop :=
  ∀ (l : List Instr) (s : State), s.runState = some .running → programAt s l →
    (∀ i ∈ l, i ≠ .halt ∧ i.wellFormed = true) →
    steps l.length s = execAll l s ∧ ∃ t, execAll l s = .next t ∧ t.pc.toNat = s.pc.toNat + l.length ∧ t.status = s.status

/-- A program of commands without a contract, ended by HALT, runs to DONE and draws nothing. Rests on
70_reset_and_hazards.md section 3, 44_sequencer.md section 2, 00_scope.md section 5. The counter draws is the model's,
log entry 3, and the parameter OFFSET_2 has the form of log entry 4. -/
def Obligations.ContractFreeProgramsRunSafely : Prop :=
  ∀ (l : List Instr) (s : State), s.runState = some .running → programAt s (l ++ [.halt]) →
    (∀ i ∈ l, i.wellFormed = true ∧ i ≠ .halt ∧ ∀ u : State, u.offset2 = s.offset2 → contract i u = true) → SafeRun s

/-- No command changes an operand-store byte outside its destination words. Rests on 20_memory.md section 3,
30_encoding.md section 2. -/
def Obligations.CommandsWriteOnlyTheirDestination : Prop :=
  ∀ (i : Instr) (s t : State), exec i s = .next t →
    (∀ x, isDest i (x / 8) = false → t.operandByte x = s.operandByte x) ∧
    (∀ x, t.commandByte x = s.commandByte x) ∧
    (i = .halt ∨ i.wellFormed = false → t.operands = s.operands ∧ t.draws = s.draws)

/-- A command's result does not depend on where its destination lies. Rests on 20_memory.md section 3, 00_scope.md
section 5. That two draws of a broken contract are equal is the model's, log entry 3: the spec puts draw(n) under no
law. -/
def Obligations.OverlapDoesNotChangeTheResult : Prop :=
  ∀ (o : Opcode) (d d' a b c : Addr) (n : Nat) (s : State), o.width .D = some n →
    (o.instr d a b c).wellFormed = true → (o.instr d' a b c).wellFormed = true →
    ∃ t t', exec (o.instr d a b c) s = .next t ∧ exec (o.instr d' a b c) s = .next t' ∧
      t.memRead d n = t'.memRead d' n

/-- Inside its contract, a command's result is a function of the source words it reads. Rests on 10_state.md section
1, 93_implementation_defined.md section 3. The parameter OFFSET_2 in the form of log entry 4. -/
def Obligations.ResultDependsOnTheSourceWordsAlone : Prop :=
  ∀ (i : Instr) (s s' : State) (n : Nat), i.wellFormed = true → i.width .D = some n →
    (∀ f m, f ≠ .D → i.width f = some m → s.memRead (i.field f) m = s'.memRead (i.field f) m) →
    (i.opcode = .xMinus2y → s.offset2 = s'.offset2) → contract i s = true →
    ∃ t t', exec i s = .next t ∧ exec i s' = .next t' ∧ t.memRead (i.field .D) n = t'.memRead (i.field .D) n

/-- A command draws free values exactly when its contract is broken, and then for all its destination words. Rests on
70_reset_and_hazards.md section 3, 00_scope.md section 5, 93_implementation_defined.md section 1. The counter draws
that tells one free word from the next is the model's, log entry 3, and the parameter OFFSET_2 has the form of log
entry 4. -/
def Obligations.FreeValuesExactlyWhereAContractIsBroken : Prop :=
  ∀ (i : Instr) (s : State) (n : Nat), i.wellFormed = true → i.width .D = some n →
    ∃ t, exec i s = .next t ∧
      (contract i s = true → CompletedAt s t (i.field .D) n ∧ t.draws = s.draws) ∧
      (contract i s = false → Drew s t (i.field .D) n)

/-- ADD64, ADD128 and ADD256 write the exact sum with its carry word. Rests on 40_carry_chain.md section 1,
40_carry_chain.md section 2. -/
def Obligations.AddCommandsWriteSumAndCarry : Prop :=
  ∀ (d a b c : Addr) (s : State), s.memRead c 1 ≤ 1 →
    ((Instr.add64 d a b c).wellFormed = true → ∃ t, exec (.add64 d a b c) s = .next t ∧
      Wrote s t d 2 (s.memRead a 1 + s.memRead b 1 + s.memRead c 1) ∧
      (t.operandWord (d.toNat + 1)).toNat = carryOut 1 (s.memRead a 1 + s.memRead b 1 + s.memRead c 1) ∧
      (t.operandWord (d.toNat + 1)).toNat ≤ 1) ∧
    ((Instr.add128 d a b c).wellFormed = true → ∃ t, exec (.add128 d a b c) s = .next t ∧
      Wrote s t d 3 (s.memRead a 2 + s.memRead b 2 + s.memRead c 1) ∧
      (t.operandWord (d.toNat + 2)).toNat = carryOut 2 (s.memRead a 2 + s.memRead b 2 + s.memRead c 1) ∧
      (t.operandWord (d.toNat + 2)).toNat ≤ 1) ∧
    ((Instr.add256 d a b c).wellFormed = true → ∃ t, exec (.add256 d a b c) s = .next t ∧
      Wrote s t d 5 (s.memRead a 4 + s.memRead b 4 + s.memRead c 1) ∧
      (t.operandWord (d.toNat + 4)).toNat = carryOut 4 (s.memRead a 4 + s.memRead b 4 + s.memRead c 1) ∧
      (t.operandWord (d.toNat + 4)).toNat ≤ 1)

/-- SUB64, SUB128 and SUB256 write the wrapped difference and the borrow. Rests on 40_carry_chain.md section 1,
40_carry_chain.md section 2. -/
def Obligations.SubCommandsWriteDifferenceAndBorrow : Prop :=
  ∀ (d a b c : Addr) (s : State), s.memRead c 1 ≤ 1 →
    ((Instr.sub64 d a b c).wellFormed = true → ∃ t, exec (.sub64 d a b c) s = .next t ∧
      ∃ diff borrow, Wrote s t d 2 (diff + borrow * 2 ^ 64) ∧ diff < 2 ^ 64 ∧
        (s.memRead a 1 < s.memRead b 1 + s.memRead c 1 → borrow = 1) ∧
        (s.memRead b 1 + s.memRead c 1 ≤ s.memRead a 1 → borrow = 0) ∧
        s.memRead a 1 + borrow * 2 ^ 64 = s.memRead b 1 + s.memRead c 1 + diff) ∧
    ((Instr.sub128 d a b c).wellFormed = true → ∃ t, exec (.sub128 d a b c) s = .next t ∧
      ∃ diff borrow, Wrote s t d 3 (diff + borrow * 2 ^ 128) ∧ diff < 2 ^ 128 ∧
        (s.memRead a 2 < s.memRead b 2 + s.memRead c 1 → borrow = 1) ∧
        (s.memRead b 2 + s.memRead c 1 ≤ s.memRead a 2 → borrow = 0) ∧
        s.memRead a 2 + borrow * 2 ^ 128 = s.memRead b 2 + s.memRead c 1 + diff) ∧
    ((Instr.sub256 d a b c).wellFormed = true → ∃ t, exec (.sub256 d a b c) s = .next t ∧
      ∃ diff borrow, Wrote s t d 5 (diff + borrow * 2 ^ 256) ∧ diff < 2 ^ 256 ∧
        (s.memRead a 4 < s.memRead b 4 + s.memRead c 1 → borrow = 1) ∧
        (s.memRead b 4 + s.memRead c 1 ≤ s.memRead a 4 → borrow = 0) ∧
        s.memRead a 4 + borrow * 2 ^ 256 = s.memRead b 4 + s.memRead c 1 + diff)

/-- MUL64 writes the exact 128-bit product. Rests on 40_carry_chain.md section 2. -/
def Obligations.Mul64WritesTheFullProduct : Prop :=
  ∀ (d a b : Addr) (s : State), (Instr.mul64 d a b).wellFormed = true →
    ∃ t, exec (.mul64 d a b) s = .next t ∧ Wrote s t d 2 (s.memRead a 1 * s.memRead b 1) ∧
      (t.operandWord d.toNat).toNat = s.memRead a 1 * s.memRead b 1 % 2 ^ 64 ∧
      (t.operandWord (d.toNat + 1)).toNat = s.memRead a 1 * s.memRead b 1 / 2 ^ 64 ∧
      (t.operandWord (d.toNat + 1)).toNat ≤ 2 ^ 64 - 2

/-- A carry or borrow word of 2 or more draws; every carry or borrow word written inside the contract is 0 or 1. Rests
on 40_carry_chain.md section 3, 00_scope.md section 5. draw(n) in the form of log entry 3. -/
def Obligations.CarryWordsAboveOneDraw : Prop :=
  ∀ (d a b c : Addr) (s : State) (i : Instr) (n : Nat),
    (i, n) ∈ [(Instr.add64 d a b c, 2), (.sub64 d a b c, 2), (.add128 d a b c, 3), (.sub128 d a b c, 3),
      (.add256 d a b c, 5), (.sub256 d a b c, 5)] → i.wellFormed = true →
    ∃ t, exec i s = .next t ∧ (s.memRead c 1 ≥ 2 → Drew s t d n) ∧
      (s.memRead c 1 ≤ 1 → (t.operandWord (d.toNat + (n - 1))).toNat ≤ 1)

/-- SUB64, SUB128 and SUB256 are the addition of the complement with the carry complemented. States R89. -/
def Obligations.SubtractionIsComplementAddition : Prop :=
  ∀ (d a b c : Addr) (s : State), s.memRead c 1 ≤ 1 →
    ((Instr.sub64 d a b c).wellFormed = true → ∃ t, exec (.sub64 d a b c) s = .next t ∧
      ∃ z, z = s.memRead a 1 + (2 ^ 64 - 1 - s.memRead b 1) + (1 - s.memRead c 1) ∧
        Wrote s t d 2 (z % 2 ^ 64 + (1 - z / 2 ^ 64) * 2 ^ 64)) ∧
    ((Instr.sub128 d a b c).wellFormed = true → ∃ t, exec (.sub128 d a b c) s = .next t ∧
      ∃ z, z = s.memRead a 2 + (2 ^ 128 - 1 - s.memRead b 2) + (1 - s.memRead c 1) ∧
        Wrote s t d 3 (z % 2 ^ 128 + (1 - z / 2 ^ 128) * 2 ^ 128)) ∧
    ((Instr.sub256 d a b c).wellFormed = true → ∃ t, exec (.sub256 d a b c) s = .next t ∧
      ∃ z, z = s.memRead a 4 + (2 ^ 256 - 1 - s.memRead b 4) + (1 - s.memRead c 1) ∧
        Wrote s t d 5 (z % 2 ^ 256 + (1 - z / 2 ^ 256) * 2 ^ 256))

/-- ADD128, ADD256, SUB128 and SUB256 write the words that chains of ADD64 and SUB64 commands write. States R90. -/
def Obligations.WideCommandsAreChainsOfOneWordCommands : Prop :=
  ∀ (d e a b c : Addr) (s : State), s.memRead c 1 ≤ 1 →
    (d.toNat + 3 ≤ 4096 → e.toNat + 3 ≤ 4096 → a.toNat + 2 ≤ 4096 → b.toNat + 2 ≤ 4096 →
      disjointSpans e.toNat 3 a.toNat 2 = true → disjointSpans e.toNat 3 b.toNat 2 = true →
      (∃ t u, exec (.add128 d a b c) s = .next t ∧
        execAll [.add64 e a b c, .add64 (e + 1) (a + 1) (b + 1) (e + 1)] s = .next u ∧
        t.memRead d 3 = u.memRead e 3 ∧ t.draws = s.draws ∧ u.draws = s.draws) ∧
      (∃ t u, exec (.sub128 d a b c) s = .next t ∧
        execAll [.sub64 e a b c, .sub64 (e + 1) (a + 1) (b + 1) (e + 1)] s = .next u ∧
        t.memRead d 3 = u.memRead e 3 ∧ t.draws = s.draws ∧ u.draws = s.draws)) ∧
    (d.toNat + 5 ≤ 4096 → e.toNat + 5 ≤ 4096 → a.toNat + 4 ≤ 4096 → b.toNat + 4 ≤ 4096 →
      disjointSpans e.toNat 5 a.toNat 4 = true → disjointSpans e.toNat 5 b.toNat 4 = true →
      (∃ t u, exec (.add256 d a b c) s = .next t ∧
        execAll [.add64 e a b c, .add64 (e + 1) (a + 1) (b + 1) (e + 1), .add64 (e + 2) (a + 2) (b + 2) (e + 2),
          .add64 (e + 3) (a + 3) (b + 3) (e + 3)] s = .next u ∧
        t.memRead d 5 = u.memRead e 5 ∧ t.draws = s.draws ∧ u.draws = s.draws) ∧
      (∃ t u, exec (.sub256 d a b c) s = .next t ∧
        execAll [.sub64 e a b c, .sub64 (e + 1) (a + 1) (b + 1) (e + 1), .sub64 (e + 2) (a + 2) (b + 2) (e + 2),
          .sub64 (e + 3) (a + 3) (b + 3) (e + 3)] s = .next u ∧
        t.memRead d 5 = u.memRead e 5 ∧ t.draws = s.draws ∧ u.draws = s.draws))

/-- OVERFLOW_REDUCE subtracts 0, 16p or 32p exactly. States R106. -/
def Obligations.OverflowReduceSubtractsAMultipleOfP : Prop :=
  (∀ (d a : Addr) (s : State), (Instr.overflowReduce d a).wellFormed = true → s.memRead a 5 / 2 ^ 256 ≤ 1 →
    ∃ t m v, exec (.overflowReduce d a) s = .next t ∧ Wrote s t d 4 v ∧
      (s.memRead a 5 / 2 ^ 256 = 0 → m = 0) ∧
      (s.memRead a 5 / 2 ^ 256 = 1 → s.memRead a 5 / 2 ^ 255 % 2 = 1 → m = 32 * P) ∧
      (s.memRead a 5 / 2 ^ 256 = 1 → s.memRead a 5 / 2 ^ 255 % 2 = 0 → m = 16 * P) ∧
      m ≤ s.memRead a 5 ∧ v = s.memRead a 5 - m ∧ v < 2 ^ 256 ∧ v % P = s.memRead a 5 % P) ∧
  (∃ x v, overflowReduce x = some v ∧ 2 * P ≤ v)

/-- FEWBITS_REDUCE gives the procedure's result, congruent to r exactly when r4*K32 <= (r mod 2^256) + p. States R107.
-/
def Obligations.FewbitsReduceIsCongruentExactlyInItsMargin : Prop :=
  ∀ (d a : Addr) (s : State) (r4 rl : Nat), (Instr.fewbitsReduce d a).wellFormed = true →
    r4 = s.memRead a 5 / 2 ^ 256 → rl = s.memRead a 5 % 2 ^ 256 → r4 < 2 ^ 53 →
    ∃ t v, exec (.fewbitsReduce d a) s = .next t ∧ Wrote s t d 4 v ∧ v < 2 ^ 256 ∧
      (r4 * K32 ≤ rl → v = rl - r4 * K32) ∧
      (rl < r4 * K32 → r4 * K32 ≤ rl + P → v = rl + P - r4 * K32 ∧ v < P) ∧
      (rl + P < r4 * K32 → v = rl + P + 2 ^ 256 - r4 * K32) ∧
      (v % P = s.memRead a 5 % P ↔ r4 * K32 ≤ rl + P) ∧
      (r4 ≤ P / K32 → v % P = s.memRead a 5 % P) ∧ P / K32 = 1059670500557763 ∧
      (r4 = 0 → v = rl)

/-- FINAL_REDUCE writes x mod p, for every x. States R108. -/
def Obligations.FinalReduceWritesTheCanonicalResidue : Prop :=
  ∀ (d a : Addr) (s : State), (Instr.finalReduce d a).wellFormed = true →
    ∃ t, exec (.finalReduce d a) s = .next t ∧ Wrote s t d 4 (s.memRead a 4 % P) ∧ s.memRead a 4 % P < P

/-- FADD writes x + y less 0, 16p or 32p, congruent to x + y. Rests on 42_field_ops.md section 1, 42_field_ops.md
section 2, 42_field_ops.md section 3. -/
def Obligations.FaddWritesTheOverflowReducedSum : Prop :=
  ∀ (d a b : Addr) (s : State) (x y : Nat), (Instr.fadd d a b).wellFormed = true →
    x = s.memRead a 4 → y = s.memRead b 4 →
    ∃ t v, exec (.fadd d a b) s = .next t ∧ Wrote s t d 4 v ∧
      (x + y < 2 ^ 256 → v = x + y) ∧
      (2 ^ 256 ≤ x + y → x + y < 2 ^ 256 + 2 ^ 255 → v + 16 * P = x + y) ∧
      (2 ^ 256 + 2 ^ 255 ≤ x + y → v + 32 * P = x + y) ∧
      v % P = (x + y) % P

/-- FSUB writes the few-bits reduction of x + 32p - y, congruent to x - y. Rests on 42_field_ops.md section 1,
42_field_ops.md section 2, 42_field_ops.md section 3. -/
def Obligations.FsubWritesACongruentDifference : Prop :=
  ∀ (d a b : Addr) (s : State) (x y r : Nat), (Instr.fsub d a b).wellFormed = true →
    x = s.memRead a 4 → y = s.memRead b 4 → r + y = x + 32 * P →
    ∃ t v, exec (.fsub d a b) s = .next t ∧ Wrote s t d 4 v ∧ r / 2 ^ 256 ≤ 2 ∧
      (r / 2 ^ 256 * K32 ≤ r % 2 ^ 256 → v + r / 2 ^ 256 * K32 = r % 2 ^ 256) ∧
      (r % 2 ^ 256 < r / 2 ^ 256 * K32 → v + r / 2 ^ 256 * K32 = r % 2 ^ 256 + P) ∧
      (v + y) % P = x % P ∧ (x = y → v = 0)

/-- X_PLUS_2Y, X_PLUS_3Y and X_PLUS_4Y write the few-bits reduction of x + c*y. Rests on 42_field_ops.md section 1,
42_field_ops.md section 2, 42_field_ops.md section 3. -/
def Obligations.PlusCommandsWriteACongruentSum : Prop :=
  ∀ (d a b : Addr) (s : State) (i : Instr) (c r : Nat),
    (i, c) ∈ [(Instr.xPlus2y d a b, 2), (.xPlus3y d a b, 3), (.xPlus4y d a b, 4)] → i.wellFormed = true →
    r = s.memRead a 4 + c * s.memRead b 4 →
    ∃ t v, exec i s = .next t ∧ Wrote s t d 4 v ∧ r / 2 ^ 256 ≤ c ∧
      (r < 2 ^ 256 → v = r) ∧
      (r / 2 ^ 256 * K32 ≤ r % 2 ^ 256 → v + r / 2 ^ 256 * K32 = r % 2 ^ 256) ∧
      (r % 2 ^ 256 < r / 2 ^ 256 * K32 → v + r / 2 ^ 256 * K32 = r % 2 ^ 256 + P) ∧
      v % P = r % P

/-- X_MINUS_3Y and X_MINUS_4Y write the few-bits reduction of x + 96p - 3y and x + 128p - 4y. Rests on 42_field_ops.md
section 1, 42_field_ops.md section 2, 42_field_ops.md section 3. -/
def Obligations.MinusThreeAndFourWriteACongruentDifference : Prop :=
  ∀ (d a b : Addr) (s : State) (i : Instr) (c k : Nat),
    (i, c, k) ∈ [(Instr.xMinus3y d a b, 3, 96), (.xMinus4y d a b, 4, 128)] → i.wellFormed = true →
    ∃ t v r, exec i s = .next t ∧ Wrote s t d 4 v ∧ 0 < r ∧ r + c * s.memRead b 4 = s.memRead a 4 + k * P ∧
      r / 2 ^ 256 ≤ c + 1 ∧
      (r / 2 ^ 256 * K32 ≤ r % 2 ^ 256 → v + r / 2 ^ 256 * K32 = r % 2 ^ 256) ∧
      (r % 2 ^ 256 < r / 2 ^ 256 * K32 → v + r / 2 ^ 256 * K32 = r % 2 ^ 256 + P) ∧
      (v + c * s.memRead b 4) % P = s.memRead a 4 % P

/-- X_MINUS_2Y with OFFSET_2 = 32p is exact while 2y <= x + 32p and draws above; with 64p it is exact always. Rests on
42_field_ops.md section 3, 42_field_ops.md section 1, 93_implementation_defined.md section 3, 00_scope.md section 5.
draw(n) in the form of log entry 3; the parameter OFFSET_2 in the form of log entry 4. -/
def Obligations.MinusTwoKeepsOrBreaksItsContract : Prop :=
  (∃ x y, 16 * P ≤ y ∧ y < 2 ^ 256 ∧ x + 32 * P < 2 * y) ∧
  ∀ (d a b : Addr) (s : State) (x y : Nat), (Instr.xMinus2y d a b).wellFormed = true →
    x = s.memRead a 4 → y = s.memRead b 4 →
    (s.offset2 = .p32 → 2 * y ≤ x + 32 * P → ∃ t v r, exec (.xMinus2y d a b) s = .next t ∧ Wrote s t d 4 v ∧
      r + 2 * y = x + 32 * P ∧ r / 2 ^ 256 ≤ 2 ∧ fewbitsReduce r = some v ∧ (v + 2 * y) % P = x % P) ∧
    (s.offset2 = .p32 → x + 32 * P < 2 * y → ∃ t, exec (.xMinus2y d a b) s = .next t ∧ Drew s t d 4) ∧
    (y < 2 * P → 2 * y ≤ x + 32 * P) ∧
    (s.offset2 = .p64 → contract (.xMinus2y d a b) s = true ∧ ∃ t v r, exec (.xMinus2y d a b) s = .next t ∧
      Wrote s t d 4 v ∧ r + 2 * y = x + 64 * P ∧ r / 2 ^ 256 ≤ 3 ∧ fewbitsReduce r = some v ∧
      (v + 2 * y) % P = x % P)

/-- ZERO4 writes the element 0 and COPY4 copies an element, for every value. States R73, R74. -/
def Obligations.Zero4AndCopy4DoWhatTheySay : Prop :=
  ∀ (d a z : Addr) (s : State), d.toNat + 4 ≤ 4096 → a.toNat + 4 ≤ 4096 →
    (∃ l t, (Pseudo.zero4 d.toNat a.toNat).expand = some l ∧ execAll l s = .next t ∧ Wrote s t d 4 0) ∧
    (z.toNat + 4 ≤ 4096 → s.memRead z 4 = 0 →
      ∃ l t, (Pseudo.copy4 d.toNat a.toNat z.toNat).expand = some l ∧ execAll l s = .next t ∧
        Wrote s t d 4 (s.memRead a 4))

/-- SUM3, SUM4, SUM5 and SUM9 give the strictly left-to-right sums. Rests on 30_encoding.md section 5, 90_conflicts.md
C7. -/
def Obligations.SumPseudoInstructionsAddLeftToRight : Prop :=
  ∀ (d e a : Nat) (s : State) (el : Nat → Nat), (∀ k, el k = s.readSpan (a + 4 * k) 4) →
    d + 4 ≤ 4096 → e + 4 ≤ 4096 →
    (a + 12 ≤ 4096 → (Pseudo.sum3 d a).constraint = true →
      ∃ l t, (Pseudo.sum3 d a).expand = some l ∧ execAll l s = .next t ∧
        foldFadd (el 0) [el 1, el 2] = some (t.readSpan d 4) ∧
        ∀ x, x < d ∨ d + 4 ≤ x → t.operandWord x = s.operandWord x) ∧
    (a + 16 ≤ 4096 → (Pseudo.sum4 d e a).constraint = true →
      ∃ l t, (Pseudo.sum4 d e a).expand = some l ∧ execAll l s = .next t ∧
        foldFadd (el 0) [el 1, el 2] = some (t.readSpan e 4) ∧
        foldFadd (el 0) [el 1, el 2, el 3] = some (t.readSpan d 4) ∧
        ∀ x, (x < d ∨ d + 4 ≤ x) → (x < e ∨ e + 4 ≤ x) → t.operandWord x = s.operandWord x) ∧
    (a + 20 ≤ 4096 → (Pseudo.sum5 d a).constraint = true →
      ∃ l t, (Pseudo.sum5 d a).expand = some l ∧ execAll l s = .next t ∧
        foldFadd (el 0) [el 1, el 2, el 3, el 4] = some (t.readSpan d 4) ∧
        ∀ x, x < d ∨ d + 4 ≤ x → t.operandWord x = s.operandWord x) ∧
    (a + 36 ≤ 4096 → (Pseudo.sum9 d e a).constraint = true →
      ∃ l t, (Pseudo.sum9 d e a).expand = some l ∧ execAll l s = .next t ∧
        foldFadd (el 0) [el 1, el 2, el 3, el 4, el 5, el 6, el 7] = some (t.readSpan e 4) ∧
        foldFadd (el 0) [el 1, el 2, el 3, el 4, el 5, el 6, el 7, el 8] = some (t.readSpan d 4) ∧
        ∀ x, (x < d ∨ d + 4 ≤ x) → (x < e ∨ e + 4 ≤ x) → t.operandWord x = s.operandWord x)

/-- MONT_ROUND writes acc + xi*y + u*p with a zero lowest word, and draws when that needs a seventh word. Rests on
43_montgomery.md section 1, 43_montgomery.md section 2. draw(n) in the form of log entry 3. -/
def Obligations.MontRoundCancelsTheLowestWord : Prop :=
  ∀ (d a b c : Addr) (s : State) (a1 u : Nat), (Instr.montRound d a b c).wellFormed = true →
    a1 = s.memRead a 6 + s.memRead c 1 * s.memRead b 4 → u = (2 ^ 64 - a1 % 2 ^ 64) % 2 ^ 64 →
    (a1 + u * P < windowLimit → ∃ t, exec (.montRound d a b c) s = .next t ∧ Wrote s t d 6 (a1 + u * P) ∧
      t.operandWord d.toNat = 0 ∧ (a1 + u * P) % P = a1 % P) ∧
    (windowLimit ≤ a1 + u * P → ∃ t, exec (.montRound d a b c) s = .next t ∧ Drew s t d 6) ∧
    (s.memRead a 6 + 2 ^ 321 < windowLimit → a1 + u * P < windowLimit) ∧ windowLimit = 2 ^ 384

/-- MONT_MULT is overflow_reduce of the exact quotient (x*y + U*p) / 2^256, a Montgomery product for every x and y.
States R138. -/
def Obligations.MontMultIsTheMontgomeryProduct : Prop :=
  (P * (P - 2) + 1) % 2 ^ 256 = 0 ∧
  P - 2 = valWords [0xffffffffffffffff, 0xffffffffffffffff, 0xffffffffffffffff, 0x0800000000000010] ∧
  ∀ (d a b : Addr) (s : State) (x y U : Nat), (Instr.montMult d a b).wellFormed = true →
    x = s.memRead a 4 → y = s.memRead b 4 → U = x * y * (P - 2) % 2 ^ 256 →
    ∃ t v T, exec (.montMult d a b) s = .next t ∧ Wrote s t d 4 v ∧ 2 ^ 256 * T = x * y + U * P ∧
      (multBuffer x y).map (fun buf => bufRead buf 4 5) = some T ∧
      T < 2 ^ 256 + P ∧ overflowReduce T = some v ∧ v * 2 ^ 256 % P = x * y % P

/-- The congruences and ranges of the Montgomery commands. Rests on 43_montgomery.md section 3. -/
def Obligations.MontgomeryResultsAreCongruentAndBounded : Prop :=
  ∀ (d a b : Addr) (s : State),
    ((Instr.montMult d a b).wellFormed = true → ∃ t v, exec (.montMult d a b) s = .next t ∧ Wrote s t d 4 v ∧
      v * 2 ^ 256 % P = s.memRead a 4 * s.memRead b 4 % P ∧ v < 2 ^ 256 ∧
      (s.memRead a 4 < 2 * P → s.memRead b 4 < 2 * P → v < 2 * P)) ∧
    ((Instr.toMont d a).wellFormed = true → ∃ t v, exec (.toMont d a) s = .next t ∧ Wrote s t d 4 v ∧
      v % P = s.memRead a 4 * 2 ^ 256 % P ∧ v < 2 * P) ∧
    ((Instr.fromMont d a).wellFormed = true → ∃ t v, exec (.fromMont d a) s = .next t ∧ Wrote s t d 4 v ∧
      v * 2 ^ 256 % P = s.memRead a 4 % P ∧ v < P) ∧
    ((Instr.montCube d a).wellFormed = true → ∃ t v, exec (.montCube d a) s = .next t ∧ Wrote s t d 4 v ∧
      v * 2 ^ 512 % P = s.memRead a 4 ^ 3 % P ∧ v < 2 ^ 256 ∧ (s.memRead a 4 < 2 * P → v < 2 * P))

/-- FROM_MONT undoes TO_MONT, takes products to products, and MONT_CUBE is two multiplications bit for bit. States
R141. -/
def Obligations.MontgomeryRoundTripAndHomomorphism : Prop :=
  (∀ (d e a : Addr) (s : State), (Instr.toMont d a).wellFormed = true → (Instr.fromMont e d).wellFormed = true →
    ∃ t, execAll [.toMont d a, .fromMont e d] s = .next t ∧ t.memRead e 4 = s.memRead a 4 % P) ∧
  (∀ (d e f g a b : Addr) (s : State), (Instr.montMult d a b).wellFormed = true → (Instr.fromMont e d).wellFormed = true →
    (Instr.fromMont f a).wellFormed = true → (Instr.fromMont g b).wellFormed = true →
    ∃ t u v, execAll [.montMult d a b, .fromMont e d] s = .next t ∧ exec (.fromMont f a) s = .next u ∧
      exec (.fromMont g b) s = .next v ∧ t.memRead e 4 = u.memRead f 4 * v.memRead g 4 % P) ∧
  (∀ (d e f a : Addr) (s : State), (Instr.montCube d a).wellFormed = true → (Instr.montMult e a a).wellFormed = true →
    (Instr.montMult f e a).wellFormed = true → disjointSpans e.toNat 4 a.toNat 4 = true →
    ∃ t u, exec (.montCube d a) s = .next t ∧ execAll [.montMult e a a, .montMult f e a] s = .next u ∧
      t.memRead d 4 = u.memRead f 4) ∧
  (montgomeryMult (2 ^ 256 % P) (2 ^ 256 % P) = some (2 ^ 256 % P) ∧
    (montgomeryMult (2 ^ 256 % P) constOne).map finalReduce = some 1)

/-- Four MONT_ROUND commands and an OVERFLOW_REDUCE reproduce MONT_MULT. Rests on 43_montgomery.md section 2,
95_test_vectors.md P6. -/
def Obligations.ExplicitRoundsReproduceMontMult : Prop :=
  ∀ (a b c d e : Addr) (s : State), a.toNat + 4 ≤ 4096 → b.toNat + 9 ≤ 4096 → c.toNat + 4 ≤ 4096 →
    d.toNat + 4 ≤ 4096 → e.toNat + 4 ≤ 4096 →
    disjointSpans b.toNat 9 a.toNat 4 = true → disjointSpans b.toNat 9 c.toNat 4 = true → s.memRead b 9 = 0 →
    ∃ t u, execAll [.montRound b b c a, .montRound (b + 1) (b + 1) c (a + 1), .montRound (b + 2) (b + 2) c (a + 2),
        .montRound (b + 3) (b + 3) c (a + 3), .overflowReduce d (b + 4)] s = .next t ∧
      exec (.montMult e a c) s = .next u ∧ t.memRead d 4 = u.memRead e 4 ∧ t.draws = s.draws

/-- The register block: what each number reads, and which writes are ignored. Rests on 10_state.md section 2,
70_reset_and_hazards.md section 4. -/
def Obligations.RegisterBlockReadsAndIgnoredWrites : Prop :=
  ∀ s : State, hostReadReg 0 s = 0 ∧ hostReadReg 1 s = s.status ∧ (hostReadReg 2 s).toNat = s.pc.toNat ∧
    hostReadReg 3 s = s.errcmd ∧ (∀ n, n > 3 → hostReadReg n s = 0) ∧ (∀ n, move (.readReg n) s = .next s) ∧
    (∀ n v, n = 1 ∨ n ≥ 3 → move (.writeReg n v) s = .next s)

/-- START begins a run at PC and a PC write takes bits 12:0, each ignored while BUSY = 1. Rests on 10_state.md section
2, 70_reset_and_hazards.md section 4. -/
def Obligations.StartAndPcWritesTakeEffectOnlyWhenIdle : Prop :=
  ∀ (s : State) (v : Word),
    (s.busy = false → v.getLsbD 0 = true → ∃ t, move (.writeReg 0 v) s = .next t ∧ t.status = 0b001 ∧ t.errcmd = 0 ∧
      t.pc = s.pc ∧ t.operands = s.operands ∧ t.commands = s.commands ∧ t.draws = s.draws ∧
      t.runState = some .running) ∧
    (s.busy = true ∨ v.getLsbD 0 = false → move (.writeReg 0 v) s = .next s) ∧
    (s.busy = false → ∃ t, move (.writeReg 2 v) s = .next t ∧ t.pc.toNat = v.toNat % 8192 ∧ t.status = s.status ∧
      t.errcmd = s.errcmd ∧ t.operands = s.operands ∧ t.commands = s.commands ∧ t.draws = s.draws) ∧
    (s.busy = true → move (.writeReg 2 v) s = .next s)

/-- The host reads and writes the stores as plain words while BUSY = 0, and has no store move while BUSY = 1. Rests on
20_memory.md section 1, 20_memory.md section 5, 44_sequencer.md section 2, 70_reset_and_hazards.md section 4. The
refusal is the model's form of a move that is not offered, log entry 8. -/
def Obligations.HostStoreAccessOnlyWhenNotBusy : Prop :=
  ∀ (s : State) (a : Addr) (v : Word),
    (s.busy = false →
      (∃ t, move (.writeOperand a v) s = .next t ∧ hostReadOperand a t = .ok v ∧
        (∀ x, ¬ inSpan a 1 x → t.operandByte x = s.operandByte x) ∧ t.commands = s.commands ∧ t.pc = s.pc ∧
        t.status = s.status ∧ t.errcmd = s.errcmd ∧ t.draws = s.draws) ∧
      (∃ t, move (.writeCommand a v) s = .next t ∧ hostReadCommand a t = .ok v ∧
        (∀ x, ¬ inSpan a 1 x → t.commandByte x = s.commandByte x) ∧ t.operands = s.operands ∧ t.pc = s.pc ∧
        t.status = s.status ∧ t.errcmd = s.errcmd ∧ t.draws = s.draws) ∧
      hostReadOperand a s = .ok (s.operandWord a.toNat) ∧ move (.readOperand a) s = .next s ∧
      hostReadCommand a s = .ok (s.commandWord a.toNat) ∧ move (.readCommand a) s = .next s) ∧
    (s.busy = true →
      move (.writeOperand a v) s = .refused .hostStoreWhileBusy ∧
      move (.writeCommand a v) s = .refused .hostStoreWhileBusy ∧
      move (.readOperand a) s = .refused .hostStoreWhileBusy ∧
      move (.readCommand a) s = .refused .hostStoreWhileBusy)

/-- Byte k of the word at address a is its bits 8k+7:8k, at host offset 8a + k. States R44. -/
def Obligations.HostByteViewIsLittleEndian : Prop :=
  ∀ (s : State) (a k : Nat), k < 8 →
    s.operandByte (8 * a + k) = (s.operandWord a).extractLsb' (8 * k) 8 ∧
    s.commandByte (8 * a + k) = (s.commandWord a).extractLsb' (8 * k) 8

/-- After the host writes a command, PC and START, the next step runs that command. Rests on 70_reset_and_hazards.md
section 2, 44_sequencer.md section 2. -/
def Obligations.BootRunsTheCommandTheHostWrote : Prop :=
  ∀ (s : State) (k : Addr) (i : Instr), s.busy = false →
    ∃ t, moves (loadCommands k [encode i] ++ startAt (k.setWidth 13)) s = .next t ∧
      t.runState = some .running ∧ t.operands = s.operands ∧ t.pc.toNat = k.toNat ∧ t.errcmd = 0 ∧
      step t = exec i t

/-- Two stores in canonical form that list the same bytes are equal. Rests on 20_memory.md section 1, 10_state.md
section 4. The canonical form is the model's choice, log entry 2. -/
def Obligations.EqualStoresAreEqualData : Prop :=
  ∀ m m' : Memory, m.wf → m'.wf → (∀ x, m.byte? x = m'.byte? x) → m = m'

/-- The assembler forms a command from as many addresses as its opcode uses, each at most 4095, and refuses the rest.
Rests on 30_encoding.md section 4. The names of the refusals are the model's, log entry 15. -/
def Obligations.AssemblerAcceptsExactlyTheFieldsUsed : Prop :=
  ∀ (o : Opcode) (l : List Nat),
    (l.length ≠ (Field.all.countP (fun f => (o.width f).isSome)) → assembleCommand o l = .error .operandCount) ∧
    (l.length = (Field.all.countP (fun f => (o.width f).isSome)) →
      ((∀ n ∈ l, n ≤ 4095) → ∃ i, assembleCommand o l = .ok [i] ∧ i.opcode = o ∧
        (i.field .D).toNat = l.getD 0 0 ∧ (i.field .A).toNat = l.getD 1 0 ∧ (i.field .B).toNat = l.getD 2 0 ∧
        (i.field .C).toNat = l.getD 3 0) ∧
      ((∃ n ∈ l, n > 4095) → assembleCommand o l = .error .addressTooLarge))

/-- ADD128, ADD256, SUB128 and SUB256 give the words of the chain of one-word carry functions. Rests on
40_carry_chain.md section 3. -/
def Obligations.WideCommandsPropagateCarriesWordByWord : Prop :=
  ∀ (d a b c : Addr) (s : State) (pairs : Nat → List (Nat × Nat)),
    (∀ n, pairs n = (List.range n).map
      (fun j => ((s.operandWord (a.toNat + j)).toNat, (s.operandWord (b.toNat + j)).toNat))) →
    s.memRead c 1 ≤ 1 →
    ((Instr.add128 d a b c).wellFormed = true →
      ∃ t, exec (.add128 d a b c) s = .next t ∧ addChain (pairs 2) (s.memRead c 1) = some (t.memRead d 3)) ∧
    ((Instr.add256 d a b c).wellFormed = true →
      ∃ t, exec (.add256 d a b c) s = .next t ∧ addChain (pairs 4) (s.memRead c 1) = some (t.memRead d 5)) ∧
    ((Instr.sub128 d a b c).wellFormed = true →
      ∃ t, exec (.sub128 d a b c) s = .next t ∧ subChain (pairs 2) (s.memRead c 1) = some (t.memRead d 3)) ∧
    ((Instr.sub256 d a b c).wellFormed = true →
      ∃ t, exec (.sub256 d a b c) s = .next t ∧ subChain (pairs 4) (s.memRead c 1) = some (t.memRead d 5))

/-- OFFSET_2 is 32p or 64p, any engine may have either, and nothing changes it. Rests on 93_implementation_defined.md
section 3, 42_field_ops.md section 3, 00_scope.md section 4. The parameter as a field of State is the model's, log
entry 4, as is the canonical form in the invariant, log entry 2. -/
def Obligations.TheParameterIsTakenAndNeverChanged : Prop :=
  Offset2.value .p32 = 32 * P ∧ Offset2.value .p64 = 64 * P ∧ State.reset.offset2 = .p32 ∧
  (∀ o : Offset2, (State.reset.withOffset2 o).Inv ∧ (State.reset.withOffset2 o).offset2 = o ∧
    (State.reset.withOffset2 o).runState = some .idle) ∧
  (∀ (i : Instr) (s t : State), exec i s = .next t → t.offset2 = s.offset2) ∧
  (∀ (m : Move) (s t : State), move m s = .next t → t.offset2 = s.offset2)
end

