-- ==== Sys2Proof/Laws/Arithmetic.lean ====
section
/-! SUPPORT. What the arithmetic functions give, each said once: the wrapping subtraction, the reductions
(41_reduction.md R100 to R102) and the Montgomery round and multiplication (43_montgomery.md R131, R132). -/

namespace Sys2Proof.Machine

/-! ### The wrapping subtraction -/

theorem wrapSub_of_le {bits x y : Nat} (h : y ≤ x) (hx : x - y < 2 ^ bits) : wrapSub bits x y = x - y := by
  unfold wrapSub
  rw [← Nat.cast_sub h, ← Int.natCast_mod, Int.toNat_natCast, Nat.mod_eq_of_lt hx]

theorem wrapSub_of_lt {bits x y : Nat} (h : x < y) (hy : y ≤ x + 2 ^ bits) : wrapSub bits x y = x + 2 ^ bits - y := by
  unfold wrapSub
  have he : ((x : Int) - (y : Int)) % ((2 ^ bits : Nat) : Int) = ((x + 2 ^ bits - y : Nat) : Int) := by
    rw [← Int.add_emod_right, show (x : Int) - y + ((2 ^ bits : Nat) : Int) = ((x + 2 ^ bits - y : Nat) : Int) by
      rw [Nat.cast_sub hy]; push_cast; ring]
    rw [← Int.natCast_mod, Nat.mod_eq_of_lt (by omega)]
  rw [he, Int.toNat_natCast]

theorem wrapSub_lt (bits x y : Nat) : wrapSub bits x y < 2 ^ bits := by
  unfold wrapSub
  have h1 := Int.emod_nonneg ((x : Int) - y) (b := ((2 ^ bits : Nat) : Int)) (by positivity)
  have h2 := Int.emod_lt_of_pos ((x : Int) - y) (b := ((2 ^ bits : Nat) : Int)) (by positivity)
  omega

theorem borrowOut_of_le {x y : Nat} (h : y ≤ x) : borrowOut x y = 0 := if_neg (by omega)
theorem borrowOut_of_lt {x y : Nat} (h : x < y) : borrowOut x y = 1 := if_pos h
theorem borrowOut_le_one (x y : Nat) : borrowOut x y ≤ 1 := by unfold borrowOut; split_ifs <;> omega

/-! ### Carry and borrow (40_carry_chain.md R80, R88) -/

theorem addCarry_of_ok {x y c : Nat} (hc : c ≤ 1) : addCarry x y c = some (x + y + c) := by simp [addCarry, carryWordOk, hc]
theorem addCarry_of_broken {x y c : Nat} (hc : 1 < c) : addCarry x y c = none := by
  simp [addCarry, carryWordOk, Nat.not_le.2 hc]
theorem subBorrow_of_broken {n x y b : Nat} (hb : 1 < b) : subBorrow n x y b = none := by
  simp [subBorrow, carryWordOk, Nat.not_le.2 hb]

/-- A subtraction without a borrow is the exact difference. -/
theorem subBorrow_of_le {n x y b : Nat} (hb : b ≤ 1) (hx : x < 2 ^ (64 * n)) (h : y + b ≤ x) :
    subBorrow n x y b = some (x - (y + b)) := by
  simp [subBorrow, carryWordOk, hb, borrowOut_of_le h, wrapSub_of_le (bits := 64 * n) h (by omega)]

/-- A subtraction with a borrow wraps, and writes 1 above its words. -/
theorem subBorrow_of_lt {n x y b : Nat} (hb : b ≤ 1) (hy : y < 2 ^ (64 * n)) (h : x < y + b) :
    subBorrow n x y b = some (x + 2 ^ (64 * n) - (y + b) + 2 ^ (64 * n)) := by
  simp [subBorrow, carryWordOk, hb, borrowOut_of_lt h, wrapSub_of_lt (bits := 64 * n) h (by omega)]

/-! ### overflow_reduce (41_reduction.md R100) -/

theorem overflowReduce_low {t : Nat} (h : t < 2 ^ 256) : overflowReduce t = some t := by
  have h0 : t / 2 ^ 256 = 0 := Nat.div_eq_of_lt h
  simp only [overflowReduce, h0]
  rw [if_neg (by omega), wrapSub_of_le (by omega) (by omega)]
  simp

theorem overflowReduce_mid {t : Nat} (h : 2 ^ 256 ≤ t) (h' : t < 2 ^ 256 + 2 ^ 255) :
    overflowReduce t = some (t - 16 * P) := by
  have h0 : t / 2 ^ 256 = 1 := by omega
  have h1 : t / 2 ^ 255 % 2 = 0 := by omega
  simp only [overflowReduce, h0, h1]
  rw [if_neg (by omega), wrapSub_of_le (by unfold P16 P; omega) (by unfold P16 P; omega)]
  simp [P16]

theorem overflowReduce_high {t : Nat} (h : 2 ^ 256 + 2 ^ 255 ≤ t) (h' : t < 2 ^ 257) :
    overflowReduce t = some (t - 32 * P) := by
  have h0 : t / 2 ^ 256 = 1 := by omega
  have h1 : t / 2 ^ 255 % 2 = 1 := by omega
  simp only [overflowReduce, h0, h1]
  rw [if_neg (by omega), wrapSub_of_le (by unfold P16 P; omega) (by unfold P16 P; omega)]
  congr 1

theorem overflowReduce_broken {t : Nat} (h : 2 ^ 257 ≤ t) : overflowReduce t = none := by
  simp only [overflowReduce]
  rw [if_pos (by omega)]

/-! ### fewbits_reduce (41_reduction.md R101) -/

/-- No borrow: the difference itself. -/
theorem fewbitsReduce_of_le {r : Nat} (h4 : r / 2 ^ 256 < 2 ^ 53) (h : r / 2 ^ 256 * K32 ≤ r % 2 ^ 256) :
    fewbitsReduce r = some (r % 2 ^ 256 - r / 2 ^ 256 * K32) := by
  have hl : r % 2 ^ 256 < 2 ^ 256 := Nat.mod_lt _ (by norm_num)
  simp only [fewbitsReduce]
  rw [if_neg (by unfold fewLimit; omega), borrowOut_of_le h, wrapSub_of_le h (by omega), Nat.zero_mul, Nat.add_zero,
    Nat.mod_eq_of_lt (by omega)]

/-- A borrow that one addition of p makes good. -/
theorem fewbitsReduce_of_borrow {r : Nat} (h4 : r / 2 ^ 256 < 2 ^ 53) (h : r % 2 ^ 256 < r / 2 ^ 256 * K32)
    (h' : r / 2 ^ 256 * K32 ≤ r % 2 ^ 256 + P) :
    fewbitsReduce r = some (r % 2 ^ 256 + P - r / 2 ^ 256 * K32) := by
  have hk : r / 2 ^ 256 * K32 ≤ 2 ^ 53 * K32 := Nat.mul_le_mul_right _ h4.le
  have hk' : 2 ^ 53 * K32 < 2 ^ 256 := by unfold K32; norm_num
  simp only [fewbitsReduce]
  rw [if_neg (by unfold fewLimit; omega), borrowOut_of_lt h, wrapSub_of_lt h (by omega), Nat.one_mul,
    show r % 2 ^ 256 + 2 ^ 256 - r / 2 ^ 256 * K32 + P = (r % 2 ^ 256 + P - r / 2 ^ 256 * K32) + 2 ^ 256 by omega,
    Nat.add_mod_right, Nat.mod_eq_of_lt (by unfold P at h' ⊢; omega)]

/-- A borrow that one addition of p does not make good (90_conflicts.md C2). -/
theorem fewbitsReduce_of_far {r : Nat} (h4 : r / 2 ^ 256 < 2 ^ 53) (h : r % 2 ^ 256 + P < r / 2 ^ 256 * K32) :
    fewbitsReduce r = some (r % 2 ^ 256 + P + 2 ^ 256 - r / 2 ^ 256 * K32) := by
  have hk : r / 2 ^ 256 * K32 ≤ 2 ^ 53 * K32 := Nat.mul_le_mul_right _ h4.le
  have hk' : 2 ^ 53 * K32 < 2 ^ 256 := by unfold K32; norm_num
  simp only [fewbitsReduce]
  rw [if_neg (by unfold fewLimit; omega), borrowOut_of_lt (by omega), wrapSub_of_lt (by omega) (by omega), Nat.one_mul,
    show r % 2 ^ 256 + 2 ^ 256 - r / 2 ^ 256 * K32 + P = r % 2 ^ 256 + P + 2 ^ 256 - r / 2 ^ 256 * K32 by omega,
    Nat.mod_eq_of_lt (by omega)]

theorem fewbitsReduce_broken {r : Nat} (h : 2 ^ 53 ≤ r / 2 ^ 256) : fewbitsReduce r = none := by
  simp only [fewbitsReduce]
  rw [if_pos (by unfold fewLimit; exact h)]

/-- Inside the congruence condition of 41_reduction.md R107 the result is below 2^256 and congruent to r. -/
theorem fewbitsReduce_congr {r : Nat} (h4 : r / 2 ^ 256 < 2 ^ 53) (h : r / 2 ^ 256 * K32 ≤ r % 2 ^ 256 + P) :
    ∃ v, fewbitsReduce r = some v ∧ v < 2 ^ 256 ∧ v % P = r % P := by
  have hl : r % 2 ^ 256 < 2 ^ 256 := Nat.mod_lt _ (by norm_num)
  have hr : r = r / 2 ^ 256 * 2 ^ 256 + r % 2 ^ 256 := by omega
  have h32 : 32 * P = 2 ^ 256 + K32 := by unfold P K32; norm_num
  have hP : P < 2 ^ 252 := by unfold P; norm_num
  rcases Nat.lt_or_ge (r % 2 ^ 256) (r / 2 ^ 256 * K32) with hb | hb
  · refine ⟨_, fewbitsReduce_of_borrow h4 hb h, by omega, ?_⟩
    have he : r + P = (r % 2 ^ 256 + P - r / 2 ^ 256 * K32) + r / 2 ^ 256 * (32 * P) := by rw [h32, Nat.mul_add]; omega
    rw [← Nat.add_mod_right r P, he, show r / 2 ^ 256 * (32 * P) = r / 2 ^ 256 * 32 * P by ring, Nat.add_mul_mod_self_right]
  · refine ⟨_, fewbitsReduce_of_le h4 hb, by omega, ?_⟩
    have he : r = (r % 2 ^ 256 - r / 2 ^ 256 * K32) + r / 2 ^ 256 * 32 * P := by
      rw [show r / 2 ^ 256 * 32 * P = r / 2 ^ 256 * (32 * P) by ring, h32, Nat.mul_add]; omega
    conv_rhs => rw [he]
    rw [Nat.add_mul_mod_self_right]

/-! ### x_minus_cy and its offset (42_field_ops.md R112, R123) -/

theorem xMinusCy_of_le {o c x y : Nat} (h : c * y ≤ x + o) : xMinusCy o c x y = fewbitsReduce (x + o - c * y) :=
  if_neg (by omega)
theorem xMinusCy_of_lt {o c x y : Nat} (h : x + o < c * y) : xMinusCy o c x y = none := if_pos h

/-- Either value of the parameter keeps x + OFFSET_2 inside five words. -/
theorem offset2_value_le (o : Offset2) : o.value ≤ 64 * P := by
  cases o <;> simp only [Offset2.value, P32] <;> omega

/-! ### final_reduce (41_reduction.md R102) -/

theorem finalReduce_lt (x : Nat) : finalReduce x < 2 ^ 256 := Nat.mod_lt _ (by norm_num)

/-- Of a four-word value, the canonical residue. -/
theorem finalReduce_eq {x : Nat} (hx : x < 2 ^ 256) : finalReduce x = x % P := by
  have hq : x / 2 ^ 251 ≤ 31 := by omega
  have hsplit : x = x / 2 ^ 251 * 2 ^ 251 + x % 2 ^ 251 := by omega
  simp only [finalReduce]
  generalize x / 2 ^ 251 = k at *
  generalize hl : x % 2 ^ 251 = l at *
  have hl' : l < 2 ^ 251 := hl ▸ Nat.mod_lt _ (by norm_num)
  have hP : 0 < P := by unfold P; norm_num
  rcases Nat.lt_or_ge x (k * P) with h | h
  · have hk1 : 1 ≤ k := by by_contra h0; rw [Nat.not_le, Nat.lt_one_iff] at h0; subst h0; omega
    rw [wrapSub_of_lt h (by unfold P; omega), borrowOut_of_lt h, Nat.one_mul,
      show x + 2 ^ 256 - k * P + P = (x + P - k * P) + 2 ^ 256 by unfold P at *; omega, Nat.add_mod_right,
      Nat.mod_eq_of_lt (by unfold P at *; omega)]
    have he : x = (x + P - k * P) + (k - 1) * P := by
      obtain ⟨j, rfl⟩ : ∃ j, k = j + 1 := ⟨k - 1, by omega⟩
      simp only [Nat.add_sub_cancel]
      unfold P at *; omega
    conv_rhs => rw [he]
    rw [Nat.add_mul_mod_self_right, Nat.mod_eq_of_lt (by omega)]
  · rw [wrapSub_of_le h (by omega), borrowOut_of_le h, Nat.zero_mul, Nat.add_zero, Nat.mod_eq_of_lt (by omega)]
    have he : x = (x - k * P) + k * P := by omega
    conv_rhs => rw [he]
    rw [Nat.add_mul_mod_self_right, Nat.mod_eq_of_lt (by unfold P at *; omega)]

/-! ### montgomery_round (43_montgomery.md R131) -/

theorem montgomeryRound_eq (acc xi y : Nat) :
    montgomeryRound acc xi y = if roundSum acc xi y < windowLimit then some (roundSum acc xi y) else none := by
  rcases Nat.lt_or_ge (roundSum acc xi y) windowLimit with h | h
  · rw [if_pos h]
    unfold roundSum at h ⊢
    simp only [montgomeryRound, if_neg (Nat.not_le.2 h)]
  · rw [if_neg (Nat.not_lt.2 h)]
    unfold roundSum at h
    simp only [montgomeryRound, if_pos h]

theorem P_mod_word : P % 2 ^ 64 = 1 := by unfold P; norm_num

/-- The round's multiplier u, and the lowest word it cancels: P mod 2^64 = 1. -/
theorem roundSum_split (acc xi y : Nat) :
    ∃ u q, u < 2 ^ 64 ∧ roundSum acc xi y = acc + xi * y + u * P ∧ acc + xi * y + u * P = 2 ^ 64 * q := by
  refine ⟨(2 ^ 64 - (acc + xi * y) % 2 ^ 64) % 2 ^ 64, roundSum acc xi y / 2 ^ 64, Nat.mod_lt _ (by norm_num), rfl, ?_⟩
  show roundSum acc xi y = _
  have hP : P = 2 ^ 64 * (P / 2 ^ 64) + 1 := by unfold P; norm_num
  have hmod : roundSum acc xi y % 2 ^ 64 = 0 := by
    unfold roundSum
    generalize acc + xi * y = a
    generalize hu : (2 ^ 64 - a % 2 ^ 64) % 2 ^ 64 = u
    rw [show a + u * P = (a + u) + 2 ^ 64 * (u * (P / 2 ^ 64)) by conv_lhs => rw [hP]
                                                                  ring, Nat.add_mul_mod_self_left]
    omega
  omega

/-! ### montgomery_mult (43_montgomery.md R132) -/

theorem bufRead_of_low {i B n : Nat} (h : B < 2 ^ (64 * n)) : bufRead (2 ^ (64 * i) * B) i n = B := by
  unfold bufRead
  rw [Nat.mul_div_cancel_left _ (by positivity), Nat.mod_eq_of_lt h]

theorem bufWrite_of_low {i B n v : Nat} (h : B < 2 ^ (64 * n)) : bufWrite (2 ^ (64 * i) * B) i n v = 2 ^ (64 * i) * v := by
  unfold bufWrite
  rw [Nat.mul_mod_right, Nat.div_eq_of_lt, Nat.zero_mul, Nat.zero_add, Nat.add_zero, Nat.mul_comm]
  rw [Nat.mul_add, pow_add]
  exact Nat.mul_lt_mul_of_pos_left h (by positivity)

/-- One round of a multiplication on a buffer that is a multiple of its window's place value: the window's value B, below
y + p, becomes 2^64 times a value below y + p (43_montgomery.md R139). -/
theorem multRound_spec {x y i B : Nat} (hy : y < 2 ^ 256) (hB : B < y + P) :
    ∃ u B', u < 2 ^ 64 ∧ B' < y + P ∧ B + wordAt i x * y + u * P = 2 ^ 64 * B' ∧
      multRound x y i (2 ^ (64 * i) * B) = some (2 ^ (64 * (i + 1)) * B') := by
  have hxi : wordAt i x < 2 ^ 64 := Nat.mod_lt _ (by norm_num)
  have hP : P < 2 ^ 252 := by unfold P; norm_num
  have hB6 : B < 2 ^ (64 * 6) := by norm_num; omega
  obtain ⟨u, B', hu, hsum, hsplit⟩ := roundSum_split B (wordAt i x) y
  have h1 : wordAt i x * y ≤ (2 ^ 64 - 1) * y := Nat.mul_le_mul_right _ (by omega)
  have h2 : u * P ≤ (2 ^ 64 - 1) * P := Nat.mul_le_mul_right _ (by omega)
  refine ⟨u, B', hu, by omega, hsplit, ?_⟩
  unfold multRound
  rw [bufRead_of_low hB6, montgomeryRound_eq, hsum, if_pos (by unfold windowLimit; omega), Option.map_some, bufWrite_of_low hB6, hsplit,
    show 2 ^ (64 * i) * (2 ^ 64 * B') = 2 ^ (64 * (i + 1)) * B' by rw [Nat.mul_succ, pow_add, Nat.mul_assoc]]

/-- The four rounds of a multiplication (43_montgomery.md R132, R139): the buffer ends as 2^256 * T with
T = (x*y + U*p) / 2^256 exactly, for some U below 2^256, and T below y + p. No round draws. -/
theorem multBuffer_rounds {x y : Nat} (hx : x < 2 ^ 256) (hy : y < 2 ^ 256) :
    ∃ U T, U < 2 ^ 256 ∧ T < y + P ∧ 2 ^ 256 * T = x * y + U * P ∧ multBuffer x y = some (2 ^ (64 * 4) * T) := by
  obtain ⟨u0, B1, hu0, hB1, he0, hr0⟩ := multRound_spec (x := x) (i := 0) (B := 0) hy (by unfold P; omega)
  obtain ⟨u1, B2, hu1, hB2, he1, hr1⟩ := multRound_spec (x := x) (i := 1) hy hB1
  obtain ⟨u2, B3, hu2, hB3, he2, hr2⟩ := multRound_spec (x := x) (i := 2) hy hB2
  obtain ⟨u3, B4, hu3, hB4, he3, hr3⟩ := multRound_spec (x := x) (i := 3) hy hB3
  have hx4 : x = wordAt 0 x + 2 ^ 64 * wordAt 1 x + 2 ^ 128 * wordAt 2 x + 2 ^ 192 * wordAt 3 x := by
    unfold wordAt; norm_num; omega
  refine ⟨u0 + 2 ^ 64 * u1 + 2 ^ 128 * u2 + 2 ^ 192 * u3, B4, by omega, hB4, ?_, ?_⟩
  · generalize wordAt 0 x = x0 at *
    generalize wordAt 1 x = x1 at *
    generalize wordAt 2 x = x2 at *
    generalize wordAt 3 x = x3 at *
    subst hx4
    zify at he0 he1 he2 he3 ⊢
    linear_combination -he0 - 2 ^ 64 * he1 - 2 ^ 128 * he2 - 2 ^ 192 * he3
  · unfold multBuffer
    rw [Nat.mul_zero] at hr0
    rw [hr0, Option.bind_some, hr1, Option.bind_some, hr2, Option.bind_some, hr3]

/-- What the top five words of the buffer hold when it is 2^256 * T. -/
theorem bufRead_top {T : Nat} (h : T < 2 ^ (64 * 5)) : bufRead (2 ^ (64 * 4) * T) 4 5 = T := bufRead_of_low h

/-- The multiplication, by its rounds: `overflow_reduce` of the quotient T. -/
theorem montgomeryMult_rounds {x y : Nat} (hx : x < 2 ^ 256) (hy : y < 2 ^ 256) :
    ∃ U T, U < 2 ^ 256 ∧ T < y + P ∧ 2 ^ 256 * T = x * y + U * P ∧ montgomeryMult x y = overflowReduce T := by
  have hP : P < 2 ^ 252 := by unfold P; norm_num
  obtain ⟨U, T, hU, hT, he, hbuf⟩ := multBuffer_rounds hx hy
  refine ⟨U, T, hU, hT, he, ?_⟩
  unfold montgomeryMult
  rw [hbuf, Option.bind_some, bufRead_top (by norm_num; omega)]

end Sys2Proof.Machine
end

