-- ==== Sys2Proof/Laws/Decode.lean ====
section
/-! SUPPORT. The fields of a packed word, the opcode map read both ways, and what decoding can answer. -/

namespace Sys2Proof

/-! ### The fields of a packed word (30_encoding.md R60) -/

section pack

variable (rsv : Byte) (c b a d : Addr) (op : Byte)

@[simp] theorem fieldOp_packWord : fieldOp (packWord rsv c b a d op) = op := by
  ext i hi
  simp only [fieldOp, packWord, BitVec.getElem_extractLsb', BitVec.getLsbD_append]
  split_ifs <;> first | omega | (rw [← BitVec.getLsbD_eq_getElem]; congr 1; omega)

@[simp] theorem fieldAddr_D_packWord : fieldAddr (packWord rsv c b a d op) .D = d := by
  ext i hi
  simp only [fieldAddr, packWord, BitVec.getElem_extractLsb', BitVec.getLsbD_append]
  split_ifs <;> first | omega | (rw [← BitVec.getLsbD_eq_getElem]; congr 1; omega)

@[simp] theorem fieldAddr_A_packWord : fieldAddr (packWord rsv c b a d op) .A = a := by
  ext i hi
  simp only [fieldAddr, packWord, BitVec.getElem_extractLsb', BitVec.getLsbD_append]
  split_ifs <;> first | omega | (rw [← BitVec.getLsbD_eq_getElem]; congr 1; omega)

@[simp] theorem fieldAddr_B_packWord : fieldAddr (packWord rsv c b a d op) .B = b := by
  ext i hi
  simp only [fieldAddr, packWord, BitVec.getElem_extractLsb', BitVec.getLsbD_append]
  split_ifs <;> first | omega | (rw [← BitVec.getLsbD_eq_getElem]; congr 1; omega)

@[simp] theorem fieldAddr_C_packWord : fieldAddr (packWord rsv c b a d op) .C = c := by
  ext i hi
  simp only [fieldAddr, packWord, BitVec.getElem_extractLsb', BitVec.getLsbD_append]
  split_ifs <;> first | omega | (rw [← BitVec.getLsbD_eq_getElem]; congr 1; omega)

@[simp] theorem fieldRsv_packWord : fieldRsv (packWord rsv c b a d op) = rsv := by
  ext i hi
  simp only [fieldRsv, packWord, BitVec.getElem_extractLsb', BitVec.getLsbD_append]
  split_ifs <;> first | omega | (rw [← BitVec.getLsbD_eq_getElem]; congr 1; omega)

end pack

/-- A word is packed from its own fields. -/
theorem packWord_fields (w : Word) :
    packWord (fieldRsv w) (fieldAddr w .C) (fieldAddr w .B) (fieldAddr w .A) (fieldAddr w .D) (fieldOp w) = w := by
  refine BitVec.eq_of_getLsbD_eq fun i hi => ?_
  simp only [fieldOp, fieldAddr, fieldRsv, packWord, BitVec.getLsbD_append, BitVec.getLsbD_extractLsb']
  split_ifs <;> (rw [decide_eq_true (by omega), Bool.true_and]; congr 1; omega)

/-! ### The opcode map (30_encoding.md R62) -/

@[simp] theorem ofCode_code (o : Opcode) : Opcode.ofCode o.code = some o := by cases o <;> decide

theorem code_of_ofCode {b : Byte} {o : Opcode} (h : Opcode.ofCode b = some o) : o.code = b := by
  simpa using List.find?_some h

@[simp] theorem opcode_instr (o : Opcode) (d a b c : Addr) : (o.instr d a b c).opcode = o := by cases o <;> rfl

/-! ### What decoding can answer (30_encoding.md R63) -/

/-- A word decodes to a command only by way of its opcode's row: `RSV` and the unused fields are 0, and the command holds the
word's fields. -/
theorem decode_ok {w : Word} {i : Instr} (h : decode w = .ok i) :
    ∃ o, Opcode.ofCode (fieldOp w) = some o ∧ fieldRsv w = 0 ∧ firstUnusedNotZero o w = none ∧
      i = o.instr (fieldAddr w .D) (fieldAddr w .A) (fieldAddr w .B) (fieldAddr w .C) := by
  unfold decode at h
  split at h
  · cases h
  · rename_i o ho
    split_ifs at h with hr
    split at h
    · cases h
    · rename_i hu
      exact ⟨o, ho, by simpa using hr, hu, by cases h; rfl⟩

/-- The word of an opcode whose row, `RSV` and unused fields are as R63 asks decodes to the command of its fields. -/
theorem decode_of_fields {w : Word} {o : Opcode} (ho : Opcode.ofCode (fieldOp w) = some o) (hr : fieldRsv w = 0)
    (hu : firstUnusedNotZero o w = none) :
    decode w = .ok (o.instr (fieldAddr w .D) (fieldAddr w .A) (fieldAddr w .B) (fieldAddr w .C)) := by
  simp [decode, ho, hr, hu]

end Sys2Proof
end

