-- ==== Sys2Proof/Laws/State.lean ====
section
/-! SUPPORT. One lemma per field per update of the state, and the updates' effect on what is read from it. -/

namespace Sys2Proof.Machine

variable (s : State) (a d : Addr) (n v : Nat) (c : Cause) (w : Word)

/-! ### MemWrite -/

@[simp] theorem memWrite_operands : (s.memWrite d n v).operands = s.operands.writeSpan d.toNat n v := rfl
@[simp] theorem memWrite_commands : (s.memWrite d n v).commands = s.commands := rfl
@[simp] theorem memWrite_pc : (s.memWrite d n v).pc = s.pc := rfl
@[simp] theorem memWrite_status : (s.memWrite d n v).status = s.status := rfl
@[simp] theorem memWrite_errcmd : (s.memWrite d n v).errcmd = s.errcmd := rfl
@[simp] theorem memWrite_draws : (s.memWrite d n v).draws = s.draws := rfl
@[simp] theorem memWrite_offset2 : (s.memWrite d n v).offset2 = s.offset2 := rfl

/-! ### Writing a result -/

@[simp] theorem writeResult_some : s.writeResult d n (some v) = s.memWrite d n v := rfl
@[simp] theorem writeResult_none_operands :
    (s.writeResult d n none).operands = s.operands.writeSpan d.toNat n (drawValue s.draws n) := rfl
@[simp] theorem writeResult_none_draws : (s.writeResult d n none).draws = s.draws + n := rfl
@[simp] theorem writeResult_commands (r : Option Nat) : (s.writeResult d n r).commands = s.commands := by cases r <;> rfl
@[simp] theorem writeResult_pc (r : Option Nat) : (s.writeResult d n r).pc = s.pc := by cases r <;> rfl
@[simp] theorem writeResult_status (r : Option Nat) : (s.writeResult d n r).status = s.status := by cases r <;> rfl
@[simp] theorem writeResult_errcmd (r : Option Nat) : (s.writeResult d n r).errcmd = s.errcmd := by cases r <;> rfl
@[simp] theorem writeResult_offset2 (r : Option Nat) : (s.writeResult d n r).offset2 = s.offset2 := by cases r <;> rfl

/-! ### The next command -/

@[simp] theorem advance_operands : s.advance.operands = s.operands := rfl
@[simp] theorem advance_commands : s.advance.commands = s.commands := rfl
@[simp] theorem advance_pc : s.advance.pc = s.pc + 1 := rfl
@[simp] theorem advance_status : s.advance.status = s.status := rfl
@[simp] theorem advance_errcmd : s.advance.errcmd = s.errcmd := rfl
@[simp] theorem advance_draws : s.advance.draws = s.draws := rfl
@[simp] theorem advance_offset2 : s.advance.offset2 = s.offset2 := rfl

/-! ### Taking a fault -/

@[simp] theorem raiseFault_operands : (s.raiseFault c w).operands = s.operands := rfl
@[simp] theorem raiseFault_commands : (s.raiseFault c w).commands = s.commands := rfl
@[simp] theorem raiseFault_pc : (s.raiseFault c w).pc = s.pc := rfl
@[simp] theorem raiseFault_status : (s.raiseFault c w).status = statusFaulted c := rfl
@[simp] theorem raiseFault_errcmd_illegal : (s.raiseFault .illegalCommand w).errcmd = w := rfl
@[simp] theorem raiseFault_errcmd_range : (s.raiseFault .operandRange w).errcmd = w := rfl
@[simp] theorem raiseFault_errcmd_fetch : (s.raiseFault .commandRange w).errcmd = 0 := rfl
@[simp] theorem raiseFault_draws : (s.raiseFault c w).draws = s.draws := rfl
@[simp] theorem raiseFault_offset2 : (s.raiseFault c w).offset2 = s.offset2 := rfl

/-! ### Starting a run -/

@[simp] theorem start_operands : s.start.operands = s.operands := rfl
@[simp] theorem start_commands : s.start.commands = s.commands := rfl
@[simp] theorem start_pc : s.start.pc = s.pc := rfl
@[simp] theorem start_status : s.start.status = statusRunning := rfl
@[simp] theorem start_errcmd : s.start.errcmd = 0 := rfl
@[simp] theorem start_draws : s.start.draws = s.draws := rfl
@[simp] theorem start_offset2 : s.start.offset2 = s.offset2 := rfl

/-! ### Reset -/

@[simp] theorem resetRegisters_operands : s.resetRegisters.operands = s.operands := rfl
@[simp] theorem resetRegisters_commands : s.resetRegisters.commands = s.commands := rfl
@[simp] theorem resetRegisters_pc : s.resetRegisters.pc = 0 := rfl
@[simp] theorem resetRegisters_status : s.resetRegisters.status = 0 := rfl
@[simp] theorem resetRegisters_errcmd : s.resetRegisters.errcmd = 0 := rfl
@[simp] theorem resetRegisters_draws : s.resetRegisters.draws = s.draws := rfl
@[simp] theorem resetRegisters_offset2 : s.resetRegisters.offset2 = s.offset2 := rfl

/-! ### The parameter -/

variable (o : Offset2)

@[simp] theorem withOffset2_operands : (s.withOffset2 o).operands = s.operands := rfl
@[simp] theorem withOffset2_commands : (s.withOffset2 o).commands = s.commands := rfl
@[simp] theorem withOffset2_pc : (s.withOffset2 o).pc = s.pc := rfl
@[simp] theorem withOffset2_status : (s.withOffset2 o).status = s.status := rfl
@[simp] theorem withOffset2_errcmd : (s.withOffset2 o).errcmd = s.errcmd := rfl
@[simp] theorem withOffset2_draws : (s.withOffset2 o).draws = s.draws := rfl
@[simp] theorem withOffset2_offset2 : (s.withOffset2 o).offset2 = o := rfl

/-! ### What is read depends on one store, or on `STATUS`, alone -/

theorem operandByte_congr {s t : State} (h : s.operands = t.operands) (x : Nat) : s.operandByte x = t.operandByte x := by
  simp [State.operandByte, h]

theorem commandByte_congr {s t : State} (h : s.commands = t.commands) (x : Nat) : s.commandByte x = t.commandByte x := by
  simp [State.commandByte, h]

theorem operandWord_congr {s t : State} (h : s.operands = t.operands) (x : Nat) : s.operandWord x = t.operandWord x := by
  simp [State.operandWord, h]

theorem commandWord_congr {s t : State} (h : s.commands = t.commands) (k : Nat) : s.commandWord k = t.commandWord k := by
  simp [State.commandWord, h]

theorem readSpan_congr {s t : State} (h : s.operands = t.operands) : ∀ (n x : Nat), s.readSpan x n = t.readSpan x n
  | 0, _ => rfl
  | n + 1, x => by simp only [State.readSpan, operandWord_congr h, readSpan_congr h n]

theorem memRead_congr {s t : State} (h : s.operands = t.operands) (a : Addr) (n : Nat) : s.memRead a n = t.memRead a n :=
  readSpan_congr h n a.toNat

theorem fetchWord_congr {s t : State} (h : s.commands = t.commands) (hpc : s.pc = t.pc) : s.fetchWord = t.fetchWord := by
  simp [State.fetchWord, commandWord_congr h, hpc]

theorem runState_congr {s t : State} (h : s.status = t.status) : s.runState = t.runState := by
  simp [State.runState, h]

/-! ### The run state of each value of `STATUS` (10_state.md R29) -/

theorem runState_reset (h : s.status = 0) : s.runState = some .idle := by simp [State.runState, h]
theorem runState_running (h : s.status = statusRunning) : s.runState = some .running := by
  simp [State.runState, h, statusRunning]
theorem runState_done (h : s.status = statusDone) : s.runState = some .done := by
  simp [State.runState, h, statusDone]
theorem runState_faulted (h : s.status = statusFaulted c) : s.runState = some .faulted := by
  cases c <;> simp [State.runState, h, statusFaulted, Cause.code]

@[simp] theorem runState_start : s.start.runState = some .running := runState_running _ rfl
@[simp] theorem runState_raiseFault : (s.raiseFault c w).runState = some .faulted := runState_faulted _ c rfl

end Sys2Proof.Machine
end

