-- ==== Sys2Proof/Laws/Memory.lean ====
section
/-! SUPPORT. What the operations on a store do: reading after writing, by byte, word and span, and that every write keeps the
canonical form (Memory.wf). -/

namespace Sys2Proof.Machine

/-! ### Bytes of a word (20_memory.md R44) -/

theorem byteOfWord_wordOfBytes (f : Nat → Byte) {k : Nat} (hk : k < 8) : byteOfWord (wordOfBytes f) k = f k := by
  obtain rfl | rfl | rfl | rfl | rfl | rfl | rfl | rfl :
      k = 0 ∨ k = 1 ∨ k = 2 ∨ k = 3 ∨ k = 4 ∨ k = 5 ∨ k = 6 ∨ k = 7 := by omega
  all_goals
    ext i hi
    simp only [byteOfWord, wordOfBytes, BitVec.getElem_extractLsb', BitVec.getLsbD_append]
    split_ifs <;> first | omega | (rw [← BitVec.getLsbD_eq_getElem]; congr 1; omega)

theorem wordOfBytes_eq {f : Nat → Byte} {w : Word} (h : ∀ k, k < 8 → f k = byteOfWord w k) : wordOfBytes f = w := by
  unfold wordOfBytes
  rw [h 0 (by omega), h 1 (by omega), h 2 (by omega), h 3 (by omega), h 4 (by omega), h 5 (by omega), h 6 (by omega),
    h 7 (by omega)]
  ext i hi
  simp only [byteOfWord, BitVec.getElem_append, BitVec.getElem_extractLsb']
  split_ifs <;> rw [← BitVec.getLsbD_eq_getElem] <;> congr 1 <;> omega

theorem wordOfBytes_congr {f g : Nat → Byte} (h : ∀ k, k < 8 → f k = g k) : wordOfBytes f = wordOfBytes g := by
  unfold wordOfBytes
  rw [h 0 (by omega), h 1 (by omega), h 2 (by omega), h 3 (by omega), h 4 (by omega), h 5 (by omega), h 6 (by omega),
    h 7 (by omega)]

/-! ### Cells -/

@[simp] theorem lookupCell_insertCell_same (x : Nat) (b : Byte) :
    ∀ l : List Host.Cell, lookupCell x (insertCell x b l) = some b
  | [] => by simp [insertCell, lookupCell]
  | (y, c) :: rest => by
    unfold insertCell
    split_ifs with h h'
    · simp [lookupCell]
    · simp [lookupCell]
    · simp [lookupCell, h', lookupCell_insertCell_same x b rest]

theorem lookupCell_insertCell_other {x z : Nat} (b : Byte) (hne : z ≠ x) :
    ∀ l : List Host.Cell, lookupCell z (insertCell x b l) = lookupCell z l
  | [] => by simp [insertCell, lookupCell, hne]
  | (y, c) :: rest => by
    unfold insertCell
    split_ifs with h h'
    · simp [lookupCell, hne]
    · subst h'; simp [lookupCell, hne]
    · simp [lookupCell, lookupCell_insertCell_other b hne rest]

theorem mem_insertCell {x : Nat} {b : Byte} {e : Host.Cell} :
    ∀ {l : List Host.Cell}, e ∈ insertCell x b l → e = (x, b) ∨ e ∈ l
  | [], h => by simpa [insertCell] using h
  | (y, c) :: rest, h => by
    unfold insertCell at h
    split_ifs at h with h1 h2
    · simpa using h
    · rcases List.mem_cons.1 h with h | h
      · exact .inl h
      · exact .inr (List.mem_cons_of_mem _ h)
    · rcases List.mem_cons.1 h with h | h
      · exact .inr (h ▸ List.mem_cons_self ..)
      · rcases mem_insertCell h with h | h
        · exact .inl h
        · exact .inr (List.mem_cons_of_mem _ h)

theorem insertCell_rising (x : Nat) (b : Byte) :
    ∀ {l : List Host.Cell}, l.Pairwise (fun c c' => c.1 < c'.1) → (insertCell x b l).Pairwise (fun c c' => c.1 < c'.1)
  | [], _ => by simp [insertCell]
  | (y, c) :: rest, h => by
    obtain ⟨hy, hrest⟩ := List.pairwise_cons.1 h
    unfold insertCell
    split_ifs with h1 h2
    · refine List.pairwise_cons.2 ⟨fun e he => ?_, h⟩
      rcases List.mem_cons.1 he with rfl | he
      · exact h1
      · exact lt_trans h1 (hy e he)
    · subst h2
      exact List.pairwise_cons.2 ⟨hy, hrest⟩
    · refine List.pairwise_cons.2 ⟨fun e he => ?_, insertCell_rising x b hrest⟩
      rcases mem_insertCell he with rfl | he
      · show y < x
        omega
      · exact hy e he

/-! ### Writing bytes and words -/

theorem writeByte_byte? (m : Memory) (x z : Nat) (b : Byte) :
    (m.writeByte x b).byte? z = if z = x then some b else m.byte? z := by
  split_ifs with h
  · subst h; exact lookupCell_insertCell_same _ _ _
  · exact lookupCell_insertCell_other b h _

theorem writeBytes_byte? (a : Nat) (w : Word) (z : Nat) : ∀ (n k : Nat) (m : Memory),
    (m.writeBytes a w k n).byte? z =
      if 8 * a + k ≤ z ∧ z < 8 * a + k + n then some (byteOfWord w (z - 8 * a)) else m.byte? z
  | 0, k, m => by
    rw [if_neg (by omega)]; rfl
  | n + 1, k, m => by
    rw [Memory.writeBytes, writeBytes_byte? a w z n (k + 1), writeByte_byte?]
    by_cases h : z = 8 * a + k
    · subst h
      rw [if_neg (by omega), if_pos rfl, if_pos (by omega)]
      congr 2
      omega
    · rw [if_neg h]
      by_cases h' : 8 * a + k ≤ z ∧ z < 8 * a + k + (n + 1)
      · rw [if_pos (by omega), if_pos h']
      · rw [if_neg (by omega), if_neg h']

/-- A byte after a word was written (20_memory.md R44). -/
theorem writeWord_byte (pu : Nat → Byte) (m : Memory) (a : Nat) (w : Word) (z : Nat) :
    (m.writeWord a w).byte pu z = if 8 * a ≤ z ∧ z < 8 * (a + 1) then byteOfWord w (z - 8 * a) else m.byte pu z := by
  unfold Memory.byte Memory.writeWord
  rw [writeBytes_byte?]
  by_cases h : 8 * a ≤ z ∧ z < 8 * (a + 1)
  · rw [if_pos (by omega), if_pos h]; rfl
  · rw [if_neg (by omega), if_neg h]

/-- A word after a word was written: reading after writing, and every other word as before. -/
theorem writeWord_word (pu : Nat → Byte) (m : Memory) (a b : Nat) (w : Word) :
    (m.writeWord a w).word pu b = if b = a then w else m.word pu b := by
  split_ifs with h
  · subst h
    refine wordOfBytes_eq fun k hk => ?_
    rw [writeWord_byte, if_pos (by omega)]
    congr 1
    omega
  · refine wordOfBytes_congr fun k hk => ?_
    rw [writeWord_byte, if_neg (by omega)]

/-! ### Words of an integer, and spans -/

theorem wordAt_lt (i v : Nat) : wordAt i v < 2 ^ 64 := Nat.mod_lt _ (by norm_num)

theorem wordAt_succ (i v : Nat) : wordAt (i + 1) v = wordAt i (v / 2 ^ 64) := by
  unfold wordAt
  rw [Nat.div_div_eq_div_mul, ← pow_add, show 64 * (i + 1) = 64 + 64 * i by ring]

@[simp] theorem wordAt_zero (v : Nat) : wordAt 0 v = v % 2 ^ 64 := by simp [wordAt]

/-- A byte after a span was written: outside the span's words it is as before. -/
theorem writeSpan_byte_outside (pu : Nat → Byte) (z : Nat) : ∀ (n : Nat) (m : Memory) (a v : Nat),
    ¬ (8 * a ≤ z ∧ z < 8 * (a + n)) → (m.writeSpan a n v).byte pu z = m.byte pu z
  | 0, _, _, _, _ => rfl
  | n + 1, m, a, v, h => by
    rw [Memory.writeSpan, writeSpan_byte_outside pu z n _ _ _ (by omega), writeWord_byte, if_neg (by omega)]

/-- A word after a span was written: word j of the value inside it, as before outside. -/
theorem writeSpan_word (pu : Nat → Byte) (b : Nat) : ∀ (n : Nat) (m : Memory) (a v : Nat),
    (m.writeSpan a n v).word pu b =
      if a ≤ b ∧ b < a + n then BitVec.ofNat 64 (wordAt (b - a) v) else m.word pu b
  | 0, m, a, v => by rw [if_neg (by omega)]; rfl
  | n + 1, m, a, v => by
    rw [Memory.writeSpan, writeSpan_word pu b n, writeWord_word]
    by_cases h : b = a
    · subst h
      rw [if_neg (by omega), if_pos rfl, if_pos (by omega), Nat.sub_self]
    · rw [if_neg h]
      by_cases h' : a ≤ b ∧ b < a + (n + 1)
      · rw [if_pos (by omega), if_pos h', show b - a = (b - (a + 1)) + 1 by omega, wordAt_succ]
      · rw [if_neg (by omega), if_neg h']

/-- The bytes of two states agree on a word, so the word reads the same. -/
theorem operandWord_of_bytes {s t : State} {a : Nat}
    (h : ∀ k, k < 8 → t.operandByte (8 * a + k) = s.operandByte (8 * a + k)) : t.operandWord a = s.operandWord a := by
  unfold State.operandWord Memory.word
  exact wordOfBytes_congr h

/-- The words of two states agree on a span, so the span reads the same. -/
theorem readSpan_eq {s t : State} : ∀ (n a : Nat), (∀ j, j < n → t.operandWord (a + j) = s.operandWord (a + j)) →
    t.readSpan a n = s.readSpan a n
  | 0, _, _ => rfl
  | n + 1, a, h => by
    have h0 := h 0 (by omega)
    rw [Nat.add_zero] at h0
    have hrest : t.readSpan (a + 1) n = s.readSpan (a + 1) n :=
      readSpan_eq n (a + 1) fun j hj => by rw [show a + 1 + j = a + (j + 1) by ring]; exact h _ (by omega)
    rw [State.readSpan, State.readSpan, h0, hrest]

/-- The words of a state on a span are the words of an integer, so the span reads that integer, cut to its width. -/
theorem readSpan_of_words {s : State} : ∀ (n a v : Nat),
    (∀ j, j < n → s.operandWord (a + j) = BitVec.ofNat 64 (wordAt j v)) → s.readSpan a n = v % 2 ^ (64 * n)
  | 0, _, v, _ => by simp [State.readSpan, Nat.mod_one]
  | n + 1, a, v, h => by
    have h0 := h 0 (by omega)
    rw [Nat.add_zero, wordAt_zero] at h0
    have hrest : s.readSpan (a + 1) n = v / 2 ^ 64 % 2 ^ (64 * n) := by
      refine readSpan_of_words n (a + 1) (v / 2 ^ 64) fun j hj => ?_
      rw [show a + 1 + j = a + (j + 1) by ring, h _ (by omega), wordAt_succ]
    rw [State.readSpan, h0, hrest, BitVec.toNat_ofNat, Nat.mod_mod, show 64 * (n + 1) = 64 + 64 * n by ring, pow_add,
      Nat.mod_mul]

theorem readSpan_lt (s : State) : ∀ (n a : Nat), s.readSpan a n < 2 ^ (64 * n)
  | 0, _ => by simp [State.readSpan]
  | n + 1, a => by
    have h := readSpan_lt s n (a + 1)
    have h' := (s.operandWord a).isLt
    have hp : 2 ^ (64 * (n + 1)) = 2 ^ 64 * 2 ^ (64 * n) := by rw [← pow_add]; congr 1; ring
    rw [State.readSpan, hp]
    nlinarith

/-- An operand is below 2^(64n) (00_scope.md R8). -/
theorem memRead_lt (s : State) (a : Addr) (n : Nat) : s.memRead a n < 2 ^ (64 * n) := readSpan_lt s n _

/-- Word j of a span that was read is the word stored there (00_scope.md R7, R8). -/
theorem wordAt_readSpan (s : State) : ∀ (n a j : Nat), j < n → wordAt j (s.readSpan a n) = (s.operandWord (a + j)).toNat
  | 0, _, _, h => by omega
  | n + 1, a, 0, _ => by
    rw [wordAt_zero, State.readSpan, Nat.add_mul_mod_self_left, Nat.mod_eq_of_lt (s.operandWord a).isLt, Nat.add_zero]
  | n + 1, a, j + 1, h => by
    rw [wordAt_succ, State.readSpan, Nat.add_mul_div_left _ _ (by norm_num),
      Nat.div_eq_of_lt (s.operandWord a).isLt, Nat.zero_add, wordAt_readSpan s n (a + 1) j (by omega),
      show a + 1 + j = a + (j + 1) by ring]

/-! ### MemWrite and MemRead (00_scope.md R8) -/

theorem memWrite_operandByte_outside (s : State) (d : Addr) (n v : Nat) {x : Nat}
    (h : ¬ (8 * d.toNat ≤ x ∧ x < 8 * (d.toNat + n))) : (s.memWrite d n v).operandByte x = s.operandByte x :=
  writeSpan_byte_outside _ x n _ _ _ h

theorem memWrite_operandWord (s : State) (d : Addr) (n v b : Nat) :
    (s.memWrite d n v).operandWord b =
      if d.toNat ≤ b ∧ b < d.toNat + n then BitVec.ofNat 64 (wordAt (b - d.toNat) v) else s.operandWord b :=
  writeSpan_word _ b n _ _ _

/-- Reading the span just written gives the value written, cut to the span's width. -/
theorem memWrite_memRead_same (s : State) (d : Addr) (n v : Nat) : (s.memWrite d n v).memRead d n = v % 2 ^ (64 * n) := by
  refine readSpan_of_words n _ v fun j hj => ?_
  rw [memWrite_operandWord, if_pos (by omega), Nat.add_sub_cancel_left]

/-- Reading a span that the written one does not meet gives what it gave. -/
theorem memWrite_readSpan_disjoint (s : State) (d : Addr) (n v a k : Nat) (h : a + k ≤ d.toNat ∨ d.toNat + n ≤ a) :
    (s.memWrite d n v).readSpan a k = s.readSpan a k :=
  readSpan_eq k a fun j hj => by rw [memWrite_operandWord, if_neg (by omega)]

/-! ### draw(n) -/

theorem drawValue_lt : ∀ (n k : Nat), drawValue k n < 2 ^ (64 * n)
  | 0, _ => by simp [drawValue]
  | n + 1, k => by
    have h := drawValue_lt n (k + 1)
    have h' := (Config.freeWord k).isLt
    have hp : 2 ^ (64 * (n + 1)) = 2 ^ 64 * 2 ^ (64 * n) := by rw [← pow_add]; congr 1; ring
    rw [drawValue, hp]
    nlinarith

/-- Word j of draw(n) is the j-th free word from the counter on. -/
theorem wordAt_drawValue : ∀ (n k j : Nat), j < n → wordAt j (drawValue k n) = (Config.freeWord (k + j)).toNat
  | 0, _, _, h => by omega
  | n + 1, k, 0, _ => by
    rw [wordAt_zero, drawValue, Nat.add_mul_mod_self_left, Nat.mod_eq_of_lt (Config.freeWord k).isLt, Nat.add_zero]
  | n + 1, k, j + 1, h => by
    rw [wordAt_succ, drawValue, Nat.add_mul_div_left _ _ (by norm_num),
      Nat.div_eq_of_lt (Config.freeWord k).isLt, Nat.zero_add, wordAt_drawValue n (k + 1) j (by omega),
      show k + 1 + j = k + (j + 1) by ring]

/-! ### The canonical form is kept -/

theorem writeByte_wf {m : Memory} (h : m.wf) {x : Nat} (hx : x < storeBytes) (b : Byte) : (m.writeByte x b).wf :=
  ⟨insertCell_rising x b h.1, fun e he => (mem_insertCell he).elim (fun h' => h' ▸ hx) (h.2 e)⟩

theorem writeBytes_wf (a : Nat) (w : Word) : ∀ (n k : Nat) (m : Memory), m.wf → 8 * a + k + n ≤ storeBytes →
    (m.writeBytes a w k n).wf
  | 0, _, _, h, _ => h
  | n + 1, k, _, h, hb => writeBytes_wf a w n (k + 1) _ (writeByte_wf h (by omega) _) (by omega)

/-- Writing a word inside the store keeps the canonical form. -/
theorem writeWord_wf {m : Memory} (h : m.wf) {a : Nat} (ha : a < storeWords) (w : Word) : (m.writeWord a w).wf :=
  writeBytes_wf a w 8 0 m h (by unfold storeBytes; omega)

/-- Writing a span inside the store keeps the canonical form. -/
theorem writeSpan_wf : ∀ (n : Nat) (m : Memory) (a v : Nat), m.wf → a + n ≤ storeWords → (m.writeSpan a n v).wf
  | 0, _, _, _, h, _ => h
  | n + 1, _, a, v, h, hb => writeSpan_wf n _ (a + 1) _ (writeWord_wf h (by omega) _) (by omega)

/-- Writing a result inside the store keeps the canonical form of both stores. -/
theorem writeResult_wf {s : State} (hs : s.operands.wf) {d : Addr} {n : Nat} (hd : d.toNat + n ≤ storeWords)
    (r : Option Nat) : (s.writeResult d n r).operands.wf := by
  cases r
  · exact writeSpan_wf n _ _ _ hs hd
  · exact writeSpan_wf n _ _ _ hs hd

end Sys2Proof.Machine
end

