-- ==== Sys2Proof/Laws/Ops.lean ====
section
/-! SUPPORT. Said once: what the shared part of a command can do, what a command can do, what a step can do. -/

namespace Sys2Proof.Machine

open Host (Outcome)

/-! ### The operand-range check (30_encoding.md R65) -/

theorem firstOutOfRange_eq_none {i : Instr} : i.firstOutOfRange = none ↔ i.wellFormed = true := by
  simp [Instr.firstOutOfRange, Instr.wellFormed]

theorem fieldFits_of_wellFormed {i : Instr} (h : i.wellFormed = true) (f : Field) : i.fieldFits f = true := by
  have := List.all_eq_true.1 h f (by cases f <;> simp [Field.all])
  simpa using this

/-- The span of a used field of a well-formed command lies in the store. -/
theorem span_of_wellFormed {i : Instr} (h : i.wellFormed = true) {f : Field} {n : Nat} (hn : i.width f = some n) :
    (i.field f).toNat + n ≤ storeWords := by
  have := fieldFits_of_wellFormed h f
  simpa [Instr.fieldFits, hn, spanFits] using this

theorem destSpan_fits {i : Instr} (h : i.wellFormed = true) {d : Addr} {n : Nat} (hd : destSpan i = some (d, n)) :
    d.toNat + n ≤ storeWords := by
  unfold destSpan at hd
  cases hw : i.width .D with
  | none => simp [hw] at hd
  | some m =>
    simp only [hw, Option.map_some, Option.some.injEq, Prod.mk.injEq] at hd
    obtain ⟨rfl, rfl⟩ := hd
    exact span_of_wellFormed h hw

/-! ### The shared part of a command -/

theorem runCommand_of_wellFormed {i : Instr} (h : i.wellFormed = true) (s : State) (d : Addr) (n : Nat) (r : Option Nat) :
    runCommand i s d n r = (s.writeResult d n r).advance := by
  simp [runCommand, firstOutOfRange_eq_none.2 h]

theorem runCommand_of_not_wellFormed {i : Instr} (h : i.wellFormed = false) (s : State) (d : Addr) (n : Nat)
    (r : Option Nat) : runCommand i s d n r = s.raiseFault .operandRange (encode i) := by
  cases hf : i.firstOutOfRange with
  | none => rw [firstOutOfRange_eq_none.1 hf] at h; cases h
  | some f => simp [runCommand, hf]

/-- All that the shared part of a command can do. -/
theorem runCommand_cases (i : Instr) (s : State) (d : Addr) (n : Nat) (r : Option Nat) :
    (i.wellFormed = true ∧ runCommand i s d n r = (s.writeResult d n r).advance) ∨
    (i.wellFormed = false ∧ runCommand i s d n r = s.raiseFault .operandRange (encode i)) := by
  cases h : i.wellFormed
  · exact .inr ⟨rfl, runCommand_of_not_wellFormed h s d n r⟩
  · exact .inl ⟨rfl, runCommand_of_wellFormed h s d n r⟩

/-! ### What a completed command leaves -/

theorem completedAt_writeResult (s : State) (d : Addr) (n : Nat) (r : Option Nat) :
    CompletedAt s (s.writeResult d n r).advance d n := by
  refine ⟨fun x hx => ?_, fun x => ?_, by simp, by simp, by simp⟩
  · cases r
    · exact writeSpan_byte_outside _ x n _ _ _ hx
    · exact writeSpan_byte_outside _ x n _ _ _ hx
  · exact commandByte_congr (by simp) x

theorem wrote_writeResult (s : State) (d : Addr) (n : Nat) {v : Nat} (hv : v < 2 ^ (64 * n)) :
    Wrote s (s.writeResult d n (some v)).advance d n v := by
  refine ⟨completedAt_writeResult s d n (some v), ?_, rfl⟩
  rw [memRead_congr (advance_operands _), writeResult_some, memWrite_memRead_same, Nat.mod_eq_of_lt hv]

theorem drew_writeResult (s : State) (d : Addr) (n : Nat) : Drew s (s.writeResult d n none).advance d n := by
  refine ⟨completedAt_writeResult s d n none, fun j hj => ?_, rfl⟩
  have h : (s.writeResult d n none).advance.operandWord (d.toNat + j)
      = (s.operands.writeSpan d.toNat n (drawValue s.draws n)).word Config.powerUpOperandByte (d.toNat + j) := rfl
  rw [h, writeSpan_word, if_pos (by omega), Nat.add_sub_cancel_left, wordAt_drawValue n _ j hj, BitVec.ofNat_toNat,
    BitVec.setWidth_eq]

/-- A well-formed command whose result is `some v` writes `v`. -/
theorem runCommand_wrote {i : Instr} (h : i.wellFormed = true) (s : State) (d : Addr) (n : Nat) {v : Nat}
    (hv : v < 2 ^ (64 * n)) : Wrote s (runCommand i s d n (some v)) d n v := by
  rw [runCommand_of_wellFormed h]; exact wrote_writeResult s d n hv

/-- A well-formed command whose result is `none` draws. -/
theorem runCommand_drew {i : Instr} (h : i.wellFormed = true) (s : State) (d : Addr) (n : Nat) :
    Drew s (runCommand i s d n none) d n := by
  rw [runCommand_of_wellFormed h]; exact drew_writeResult s d n

/-- An operand read after a command that completed: as before where the spans do not meet. -/
theorem CompletedAt.readSpan_disjoint {s t : State} {d : Addr} {n : Nat} (h : CompletedAt s t d n) {a k : Nat}
    (hd : a + k ≤ d.toNat ∨ d.toNat + n ≤ a) : t.readSpan a k = s.readSpan a k :=
  readSpan_eq k a fun j hj => operandWord_of_bytes fun i hi => h.1 _ fun hx => by
    obtain ⟨h1, h2⟩ := hx
    omega

/-! ### Each command as the shared part with its result -/

section arms

variable (d a b c : Addr) (s : State)

theorem exec_halt : exec .halt s = .next { s with status := statusDone } := rfl
theorem exec_add64 : exec (.add64 d a b c) s =
    .next (runCommand (.add64 d a b c) s d 2 (addCarry (s.word1 a) (s.word1 b) (s.word1 c))) := rfl
theorem exec_sub64 : exec (.sub64 d a b c) s =
    .next (runCommand (.sub64 d a b c) s d 2 (subBorrow 1 (s.word1 a) (s.word1 b) (s.word1 c))) := rfl
theorem exec_mul64 : exec (.mul64 d a b) s =
    .next (runCommand (.mul64 d a b) s d 2 (some (mulFull (s.word1 a) (s.word1 b)))) := rfl
theorem exec_add128 : exec (.add128 d a b c) s =
    .next (runCommand (.add128 d a b c) s d 3 (addCarry (s.word2 a) (s.word2 b) (s.word1 c))) := rfl
theorem exec_sub128 : exec (.sub128 d a b c) s =
    .next (runCommand (.sub128 d a b c) s d 3 (subBorrow 2 (s.word2 a) (s.word2 b) (s.word1 c))) := rfl
theorem exec_add256 : exec (.add256 d a b c) s =
    .next (runCommand (.add256 d a b c) s d 5 (addCarry (s.element a) (s.element b) (s.word1 c))) := rfl
theorem exec_sub256 : exec (.sub256 d a b c) s =
    .next (runCommand (.sub256 d a b c) s d 5 (subBorrow 4 (s.element a) (s.element b) (s.word1 c))) := rfl
theorem exec_overflowReduce : exec (.overflowReduce d a) s =
    .next (runCommand (.overflowReduce d a) s d 4 (overflowReduce (s.word5 a))) := rfl
theorem exec_fewbitsReduce : exec (.fewbitsReduce d a) s =
    .next (runCommand (.fewbitsReduce d a) s d 4 (fewbitsReduce (s.word5 a))) := rfl
theorem exec_finalReduce : exec (.finalReduce d a) s =
    .next (runCommand (.finalReduce d a) s d 4 (some (finalReduce (s.element a)))) := rfl
theorem exec_fadd : exec (.fadd d a b) s =
    .next (runCommand (.fadd d a b) s d 4 (fadd (s.element a) (s.element b))) := rfl
theorem exec_fsub : exec (.fsub d a b) s =
    .next (runCommand (.fsub d a b) s d 4 (fsub (s.element a) (s.element b))) := rfl
theorem exec_xPlus2y : exec (.xPlus2y d a b) s =
    .next (runCommand (.xPlus2y d a b) s d 4 (xPlusCy 2 (s.element a) (s.element b))) := rfl
theorem exec_xPlus3y : exec (.xPlus3y d a b) s =
    .next (runCommand (.xPlus3y d a b) s d 4 (xPlusCy 3 (s.element a) (s.element b))) := rfl
theorem exec_xPlus4y : exec (.xPlus4y d a b) s =
    .next (runCommand (.xPlus4y d a b) s d 4 (xPlusCy 4 (s.element a) (s.element b))) := rfl
theorem exec_xMinus2y : exec (.xMinus2y d a b) s =
    .next (runCommand (.xMinus2y d a b) s d 4 (xMinusCy s.offset2.value 2 (s.element a) (s.element b))) := rfl
theorem exec_xMinus3y : exec (.xMinus3y d a b) s =
    .next (runCommand (.xMinus3y d a b) s d 4 (xMinusCy offset3 3 (s.element a) (s.element b))) := rfl
theorem exec_xMinus4y : exec (.xMinus4y d a b) s =
    .next (runCommand (.xMinus4y d a b) s d 4 (xMinusCy offset4 4 (s.element a) (s.element b))) := rfl
theorem exec_montRound : exec (.montRound d a b c) s =
    .next (runCommand (.montRound d a b c) s d 6 (montgomeryRound (s.window a) (s.word1 c) (s.element b))) := rfl
theorem exec_montMult : exec (.montMult d a b) s =
    .next (runCommand (.montMult d a b) s d 4 (montgomeryMult (s.element a) (s.element b))) := rfl
theorem exec_toMont : exec (.toMont d a) s =
    .next (runCommand (.toMont d a) s d 4 (montgomeryMult (s.element a) constMont2256)) := rfl
theorem exec_fromMont : exec (.fromMont d a) s =
    .next (runCommand (.fromMont d a) s d 4 ((montgomeryMult (s.element a) constOne).map finalReduce)) := rfl
theorem exec_montCube : exec (.montCube d a) s = .next (runCommand (.montCube d a) s d 4
    ((montgomeryMult (s.element a) (s.element a)).bind (fun sq => montgomeryMult sq (s.element a)))) := rfl

end arms

/-! ### Where each command writes (30_encoding.md R62) -/

section spans

variable (d a b c : Addr)

@[simp] theorem destSpan_halt : destSpan .halt = none := rfl
@[simp] theorem destSpan_add64 : destSpan (.add64 d a b c) = some (d, 2) := rfl
@[simp] theorem destSpan_sub64 : destSpan (.sub64 d a b c) = some (d, 2) := rfl
@[simp] theorem destSpan_mul64 : destSpan (.mul64 d a b) = some (d, 2) := rfl
@[simp] theorem destSpan_add128 : destSpan (.add128 d a b c) = some (d, 3) := rfl
@[simp] theorem destSpan_sub128 : destSpan (.sub128 d a b c) = some (d, 3) := rfl
@[simp] theorem destSpan_add256 : destSpan (.add256 d a b c) = some (d, 5) := rfl
@[simp] theorem destSpan_sub256 : destSpan (.sub256 d a b c) = some (d, 5) := rfl
@[simp] theorem destSpan_overflowReduce : destSpan (.overflowReduce d a) = some (d, 4) := rfl
@[simp] theorem destSpan_fewbitsReduce : destSpan (.fewbitsReduce d a) = some (d, 4) := rfl
@[simp] theorem destSpan_finalReduce : destSpan (.finalReduce d a) = some (d, 4) := rfl
@[simp] theorem destSpan_fadd : destSpan (.fadd d a b) = some (d, 4) := rfl
@[simp] theorem destSpan_fsub : destSpan (.fsub d a b) = some (d, 4) := rfl
@[simp] theorem destSpan_xPlus2y : destSpan (.xPlus2y d a b) = some (d, 4) := rfl
@[simp] theorem destSpan_xPlus3y : destSpan (.xPlus3y d a b) = some (d, 4) := rfl
@[simp] theorem destSpan_xPlus4y : destSpan (.xPlus4y d a b) = some (d, 4) := rfl
@[simp] theorem destSpan_xMinus2y : destSpan (.xMinus2y d a b) = some (d, 4) := rfl
@[simp] theorem destSpan_xMinus3y : destSpan (.xMinus3y d a b) = some (d, 4) := rfl
@[simp] theorem destSpan_xMinus4y : destSpan (.xMinus4y d a b) = some (d, 4) := rfl
@[simp] theorem destSpan_montRound : destSpan (.montRound d a b c) = some (d, 6) := rfl
@[simp] theorem destSpan_montMult : destSpan (.montMult d a b) = some (d, 4) := rfl
@[simp] theorem destSpan_toMont : destSpan (.toMont d a) = some (d, 4) := rfl
@[simp] theorem destSpan_fromMont : destSpan (.fromMont d a) = some (d, 4) := rfl
@[simp] theorem destSpan_montCube : destSpan (.montCube d a) = some (d, 4) := rfl

end spans

/-! ### What a command can do -/

/-- Every command answers a next state: `HALT` ends the run, every other command takes `OPERAND_RANGE` when it is not well
formed and otherwise writes some result to its destination and advances. -/
theorem exec_cases (i : Instr) (s : State) :
    (i = .halt ∧ exec i s = .next { s with status := statusDone }) ∨
    ∃ d n r, destSpan i = some (d, n) ∧
      ((i.wellFormed = true ∧ exec i s = .next (s.writeResult d n r).advance) ∨
       (i.wellFormed = false ∧ exec i s = .next (s.raiseFault .operandRange (encode i)))) := by
  have key : ∀ d n r, destSpan i = some (d, n) → exec i s = .next (runCommand i s d n r) →
      ∃ d n r, destSpan i = some (d, n) ∧
        ((i.wellFormed = true ∧ exec i s = .next (s.writeResult d n r).advance) ∨
         (i.wellFormed = false ∧ exec i s = .next (s.raiseFault .operandRange (encode i)))) := by
    intro d n r hd he
    refine ⟨d, n, r, hd, ?_⟩
    rw [he]
    rcases runCommand_cases i s d n r with ⟨hw, hr⟩ | ⟨hw, hr⟩
    · exact .inl ⟨hw, by rw [hr]⟩
    · exact .inr ⟨hw, by rw [hr]⟩
  cases i
  case halt => exact .inl ⟨rfl, rfl⟩
  case add64 => exact .inr (key _ _ _ (destSpan_add64 _ _ _ _) (exec_add64 _ _ _ _ s))
  case sub64 => exact .inr (key _ _ _ (destSpan_sub64 _ _ _ _) (exec_sub64 _ _ _ _ s))
  case mul64 => exact .inr (key _ _ _ (destSpan_mul64 _ _ _) (exec_mul64 _ _ _ s))
  case add128 => exact .inr (key _ _ _ (destSpan_add128 _ _ _ _) (exec_add128 _ _ _ _ s))
  case sub128 => exact .inr (key _ _ _ (destSpan_sub128 _ _ _ _) (exec_sub128 _ _ _ _ s))
  case add256 => exact .inr (key _ _ _ (destSpan_add256 _ _ _ _) (exec_add256 _ _ _ _ s))
  case sub256 => exact .inr (key _ _ _ (destSpan_sub256 _ _ _ _) (exec_sub256 _ _ _ _ s))
  case overflowReduce => exact .inr (key _ _ _ (destSpan_overflowReduce _ _) (exec_overflowReduce _ _ s))
  case fewbitsReduce => exact .inr (key _ _ _ (destSpan_fewbitsReduce _ _) (exec_fewbitsReduce _ _ s))
  case finalReduce => exact .inr (key _ _ _ (destSpan_finalReduce _ _) (exec_finalReduce _ _ s))
  case fadd => exact .inr (key _ _ _ (destSpan_fadd _ _ _) (exec_fadd _ _ _ s))
  case fsub => exact .inr (key _ _ _ (destSpan_fsub _ _ _) (exec_fsub _ _ _ s))
  case xPlus2y => exact .inr (key _ _ _ (destSpan_xPlus2y _ _ _) (exec_xPlus2y _ _ _ s))
  case xPlus3y => exact .inr (key _ _ _ (destSpan_xPlus3y _ _ _) (exec_xPlus3y _ _ _ s))
  case xPlus4y => exact .inr (key _ _ _ (destSpan_xPlus4y _ _ _) (exec_xPlus4y _ _ _ s))
  case xMinus2y => exact .inr (key _ _ _ (destSpan_xMinus2y _ _ _) (exec_xMinus2y _ _ _ s))
  case xMinus3y => exact .inr (key _ _ _ (destSpan_xMinus3y _ _ _) (exec_xMinus3y _ _ _ s))
  case xMinus4y => exact .inr (key _ _ _ (destSpan_xMinus4y _ _ _) (exec_xMinus4y _ _ _ s))
  case montRound => exact .inr (key _ _ _ (destSpan_montRound _ _ _ _) (exec_montRound _ _ _ _ s))
  case montMult => exact .inr (key _ _ _ (destSpan_montMult _ _ _) (exec_montMult _ _ _ s))
  case toMont => exact .inr (key _ _ _ (destSpan_toMont _ _) (exec_toMont _ _ s))
  case fromMont => exact .inr (key _ _ _ (destSpan_fromMont _ _) (exec_fromMont _ _ s))
  case montCube => exact .inr (key _ _ _ (destSpan_montCube _ _) (exec_montCube _ _ s))

/-- The inversion of `exec`: what `t` is when a command answers it. -/
theorem exec_next {i : Instr} {s t : State} (h : exec i s = .next t) :
    (i = .halt ∧ t = { s with status := statusDone }) ∨
    (i.wellFormed = false ∧ t = s.raiseFault .operandRange (encode i)) ∨
    (i.wellFormed = true ∧ ∃ d n r, destSpan i = some (d, n) ∧ t = (s.writeResult d n r).advance) := by
  rcases exec_cases i s with ⟨hi, he⟩ | ⟨d, n, r, hd, ⟨hw, he⟩ | ⟨hw, he⟩⟩
  · rw [he] at h; cases h; exact .inl ⟨hi, rfl⟩
  · rw [he] at h; cases h; exact .inr (.inr ⟨hw, d, n, r, hd, rfl⟩)
  · rw [he] at h; cases h; exact .inr (.inl ⟨hw, rfl⟩)

/-! ### What a step can do -/

/-- The inversion of `step` (44_sequencer.md R151). -/
theorem step_next {s t : State} (h : step s = .next t) :
    s.runState = some .running ∧
    ((s.pcOutOfStore = true ∧ t = s.raiseFault .commandRange 0) ∨
     (s.pcOutOfStore = false ∧ (∃ r, decode s.fetchWord = .error r) ∧ t = s.raiseFault .illegalCommand s.fetchWord) ∨
     (s.pcOutOfStore = false ∧ ∃ i, decode s.fetchWord = .ok i ∧ exec i s = .next t)) := by
  unfold step at h
  split_ifs at h with hr hp
  · exact ⟨hr, .inl ⟨hp, by cases h; rfl⟩⟩
  · refine ⟨hr, .inr ?_⟩
    have hp' : s.pcOutOfStore = false := by simpa using hp
    split at h
    · rename_i r hd
      exact .inl ⟨hp', ⟨r, hd⟩, by cases h; rfl⟩
    · rename_i i hd
      exact .inr ⟨hp', i, hd, h⟩

end Sys2Proof.Machine
end

