-- ==== Sys2Proof/Laws/PerInstr.lean ====
section
/-! SUPPORT. A statement about every command as syntax, proved command by command: the fields of its word
(30_encoding.md R60, R62, R64). -/

namespace Sys2Proof.Laws.EncodingFields

open Sys2Proof

/-- The command's word holds its opcode value in `OP`, 0 in `RSV`, the command's addresses in the address fields, and 0 in every
field its opcode does not use. -/
def Statement (i : Instr) : Prop :=
  fieldOp (encode i) = i.opcode.code ∧ fieldRsv (encode i) = 0 ∧
  (∀ f, fieldAddr (encode i) f = i.field f) ∧ ∀ f, i.width f = none → fieldAddr (encode i) f = 0

/-- The fields of a word do not depend on the opcode: what is left to each command is that its unused fields are 0. -/
theorem of_unused {i : Instr} (h : ∀ f, i.width f = none → i.field f = 0) : Statement i := by
  have hf : ∀ f, fieldAddr (encode i) f = i.field f := by intro f; cases f <;> simp [encode]
  exact ⟨by simp [encode], by simp [encode], hf, fun f hn => (hf f).trans (h f hn)⟩

theorem halt : Statement .halt := of_unused fun f _ => by cases f <;> rfl
theorem add64 (d a b c : Addr) : Statement (.add64 d a b c) :=
  of_unused fun f h => by cases f <;> first | rfl | cases h
theorem sub64 (d a b c : Addr) : Statement (.sub64 d a b c) :=
  of_unused fun f h => by cases f <;> first | rfl | cases h
theorem mul64 (d a b : Addr) : Statement (.mul64 d a b) :=
  of_unused fun f h => by cases f <;> first | rfl | cases h
theorem add128 (d a b c : Addr) : Statement (.add128 d a b c) :=
  of_unused fun f h => by cases f <;> first | rfl | cases h
theorem sub128 (d a b c : Addr) : Statement (.sub128 d a b c) :=
  of_unused fun f h => by cases f <;> first | rfl | cases h
theorem add256 (d a b c : Addr) : Statement (.add256 d a b c) :=
  of_unused fun f h => by cases f <;> first | rfl | cases h
theorem sub256 (d a b c : Addr) : Statement (.sub256 d a b c) :=
  of_unused fun f h => by cases f <;> first | rfl | cases h
theorem overflowReduce (d a : Addr) : Statement (.overflowReduce d a) :=
  of_unused fun f h => by cases f <;> first | rfl | cases h
theorem fewbitsReduce (d a : Addr) : Statement (.fewbitsReduce d a) :=
  of_unused fun f h => by cases f <;> first | rfl | cases h
theorem finalReduce (d a : Addr) : Statement (.finalReduce d a) :=
  of_unused fun f h => by cases f <;> first | rfl | cases h
theorem fadd (d a b : Addr) : Statement (.fadd d a b) :=
  of_unused fun f h => by cases f <;> first | rfl | cases h
theorem fsub (d a b : Addr) : Statement (.fsub d a b) :=
  of_unused fun f h => by cases f <;> first | rfl | cases h
theorem xPlus2y (d a b : Addr) : Statement (.xPlus2y d a b) :=
  of_unused fun f h => by cases f <;> first | rfl | cases h
theorem xPlus3y (d a b : Addr) : Statement (.xPlus3y d a b) :=
  of_unused fun f h => by cases f <;> first | rfl | cases h
theorem xPlus4y (d a b : Addr) : Statement (.xPlus4y d a b) :=
  of_unused fun f h => by cases f <;> first | rfl | cases h
theorem xMinus2y (d a b : Addr) : Statement (.xMinus2y d a b) :=
  of_unused fun f h => by cases f <;> first | rfl | cases h
theorem xMinus3y (d a b : Addr) : Statement (.xMinus3y d a b) :=
  of_unused fun f h => by cases f <;> first | rfl | cases h
theorem xMinus4y (d a b : Addr) : Statement (.xMinus4y d a b) :=
  of_unused fun f h => by cases f <;> first | rfl | cases h
theorem montRound (d a b c : Addr) : Statement (.montRound d a b c) :=
  of_unused fun f h => by cases f <;> first | rfl | cases h
theorem montMult (d a b : Addr) : Statement (.montMult d a b) :=
  of_unused fun f h => by cases f <;> first | rfl | cases h
theorem toMont (d a : Addr) : Statement (.toMont d a) :=
  of_unused fun f h => by cases f <;> first | rfl | cases h
theorem fromMont (d a : Addr) : Statement (.fromMont d a) :=
  of_unused fun f h => by cases f <;> first | rfl | cases h
theorem montCube (d a : Addr) : Statement (.montCube d a) :=
  of_unused fun f h => by cases f <;> first | rfl | cases h

end Sys2Proof.Laws.EncodingFields
end

