-- ==== Sys2Proof/Tests/Slice0.lean ====
section
/-! SUPPORT. Tests on fixed words and states: the checks of WellFormed, the words the spec writes out (95_test_vectors.md section
3.5), one or two of the spec's vectors for each command (95_test_vectors.md section 3), the fault vectors, the host's moves, the
assembler; and, for each statement with hypotheses, a `witness_` theorem that meets them. Every expected value is the spec's. -/

namespace Sys2Proof.Machine.Tests

set_option Elab.async false

open Host (Outcome)

/-! ### Small states -/

/-- A RUNNING engine whose operand store holds the given words at the given addresses, and nothing else written. -/
def load (l : List (Nat × List Nat)) : State :=
  l.foldl (fun s e => { s with operands := s.operands.writeSpan e.1 e.2.length (valWords e.2) })
    { State.reset with status := statusRunning }

/-- `s` with the words `ws` in its command store from index `k` on, and `PC` = k. -/
def atCommands (k : Nat) (ws : List Nat) (s : State) : State :=
  { s with commands := s.commands.writeSpan k ws.length (valWords ws), pc := BitVec.ofNat 13 k }

/-- The destination words of a command run on `s`; none where there is no next state. -/
def result (i : Instr) (s : State) : List Nat :=
  match exec i s, destSpan i with
  | .next t, some (d, n) => (List.range n).map (fun j => (t.operandWord (d.toNat + j)).toNat)
  | _, _ => []

/-- `STATUS` and how many words a command run on `s` has drawn. -/
def drawsOf (i : Instr) (s : State) : Option (Word × Nat) :=
  match exec i s with
  | .next t => some (t.status, t.draws)
  | _ => none

/-- `STATUS`, `PC` and `ERRCMD` of an outcome. -/
def registersOf : Outcome State Fault Refusal → Option (Word × Nat × Word)
  | .next t => some (t.status, t.pc.toNat, t.errcmd)
  | _ => none

/-- The operand word at `a` of an outcome. -/
def wordOf (a : Nat) : Outcome State Fault Refusal → Option Word
  | .next t => some (t.operandWord a)
  | _ => none

/-! ### WellFormed: each check refuses an ill-formed term (20_memory.md R46, 30_encoding.md R65) -/

theorem test_wellFormed_D : (Instr.mul64 4095 0 1).wellFormed = false := by decide
theorem test_wellFormed_D_round : (Instr.montRound 4091 0 8 12).wellFormed = false := by decide
theorem test_wellFormed_A : (Instr.finalReduce 0 4093).wellFormed = false := by decide
theorem test_wellFormed_B : (Instr.add128 0 4 4095 8).wellFormed = false := by decide
theorem test_wellFormed_B_round : (Instr.montRound 0 8 4093 16).wellFormed = false := by decide
/-- Every C operand is one word, and a word at any 12-bit address lies in the store: no C makes a command ill-formed. -/
theorem test_wellFormed_C : (Instr.add64 0 4 8 4095).wellFormed = true := by decide
theorem test_wellFormed_last : (Instr.montRound 4090 4090 4092 4095).wellFormed = true := by decide
theorem test_wellFormed_halt : Instr.halt.wellFormed = true := by decide

/-! ### The words the spec writes out (95_test_vectors.md section 3.5): decoded and encoded -/

/-- Every sample word with its command. -/
def samples : List (Word × Instr) :=
  [(0x0000000000000000, .halt), (0x0004003002001001, .add64 16 32 48 64), (0x0004003002001002, .sub64 16 32 48 64),
   (0x0000003002001003, .mul64 16 32 48), (0x0004003002001004, .add128 16 32 48 64), (0x0004003002001005, .sub128 16 32 48 64),
   (0x0004003002001006, .add256 16 32 48 64), (0x0004003002001007, .sub256 16 32 48 64), (0x0000000002001010, .overflowReduce 16 32),
   (0x0000000002001011, .fewbitsReduce 16 32), (0x0000000002001012, .finalReduce 16 32), (0x0000003002001020, .fadd 16 32 48),
   (0x0000003002001021, .fsub 16 32 48), (0x0000003002001022, .xPlus2y 16 32 48), (0x0000003002001023, .xPlus3y 16 32 48),
   (0x0000003002001024, .xPlus4y 16 32 48), (0x0000003002001025, .xMinus2y 16 32 48), (0x0000003002001026, .xMinus3y 16 32 48),
   (0x0000003002001027, .xMinus4y 16 32 48), (0x0004003002001030, .montRound 16 32 48 64), (0x0000003002001031, .montMult 16 32 48),
   (0x0000000002001032, .toMont 16 32), (0x0000000002001033, .fromMont 16 32), (0x0000000002001034, .montCube 16 32)]

theorem test_samples_decode : ∀ e ∈ samples, decode e.1 = .ok e.2 := by decide +kernel
theorem test_samples_encode : ∀ e ∈ samples, encodeWords e.2 = [e.1] := by decide +kernel
theorem test_samples_table : ∀ e ∈ samples, decodeTableWord 64 e.1.toNat = some e.2 := by decide +kernel
theorem test_samples_cover : samples.map (fun e => e.2.opcode) = Opcode.all := by decide

/-- FADD @8, @0, @4 and ADD64 @16, @0, @1, @2, the words of 30_encoding.md R67, field by field. -/
theorem test_fields : decode 0b0000000000000000000000000000010000000000000000000000100000100000 = .ok (.fadd 8 0 4) ∧
    decode 0x0000200100001001 = .ok (.add64 16 0 1 2) := by decide
theorem test_reject_unassigned : decode 0x08 = .error (.unassignedOpcode 0x08) ∧ decode 0xff = .error (.unassignedOpcode 0xff) := by
  decide
theorem test_reject_reserved : decode 0x0100000400000820 = .error (.reservedNotZero 1) := by decide
theorem test_reject_unused_D : decode 0x0000000000000100 = .error (.unusedNotZero .D) := by decide
theorem test_reject_unused_B : decode 0x0000000400000812 = .error (.unusedNotZero .B) := by decide
theorem test_reject_unused_C : decode 0x0000500100001003 = .error (.unusedNotZero .C) := by decide
/-- A bit above the word belongs to no command. -/
theorem test_table_word_too_wide : decodeTableWord 72 (2 ^ 64) = none := by decide

/-! ### The vectors of the commands (95_test_vectors.md section 3.1 to section 3.4) -/

theorem test_add64 :
    result (.add64 24 0 8 16) (load [(0, [0xffffffffffffffff]), (8, [0xffffffffffffffff]), (16, [1])]) =
      [0xffffffffffffffff, 1] := by
  decide +kernel
theorem test_sub64 :
    result (.sub64 24 0 8 16) (load [(0, [5]), (8, [5]), (16, [1])]) = [0xffffffffffffffff, 1] := by
  decide +kernel
theorem test_mul64 :
    result (.mul64 24 0 8) (load [(0, [0x123456789abcdef0]), (8, [0xfedcba987654321])]) = [0x2236d88fe5618cf0,
      0x121fa00ad77d742] := by
  decide +kernel
theorem test_add128 :
    result (.add128 24 0 8 16) (load [(0, [0xffffffffffffffff, 0xffffffffffffffff]), (8, [0xffffffffffffffff,
      0xffffffffffffffff]), (16, [1])]) = [0xffffffffffffffff, 0xffffffffffffffff, 1] := by
  decide +kernel
theorem test_sub128 :
    result (.sub128 24 0 8 16) (load [(0, [0, 1]), (8, [1, 0]), (16, [0])]) = [0xffffffffffffffff, 0, 0] := by
  decide +kernel
theorem test_sub128_2 :
    result (.sub128 24 0 8 16) (load [(0, [5, 5]), (8, [5, 5]), (16, [1])]) = [0xffffffffffffffff, 0xffffffffffffffff, 1]
      := by
  decide +kernel
theorem test_add256 :
    result (.add256 24 0 8 16) (load [(0, [0xffffffffffffffff, 0xffffffffffffffff, 0xffffffffffffffff,
      0xffffffffffffffff]), (8, [0xffffffffffffffff, 0xffffffffffffffff, 0xffffffffffffffff, 0xffffffffffffffff]), (16,
      [1])]) = [0xffffffffffffffff, 0xffffffffffffffff, 0xffffffffffffffff, 0xffffffffffffffff, 1] := by
  decide +kernel
theorem test_sub256 :
    result (.sub256 24 0 8 16) (load [(0, [0, 0, 0, 0]), (8, [1, 0, 0, 0]), (16, [0])]) = [0xffffffffffffffff,
      0xffffffffffffffff, 0xffffffffffffffff, 0xffffffffffffffff, 1] := by
  decide +kernel
theorem test_sub256_2 :
    result (.sub256 24 0 8 16) (load [(0, [2, 0, 0, 0x1000000000000022]), (8, [1, 0, 0, 0x800000000000011]), (16, [0])]) =
      [1, 0, 0, 0x800000000000011, 0] := by
  decide +kernel
theorem test_overflowReduce :
    result (.overflowReduce 24 0) (load [(0, [0, 0, 0, 0, 1])]) = [0xfffffffffffffff0, 0xffffffffffffffff,
      0xffffffffffffffff, 0x7ffffffffffffeef] := by
  decide +kernel
theorem test_overflowReduce_draws :
    drawsOf (.overflowReduce 24 0) (load [(0, [7, 0, 0, 0, 2])]) = some (0b001, 4) := by
  decide +kernel
theorem test_fewbitsReduce :
    result (.fewbitsReduce 24 0) (load [(0, [0x1f, 0, 0, 0x220, 1])]) = [0, 0, 0, 0x800000000000011] := by
  decide +kernel
theorem test_fewbitsReduce_2 :
    result (.fewbitsReduce 24 0) (load [(0, [0, 0, 0, 0, 0x3c3c3c3c3c3c4])]) = [0xff87878787878781, 0xffffffffffffffff,
      0xffffffffffffffff, 0xffffffffffffff90] := by
  decide +kernel
theorem test_finalReduce :
    result (.finalReduce 24 0) (load [(0, [0x1f, 0, 0, 0xf80000000000020f])]) = [0, 0, 0, 0] := by
  decide +kernel
theorem test_finalReduce_2 :
    result (.finalReduce 24 0) (load [(0, [0xffffffffffffffff, 0xffffffffffffffff, 0xffffffffffffffff,
      0xffffffffffffffff])]) = [0xffffffffffffffe0, 0xffffffffffffffff, 0xffffffffffffffff, 0x7fffffffffffdf0] := by
  decide +kernel
theorem test_fadd : result (.fadd 24 0 8) (load [(0, [1, 0, 0, 0]), (8, [1, 0, 0, 0])]) = [2, 0, 0, 0] := by decide +kernel
theorem test_fadd_2 :
    result (.fadd 24 0 8) (load [(0, [1, 0, 0, 0x1000000000000022]), (8, [1, 0, 0, 0x1000000000000022])]) = [2, 0, 0,
      0x2000000000000044] := by
  decide +kernel
theorem test_fsub :
    result (.fsub 24 0 8) (load [(0, [0, 0, 0, 0]), (8, [1, 0, 0, 0x1000000000000022])]) = [0x1f, 0, 0, 0xf0000000000001fe]
      := by
  decide +kernel
theorem test_fsub_2 :
    result (.fsub 24 0 8) (load [(0, [0, 0, 0, 0]), (8, [0xffffffffffffffff, 0xffffffffffffffff, 0xffffffffffffffff,
      0xffffffffffffffff])]) = [0x21, 0, 0, 0x220] := by
  decide +kernel
theorem test_xPlus2y :
    result (.xPlus2y 24 0 8) (load [(0, [0xffffffffffffffff, 0xffffffffffffffff, 0xffffffffffffffff, 0xffffffffffffffff]),
      (8, [0xffffffffffffffff, 0xffffffffffffffff, 0xffffffffffffffff, 0xffffffffffffffff])]) = [0xffffffffffffffbd,
      0xffffffffffffffff, 0xffffffffffffffff, 0xfffffffffffffbbf] := by
  decide +kernel
theorem test_xPlus3y :
    result (.xPlus3y 24 0 8) (load [(0, [0xffffffffffffffff, 0xffffffffffffffff, 0xffffffffffffffff, 0xffffffffffffffff]),
      (8, [0xffffffffffffffff, 0xffffffffffffffff, 0xffffffffffffffff, 0xffffffffffffffff])]) = [0xffffffffffffff9c,
      0xffffffffffffffff, 0xffffffffffffffff, 0xfffffffffffff99f] := by
  decide +kernel
theorem test_xPlus4y :
    result (.xPlus4y 24 0 8) (load [(0, [0xffffffffffffffff, 0xffffffffffffffff, 0xffffffffffffffff, 0xffffffffffffffff]),
      (8, [0xffffffffffffffff, 0xffffffffffffffff, 0xffffffffffffffff, 0xffffffffffffffff])]) = [0xffffffffffffff7b,
      0xffffffffffffffff, 0xffffffffffffffff, 0xfffffffffffff77f] := by
  decide +kernel
theorem test_xMinus2y :
    result (.xMinus2y 24 0 8) (load [(0, [0, 0, 0, 0]), (8, [1, 0, 0, 0x1000000000000022])]) = [0x1e, 0, 0,
      0xe0000000000001dc] := by
  decide +kernel
/-- At the default of `OFFSET_2` the contract is broken; at 64p it is not, and 64p - 2y is 2 * K32 + 2 (42_field_ops.md R123). -/
theorem test_xMinus2y_draws :
    drawsOf (.xMinus2y 24 0 8) (load [(0, [0, 0, 0, 0]), (8, [0xffffffffffffffff, 0xffffffffffffffff, 0xffffffffffffffff,
      0xffffffffffffffff])]) = some (0b001, 4) ∧
    result (.xMinus2y 24 0 8) ((load [(0, [0, 0, 0, 0]), (8, [0xffffffffffffffff, 0xffffffffffffffff, 0xffffffffffffffff,
      0xffffffffffffffff])]).withOffset2 .p64) = [0x42, 0, 0, 0x440] := by
  decide +kernel
theorem test_xMinus3y :
    result (.xMinus3y 24 0 8) (load [(0, [0, 0, 0, 0]), (8, [0xffffffffffffffff, 0xffffffffffffffff, 0xffffffffffffffff,
      0xffffffffffffffff])]) = [0x63, 0, 0, 0x660] := by
  decide +kernel
theorem test_xMinus4y :
    result (.xMinus4y 24 0 8) (load [(0, [0, 0, 0, 0]), (8, [0xffffffffffffffff, 0xffffffffffffffff, 0xffffffffffffffff,
      0xffffffffffffffff])]) = [0x84, 0, 0, 0x880] := by
  decide +kernel
theorem test_montRound :
    result (.montRound 24 0 8 16) (load [(0, [0, 0, 0, 0, 0, 0]), (8, [0xffffffffffffffff, 0xffffffffffffffff,
      0xffffffffffffffff, 0xffffffffffffffff]), (16, [0xffffffffffffffff])]) = [0, 0, 0, 0xf7ffffffffffffef,
      0x80000000000000f, 1] := by
  decide +kernel
theorem test_montRound_draws :
    drawsOf (.montRound 24 0 8 16) (load [(0, [0xffffffffffffffff, 0xffffffffffffffff, 0xffffffffffffffff,
      0xffffffffffffffff, 0xffffffffffffffff, 0xffffffffffffffff]), (8, [0xffffffffffffffff, 0xffffffffffffffff,
      0xffffffffffffffff, 0xffffffffffffffff]), (16, [0xffffffffffffffff])]) = some (0b001, 6) := by
  decide +kernel
theorem test_montMult :
    result (.montMult 24 0 8) (load [(0, [0xffffffffffffffff, 0xffffffffffffffff, 0xffffffffffffffff, 0xffffffffffffffff]),
      (8, [0xffffffffffffffff, 0xffffffffffffffff, 0xffffffffffffffff, 0xffffffffffffffff])]) = [0xffffffffffffffee,
      0xffffffffffffffff, 0x1000000000000120, 0x803ffffffffffef1] := by
  decide +kernel
theorem test_montMult_2 :
    result (.montMult 24 0 8) (load [(0, [1, 0, 0, 0x1000000000000022]), (8, [1, 0, 0, 0x1000000000000022])]) = [1, 0,
      0x1000000000000121, 0x840000000000012] := by
  decide +kernel
theorem test_toMont :
    result (.toMont 24 0) (load [(0, [0xffffffffffffffff, 0xffffffffffffffff, 0xffffffffffffffff, 0xffffffffffffffff])]) =
      [0xfffffd737e000421, 0x1330fffff, 0xffffffffff6f8000, 0x7ffd4ab5e008a30] := by
  decide +kernel
theorem test_fromMont :
    result (.fromMont 24 0) (load [(0, [0xffffffffffffffff, 0xffffffffffffffff, 0xffffffffffffffff, 0xffffffffffffffff])])
      = [2, 0, 0xeffffffffffffedf, 0x7c000000000000f] := by
  decide +kernel
theorem test_montCube :
    result (.montCube 24 0) (load [(0, [0xffffffffffffffff, 0xffffffffffffffff, 0xffffffffffffffff, 0xffffffffffffffff])])
      = [0xffffffffffffffed, 0x1800000000001330, 0x3cc000000000037e, 0x80c1fffffffffef3] := by
  decide +kernel
/-- A carry word of 2 draws both words (00_scope.md R11, 40_carry_chain.md R88). -/
theorem test_add64_draws : drawsOf (.add64 24 0 8 16) (load [(0, [1]), (8, [2]), (16, [2])]) = some (0b001, 2) := by
  decide +kernel
theorem test_halt : registersOf (exec .halt (atCommands 5 [] (load []))) = some (0b010, 5, 0) := by decide

/-! ### The fault and halt vectors, the aliasing vector (95_test_vectors.md section 3.5) -/

/-- The state after one step of an engine that runs the word `w` at `PC` = 0. -/
def oneStep (w : Nat) : Option (Word × Nat × Word) := registersOf (step (atCommands 0 [w] (load [])))

theorem test_step_halt : oneStep 0 = some (0x2, 0, 0) := by decide +kernel
theorem test_step_illegal : oneStep 0x08 = some (0x14, 0, 0x08) ∧ oneStep 0x100 = some (0x14, 0, 0x100) := by decide +kernel
theorem test_step_illegal_reserved : oneStep 0x0100000400000820 = some (0x14, 0, 0x0100000400000820) := by decide +kernel
theorem test_step_range_D : oneStep 0x00000004000ffd20 = some (0x24, 0, 0x00000004000ffd20) := by decide +kernel
theorem test_step_range_A : oneStep 0x00000000ffd00012 = some (0x24, 0, 0x00000000ffd00012) := by decide +kernel
theorem test_step_past_the_end : registersOf (step (atCommands 5000 [] (load []))) = some (0x34, 5000, 0) := by decide +kernel
theorem test_step_last_index :
    registersOf (step (atCommands 4095 [0x0000000400000820] (load [(0, [7, 0, 0, 0, 9, 0, 0, 0])]))) = some (1, 4096, 0) := by
  decide +kernel
/-- ADD64 @4094, @4095, @4095, @4095 with S[4095] = 1 reads before it writes (20_memory.md R47). -/
theorem test_aliasing : result (.add64 4094 4095 4095 4095) (load [(4095, [1])]) = [3, 0] := by decide +kernel
theorem test_idle_takes_no_step : step State.reset = .fault .notRunning := by rfl

/-- Right after reset, a word placed where the first step fetches is the one that runs. -/
theorem test_first_step : step (State.reset.withFetchWord 64 0x0000003002001031) =
    exec (.montMult 16 32 48) (State.reset.withFetchWord 64 0x0000003002001031) := by rfl

/-! ### The host (10_state.md R24 to R28, 20_memory.md R44, R56, 70_reset_and_hazards.md R180, R182) -/

/-- A FADD at index 0 of an IDLE engine, with 7 and 9 as its operands. -/
def idleFadd : State :=
  { atCommands 0 [0x0000000400000820] (load [(0, [7, 0, 0, 0, 9, 0, 0, 0]), (8, [1, 2, 3, 4])]) with status := 0 }

theorem test_boot : wordOf 8 (moves (startAt 0 ++ [.engine]) idleFadd) = some 0x10 := by decide +kernel
theorem test_pc_write_takes_13_bits : (hostWriteReg 2 0xffffffffffff1388 State.reset).pc = 0x1388 := by decide
theorem test_start_ignored_while_busy : hostWriteReg 0 1 (load []) = load [] := by decide
theorem test_store_refused_while_busy : hostWriteOperand 0 1 (load []) = .refused .hostStoreWhileBusy := by rfl
theorem test_bytes : (load [(1, [0x0807060504030201])]).operandByte 8 = 1 ∧ (load [(1, [0x0807060504030201])]).operandByte 15 = 8 := by
  decide +kernel
/-- Reset inside the FADD, with destination words 0 and 2 new. -/
theorem test_reset_during : wordOf 8 (move (.resetDuring [true, false, true]) idleFadd.start) = some 0x10 ∧
    wordOf 9 (move (.resetDuring [true, false, true]) idleFadd.start) = some 2 ∧
    wordOf 10 (move (.resetDuring [true, false, true]) idleFadd.start) = some 0 ∧
    wordOf 11 (move (.resetDuring [true, false, true]) idleFadd.start) = some 4 := by decide +kernel

/-! ### The assembler (30_encoding.md R67 to R74) -/

theorem test_assemble : (assemble ["FADD @8, @0, @4", ".equ x, 16 ; a name", "  ADD64 @x, @0, @1, @0x2", "", "HALT"]).toOption =
    some [0x0000000400000820, 0x0000200100001001, 0] := by decide +kernel
theorem test_assemble_sum3 : (assemble ["SUM3 @12, @0"]).toOption = some [0x0000000400000c20, 0x0000000800c00c20] := by
  decide +kernel
theorem test_assemble_refuses : assemble ["FADD @8, @0"] = .error .operandCount ∧
    assemble ["MUL64 @4096, @0, @1"] = .error .addressTooLarge ∧ assemble ["HALT @name"] = .error .undefinedName ∧
    assemble ["MUL128 @0, @1, @2"] = .error .unknownMnemonic := by decide +kernel
theorem test_sum9_length : ((Pseudo.sum9 40 44 0).expand).map List.length = some 8 := by decide +kernel

/-! ### Witnesses: states and operands that meet the hypotheses of the statements, at the ends of their ranges -/

/-- Commands stand in the command store from `PC` on, when each of them is found there. -/
theorem programAt_of {s : State} {l : List Instr} (h : s.pc.toNat + l.length ≤ storeWords)
    (hd : ∀ j : Fin l.length, decode (s.commandWord (s.pc.toNat + j)) = .ok (l.get j)) : programAt s l :=
  ⟨h, fun j i hj => by
    obtain ⟨hlt, rfl⟩ := List.getElem?_eq_some_iff.1 hj
    exact hd ⟨j, hlt⟩⟩

/-- Zeros at 0 to 15, ones at 16 and 17: operands of every width, and a carry word of 1. -/
def zeros : State := load [(0, [0, 0, 0, 0, 0, 0, 0, 0, 0, 0, 0, 0, 0, 0, 0, 0, 1, 1])]

/-- Four words of all ones at 0 and at 4, a 1 at 8 and a 2 at 9. -/
def ones : State :=
  load [(0, [0xffffffffffffffff, 0xffffffffffffffff, 0xffffffffffffffff, 0xffffffffffffffff, 0xffffffffffffffff,
    0xffffffffffffffff, 0xffffffffffffffff, 0xffffffffffffffff, 1, 2])]

/-- A RUNNING engine at `PC` = 0 with FADD @8, @0, @4, then FINAL_REDUCE @8, @8, then HALT, over elements that are 0. -/
def program : State := atCommands 0 [0x0000000400000820, 0x0000000000800812, 0] zeros

theorem witness_StepKeepsInvariant : program.Inv ∧ ∃ t, step program = .next t := ⟨by decide +kernel, _, rfl⟩
theorem witness_StepKeepsInvariant_fault : (atCommands 4095 [8] (load [])).Inv ∧
    ∃ t, step (atCommands 4095 [8] (load [])) = .next t := ⟨by decide +kernel, _, rfl⟩
theorem witness_HostMovesKeepInvariant : (Move.writeReg 0 1) ≠ .engine ∧ idleFadd.Inv ∧
    ∃ t, move (.writeReg 0 1) idleFadd = .next t := ⟨by decide, by decide +kernel, _, rfl⟩
theorem witness_HostMovesKeepInvariant_store : idleFadd.Inv ∧ ∃ t, move (.writeOperand 4095 7) idleFadd = .next t :=
  ⟨by decide +kernel, _, rfl⟩
theorem witness_ResetClearsRegistersAndTearsOnlyDestinations : program.executing = some (.fadd 8 0 4) ∧
    (∃ u, exec (.fadd 8 0 4) program = .next u) ∧ isDest (.fadd 8 0 4) 11 = true ∧ [true, false].getD (8 - 8) false = true ∧
    State.reset.executing = none := ⟨by decide +kernel, ⟨_, rfl⟩, by decide, by decide, by decide⟩
theorem witness_EncodeOfDecodeIsTheWord : decode 0x0004003002001030 = .ok (.montRound 16 32 48 64) := by decide
theorem witness_LegalWordsAreTheTableRows : Opcode.montRound.matches 0x0004003002001030 = true ∧
    Opcode.halt.matches 0x0000000000000100 = false ∧ (atCommands 4095 [0x35] (load [])).runState = some .running ∧
    (atCommands 4095 [0x35] (load [])).pc.toNat < 4096 ∧
    decode ((atCommands 4095 [0x35] (load [])).commandWord 4095) = .error (.unassignedOpcode 0x35) := by decide +kernel
theorem witness_StepRunsTheDecodedCommand : (atCommands 4095 [0x0000000400000820] (load [])).runState = some .running ∧
    (atCommands 4095 [0x0000000400000820] (load [])).pc.toNat < 4096 ∧
    decode ((atCommands 4095 [0x0000000400000820] (load [])).commandWord 4095) = .ok (.fadd 8 0 4) := by decide +kernel
theorem witness_EngineStepsOnlyWhenRunning : program.status.extractLsb' 0 3 = 0b001 ∧
    State.reset.status.extractLsb' 0 3 ≠ 0b001 := by decide
theorem witness_HaltEndsTheRun : (atCommands 4095 [0] (load [])).runState = some .running ∧
    (atCommands 4095 [0] (load [])).pc.toNat < 4096 ∧ (atCommands 4095 [0] (load [])).commandWord 4095 = 0 ∧
    (atCommands 4095 [0x100] (load [])).commandWord 4095 = 0x100 ∧ fieldOp 0x100 = 0 := by decide +kernel
theorem witness_OperandRangeFaultsWithoutWriting :
    (∃ f n, (Instr.mul64 4095 0 1).width f = some n ∧ ((Instr.mul64 4095 0 1).field f).toNat + n > 4096) ∧
    (∀ f n, (Instr.mul64 4094 4095 4095).width f = some n → ((Instr.mul64 4094 4095 4095).field f).toNat + n ≤ 4096) :=
  ⟨⟨.D, 2, by decide, by decide⟩, fun f n h => by cases f <;> cases h <;> decide⟩
theorem witness_FaultsAreTakenInPriorityOrder : (atCommands 4096 [] (load [])).runState = some .running ∧
    (atCommands 4096 [] (load [])).pc.toNat ≥ 4096 ∧
    decode ((atCommands 4095 [8] (load [])).commandWord 4095) = .error (.unassignedOpcode 8) ∧
    decode ((atCommands 0 [0x00000004000ffd20] (load [])).commandWord 0) = .ok (.fadd 4093 0 4) ∧
    (Instr.fadd 4093 0 4).wellFormed = false ∧ program.runState = some .running ∧ program.pc.toNat < 4096 ∧
    decode (program.commandWord program.pc.toNat) = .ok (.fadd 8 0 4) ∧ (Instr.fadd 8 0 4).wellFormed = true := by decide +kernel
/-- A FAULTED engine, and a START that changes its STATUS. -/
def faulted : State := (load []).raiseFault .commandRange 0
theorem witness_FaultsAreTakenInPriorityOrder_sticky : faulted.runState = some .faulted ∧
    ∃ u, move (.writeReg 0 1) faulted = .next u ∧ u.status ≠ faulted.status := ⟨by decide, _, rfl, by decide⟩
theorem witness_StartAfterAFaultFaultsAgain : ∃ t, step (atCommands 4096 [] (load [])) = .next t ∧ t.fault = true :=
  ⟨_, rfl, by decide⟩
theorem witness_PcMovesByOneOrTheRunEnds : ∃ t, step program = .next t := ⟨_, rfl⟩
theorem witness_EveryRunEndsWithin4097Steps : program.runState = some .running ∧ program.busy = true ∧
    (atCommands 4096 [] (load [])).pc.toNat = 4096 ∧ ∃ t, step (atCommands 4096 [] (load [])) = .next t :=
  ⟨by decide, by decide, by decide, _, rfl⟩
theorem witness_CommandStoreNeverWrittenByARun : ∃ t, steps 1 program = .next t := ⟨_, rfl⟩
theorem witness_ControlDoesNotDependOnData : SameControl program (atCommands 0 [0x0000000400000820, 0x0000000000800812, 0] ones) ∧
    program.operands ≠ ones.operands ∧ ∃ t, steps 1 program = .next t :=
  ⟨⟨by decide +kernel, by decide, by decide, by decide⟩, by decide +kernel, _, rfl⟩
theorem witness_StraightLineRunExecutesInOrder : program.runState = some .running ∧
    programAt program [.fadd 8 0 4, .finalReduce 8 8] ∧
    ∀ i ∈ [Instr.fadd 8 0 4, .finalReduce 8 8], i ≠ .halt ∧ i.wellFormed = true :=
  ⟨by decide, programAt_of (by decide) (by decide +kernel), by decide⟩
theorem witness_ContractFreeProgramsRunSafely : program.runState = some .running ∧
    programAt program ([.fadd 8 0 4, .finalReduce 8 8] ++ [.halt]) ∧
    ∀ i ∈ [Instr.fadd 8 0 4, .finalReduce 8 8], i.wellFormed = true ∧ i ≠ .halt ∧
      ∀ u : State, u.offset2 = program.offset2 → contract i u = true :=
  ⟨by decide, programAt_of (by decide) (by decide +kernel), fun i hi => by
    rcases List.mem_cons.1 hi with rfl | hi
    · exact ⟨by decide, by decide, fun _ _ => rfl⟩
    · rw [List.mem_singleton.1 hi]; exact ⟨by decide, by decide, fun _ _ => rfl⟩⟩
theorem witness_CommandsWriteOnlyTheirDestination : (∃ t, exec (.fadd 8 0 4) zeros = .next t) ∧
    isDest (.fadd 8 0 4) (63 / 8) = false ∧ isDest (.fadd 8 0 4) (64 / 8) = true ∧ isDest (.fadd 8 0 4) (96 / 8) = false ∧
    (∃ t, exec (.fadd 4093 0 4) zeros = .next t) ∧ (Instr.fadd 4093 0 4).wellFormed = false :=
  ⟨⟨_, rfl⟩, by decide, by decide, by decide, ⟨_, rfl⟩, by decide⟩
theorem witness_OverlapDoesNotChangeTheResult : Opcode.fadd.width .D = some 4 ∧
    (Opcode.fadd.instr 2 0 4 0).wellFormed = true ∧ (Opcode.fadd.instr 4092 0 4 0).wellFormed = true ∧
    Opcode.add64.width .D = some 2 ∧ (Opcode.add64.instr 9 0 4 9).wellFormed = true ∧
    (Opcode.add64.instr 4094 0 4 9).wellFormed = true ∧ contract (.add64 9 0 4 9) ones = false := by decide +kernel
theorem witness_ResultDependsOnTheSourceWordsAlone : (Instr.fadd 24 0 8).wellFormed = true ∧
    (Instr.fadd 24 0 8).width .D = some 4 ∧
    (∀ f m, f ≠ .D → (Instr.fadd 24 0 8).width f = some m →
      zeros.memRead ((Instr.fadd 24 0 8).field f) m = program.memRead ((Instr.fadd 24 0 8).field f) m) ∧
    ((Instr.fadd 24 0 8).opcode = .xMinus2y → zeros.offset2 = program.offset2) ∧ zeros ≠ program ∧
    contract (.fadd 24 0 8) zeros = true :=
  ⟨by decide, by decide, fun f m _ _ => memRead_congr (s := zeros) (t := program) rfl _ m, by decide, by decide +kernel, by decide⟩
theorem witness_FreeValuesExactlyWhereAContractIsBroken : (Instr.add64 4094 0 1 8).wellFormed = true ∧
    (Instr.add64 4094 0 1 8).width .D = some 2 ∧ contract (.add64 4094 0 1 8) ones = true ∧
    contract (.add64 4094 0 1 9) ones = false := by decide +kernel
theorem witness_AddCommandsWriteSumAndCarry : ones.memRead 8 1 = 1 ∧ zeros.memRead 0 1 = 0 ∧
    (Instr.add64 4094 0 4 8).wellFormed = true ∧ (Instr.add128 4093 0 4 8).wellFormed = true ∧
    (Instr.add256 4091 0 4 8).wellFormed = true := by decide +kernel
theorem witness_SubCommandsWriteDifferenceAndBorrow : ones.memRead 8 1 ≤ 1 ∧ (Instr.sub64 4094 0 4 8).wellFormed = true ∧
    (Instr.sub128 4093 0 4 8).wellFormed = true ∧ (Instr.sub256 4091 0 4 8).wellFormed = true ∧
    ones.memRead 0 4 < ones.memRead 4 4 + ones.memRead 8 1 ∧ zeros.memRead 4 4 + zeros.memRead 8 1 ≤ zeros.memRead 0 4 := by
  decide +kernel
theorem witness_Mul64WritesTheFullProduct : (Instr.mul64 4094 4095 0).wellFormed = true := by decide
theorem witness_CarryWordsAboveOneDraw : (Instr.sub256 4091 0 4 9, 5) ∈ [(Instr.add64 4091 0 4 9, 2), (.sub64 4091 0 4 9, 2),
      (.add128 4091 0 4 9, 3), (.sub128 4091 0 4 9, 3), (.add256 4091 0 4 9, 5), (.sub256 4091 0 4 9, 5)] ∧
    (Instr.sub256 4091 0 4 9).wellFormed = true ∧ ones.memRead 9 1 = 2 ∧ ones.memRead 8 1 = 1 := by decide +kernel
theorem witness_SubtractionIsComplementAddition : ones.memRead 8 1 ≤ 1 ∧ (Instr.sub64 4094 0 4 8).wellFormed = true ∧
    (Instr.sub128 4093 0 4 8).wellFormed = true ∧ (Instr.sub256 4091 0 4 8).wellFormed = true := by decide +kernel
theorem witness_WideCommandsAreChainsOfOneWordCommands : ones.memRead 8 1 = 1 ∧ (4091 : Addr).toNat + 5 ≤ 4096 ∧
    (8 : Addr).toNat + 5 ≤ 4096 ∧ disjointSpans (8 : Addr).toNat 5 (4 : Addr).toNat 4 = true ∧
    disjointSpans (8 : Addr).toNat 5 (0 : Addr).toNat 4 = true ∧ disjointSpans (8 : Addr).toNat 3 (6 : Addr).toNat 2 = true ∧
    disjointSpans (8 : Addr).toNat 3 (11 : Addr).toNat 2 = true := by decide +kernel
theorem witness_WideCommandsPropagateCarriesWordByWord :
    (∃ pairs : Nat → List (Nat × Nat), ∀ n, pairs n = (List.range n).map
      (fun j => ((ones.operandWord ((0 : Addr).toNat + j)).toNat, (ones.operandWord ((4 : Addr).toNat + j)).toNat))) ∧
    ones.memRead 8 1 ≤ 1 ∧ (Instr.add128 4093 0 4 8).wellFormed = true ∧ (Instr.add256 4091 0 4 8).wellFormed = true ∧
    (Instr.sub128 4093 0 4 8).wellFormed = true ∧ (Instr.sub256 4091 0 4 8).wellFormed = true :=
  ⟨⟨_, fun _ => rfl⟩, by decide +kernel⟩
/-- Five-word inputs at 0, 8, 16, 24 and 40: a fifth word of 0; of 1 below and at bit 255; of 2^53 - 1; of P / K32. -/
def fives : State := load [(0, [5, 0, 0, 0, 0]), (8, [0, 0, 0, 0, 1]), (16, [0, 0, 0, 0x8000000000000000, 1]),
  (24, [0, 0, 0, 0, 0x1fffffffffffff]), (32, [0, 0, 0, 0x220, 1]),
  (40, [0, 0, 0, 0, 0x3c3c3c3c3c3c3])]
theorem witness_OverflowReduceSubtractsAMultipleOfP : (Instr.overflowReduce 4092 0).wellFormed = true ∧
    fives.memRead 0 5 / 2 ^ 256 = 0 ∧ fives.memRead 8 5 / 2 ^ 256 = 1 ∧ fives.memRead 8 5 / 2 ^ 255 % 2 = 0 ∧
    fives.memRead 16 5 / 2 ^ 256 = 1 ∧ fives.memRead 16 5 / 2 ^ 255 % 2 = 1 := by decide +kernel
theorem witness_FewbitsReduceIsCongruentExactlyInItsMargin : (Instr.fewbitsReduce 4092 24).wellFormed = true ∧
    fives.memRead 24 5 / 2 ^ 256 = 2 ^ 53 - 1 ∧ fives.memRead 24 5 % 2 ^ 256 + P < fives.memRead 24 5 / 2 ^ 256 * K32 ∧
    fives.memRead 32 5 % 2 ^ 256 < fives.memRead 32 5 / 2 ^ 256 * K32 ∧
    fives.memRead 32 5 / 2 ^ 256 * K32 ≤ fives.memRead 32 5 % 2 ^ 256 + P ∧ fives.memRead 0 5 / 2 ^ 256 = 0 ∧
    fives.memRead 40 5 / 2 ^ 256 = P / K32 ∧ P / K32 = 1059670500557763 ∧
    fives.memRead 40 5 % 2 ^ 256 < fives.memRead 40 5 / 2 ^ 256 * K32 ∧
    fives.memRead 40 5 / 2 ^ 256 * K32 ≤ fives.memRead 40 5 % 2 ^ 256 + P := by decide +kernel
theorem witness_FinalReduceWritesTheCanonicalResidue : (Instr.finalReduce 4092 0).wellFormed = true := by decide
theorem witness_FaddWritesTheOverflowReducedSum : (Instr.fadd 4092 0 4).wellFormed = true ∧
    zeros.memRead 0 4 + zeros.memRead 4 4 < 2 ^ 256 ∧ 2 ^ 256 + 2 ^ 255 ≤ ones.memRead 0 4 + ones.memRead 4 4 ∧
    2 ^ 256 ≤ (load [(0, [0, 0, 0, 0x8000000000000000])]).memRead 0 4 + (load [(0, [0, 0, 0, 0x8000000000000000])]).memRead 0 4 ∧
    (load [(0, [0, 0, 0, 0x8000000000000000])]).memRead 0 4 + (load [(0, [0, 0, 0, 0x8000000000000000])]).memRead 0 4 <
      2 ^ 256 + 2 ^ 255 := by decide +kernel
theorem witness_FsubWritesACongruentDifference : (Instr.fsub 4092 0 4).wellFormed = true ∧
    32 * P + ones.memRead 4 4 = ones.memRead 0 4 + 32 * P := by decide +kernel
theorem witness_PlusCommandsWriteACongruentSum : (Instr.xPlus4y 4092 0 4, 4) ∈ [(Instr.xPlus2y 4092 0 4, 2), (.xPlus3y 4092 0 4, 3),
    (.xPlus4y 4092 0 4, 4)] ∧ (Instr.xPlus4y 4092 0 4).wellFormed = true ∧
    (∃ r, r = ones.memRead 0 4 + 4 * ones.memRead 4 4) := ⟨by decide, by decide, _, rfl⟩
theorem witness_MinusThreeAndFourWriteACongruentDifference : (Instr.xMinus4y 4092 0 4, 4, 128) ∈ [(Instr.xMinus3y 4092 0 4, 3, 96),
    (.xMinus4y 4092 0 4, 4, 128)] ∧ (Instr.xMinus4y 4092 0 4).wellFormed = true := by decide
/-- x = 2 at 0, y = 16p + 1 at 4 and 16p + 2 at 8: 2y reaches x + 32p, and passes it. -/
def nearOffset : State := load [(0, [2, 0, 0, 0, 0x11, 0, 0, 0x8000000000000110, 0x12, 0, 0, 0x8000000000000110])]
theorem witness_MinusTwoKeepsOrBreaksItsContract : (Instr.xMinus2y 4092 0 4).wellFormed = true ∧
    (Instr.xMinus2y 4092 0 8).wellFormed = true ∧ nearOffset.offset2 = .p32 ∧ (nearOffset.withOffset2 .p64).offset2 = .p64 ∧
    2 * nearOffset.memRead 4 4 = nearOffset.memRead 0 4 + 32 * P ∧ nearOffset.memRead 0 4 + 32 * P < 2 * nearOffset.memRead 8 4 ∧
    nearOffset.memRead 0 4 < 2 * P := by decide +kernel
theorem witness_Zero4AndCopy4DoWhatTheySay : (4092 : Addr).toNat + 4 ≤ 4096 ∧ zeros.memRead 0 4 = 0 := by decide +kernel
theorem witness_SumPseudoInstructionsAddLeftToRight :
    (∃ el : Nat → Nat, ∀ k, el k = ones.readSpan (0 + 4 * k) 4) ∧ 4092 + 4 ≤ 4096 ∧ 40 + 4 ≤ 4096 ∧
    (Pseudo.sum3 4 0).constraint = true ∧ (Pseudo.sum4 12 4 0).constraint = true ∧ (Pseudo.sum5 4 0).constraint = true ∧
    (Pseudo.sum9 32 4 0).constraint = true ∧ (Pseudo.sum9 4092 36 0).constraint = true ∧
    (Pseudo.sum3 5 0).constraint = false := ⟨⟨_, fun _ => rfl⟩, by decide⟩
/-- A window of zeros at 0 and a window of all ones at 10, with a multiplier word and a multiplicand between. -/
def windows : State := load [(0, [0, 0, 0, 0, 0, 0, 5, 0, 0, 0, 0xffffffffffffffff, 0xffffffffffffffff, 0xffffffffffffffff,
  0xffffffffffffffff, 0xffffffffffffffff, 0xffffffffffffffff])]
theorem witness_MontRoundCancelsTheLowestWord : (Instr.montRound 4090 0 6 6).wellFormed = true ∧
    roundSum (windows.memRead 0 6) (windows.memRead 6 1) (windows.memRead 6 4) < windowLimit ∧
    windowLimit ≤ roundSum (windows.memRead 10 6) (windows.memRead 6 1) (windows.memRead 6 4) ∧
    windows.memRead 0 6 + 2 ^ 321 < windowLimit := by decide +kernel
theorem witness_MontMultIsTheMontgomeryProduct : (Instr.montMult 4092 0 4).wellFormed = true := by decide
theorem witness_MontgomeryResultsAreCongruentAndBounded : (Instr.montMult 4092 0 4).wellFormed = true ∧
    (Instr.toMont 4092 0).wellFormed = true ∧ (Instr.fromMont 4092 0).wellFormed = true ∧
    (Instr.montCube 4092 0).wellFormed = true ∧ zeros.memRead 0 4 < 2 * P ∧ zeros.memRead 4 4 < 2 * P := by decide +kernel
theorem witness_MontgomeryRoundTripAndHomomorphism : (Instr.toMont 0 0).wellFormed = true ∧ (Instr.fromMont 4092 0).wellFormed = true ∧
    (Instr.montMult 0 0 4).wellFormed = true ∧ (Instr.montCube 8 0).wellFormed = true ∧ (Instr.montMult 4 0 0).wellFormed = true ∧
    (Instr.montMult 8 4 0).wellFormed = true ∧ disjointSpans 4 4 0 4 = true := by decide
theorem witness_ExplicitRoundsReproduceMontMult : (4 : Addr).toNat + 9 ≤ 4096 ∧ disjointSpans 4 9 0 4 = true ∧
    disjointSpans 4 9 13 4 = true ∧ zeros.memRead 4 9 = 0 := by decide +kernel
theorem witness_StartAndPcWritesTakeEffectOnlyWhenIdle : State.reset.busy = false ∧ (1 : Word).getLsbD 0 = true ∧
    program.busy = true ∧ (2 : Word).getLsbD 0 = false := by decide
theorem witness_HostStoreAccessOnlyWhenNotBusy : State.reset.busy = false ∧ program.busy = true := by decide
theorem witness_RegisterBlockReadsAndIgnoredWrites : 4 > 3 ∧ (3 = 1 ∨ 3 ≥ 3) := by decide
theorem witness_HostByteViewIsLittleEndian : 7 < 8 := by decide
theorem witness_BootRunsTheCommandTheHostWrote : State.reset.busy = false := by decide
theorem witness_EqualStoresAreEqualData : zeros.operands.wf ∧ program.operands.wf ∧
    ∀ x, zeros.operands.byte? x = program.operands.byte? x := ⟨by decide +kernel, by decide +kernel, fun _ => rfl⟩
theorem witness_AssemblerAcceptsExactlyTheFieldsUsed :
    [8, 0, 4095].length = Field.all.countP (fun f => (Opcode.fadd.width f).isSome) ∧ (∀ n ∈ [8, 0, 4095], n ≤ 4095) ∧
    (∃ n ∈ [8, 0, 4096], n > 4095) ∧ [8, 0].length ≠ Field.all.countP (fun f => (Opcode.fadd.width f).isSome) := by decide

theorem witness_TheParameterIsTakenAndNeverChanged : (∃ t, exec (.xMinus2y 8 0 4) (zeros.withOffset2 .p64) = .next t) ∧
    (∃ t, move .engine (program.withOffset2 .p64) = .next t) ∧ ∃ t, move .reset (program.withOffset2 .p64) = .next t :=
  ⟨⟨_, rfl⟩, ⟨_, rfl⟩, _, rfl⟩

end Sys2Proof.Machine.Tests
end

section
/-! PROOFS. The run states (10_state.md R29): which bits of `STATUS` each of them is, and that a step is taken in RUNNING alone. -/

namespace Sys2Proof.Machine

/-- The value of `STATUS` bits 2:0 in each run state (10_state.md R29). -/
def RunState.statusBits : RunState → BitVec 3
  | .idle => 0b000
  | .running => 0b001
  | .done => 0b010
  | .faulted => 0b100

theorem runState_eq_some_iff (s : State) (r : RunState) :
    s.runState = some r ↔ s.status.extractLsb' 0 3 = r.statusBits := by
  simp only [State.runState]
  generalize s.status.extractLsb' 0 3 = bits
  revert bits
  cases r <;> decide

/-- No command stops the machine: `HALT`, completion and the operand-range fault are all next states. -/
theorem exec_exists_next (i : Instr) (s : State) : ∃ t, exec i s = .next t := by
  rcases exec_cases i s with ⟨_, hhalt⟩ | ⟨_, _, _, _, ⟨_, hcompleted⟩ | ⟨_, hfaulted⟩⟩
  · exact ⟨_, hhalt⟩
  · exact ⟨_, hcompleted⟩
  · exact ⟨_, hfaulted⟩

/-- In RUNNING the two faults of the fetch are next states too, so a step is always taken (44_sequencer.md R151). -/
theorem step_exists_next_of_running {s : State} (hrun : s.runState = some .running) : ∃ t, step s = .next t := by
  rw [step, if_pos hrun]
  split
  · exact ⟨_, rfl⟩
  · split
    · exact ⟨_, rfl⟩
    · exact exec_exists_next _ s

theorem step_exists_next_iff (s : State) : (∃ t, step s = .next t) ↔ s.runState = some .running := by
  refine ⟨fun ⟨t, hstep⟩ => ?_, step_exists_next_of_running⟩
  obtain ⟨hrun, _⟩ := step_next hstep
  exact hrun

/-- Settles O11: the bits of each run state, and `step` answering a next state in RUNNING and nowhere else. -/
theorem engineStepsOnlyWhenRunning : Obligations.EngineStepsOnlyWhenRunning :=
  ⟨fun s => (step_exists_next_iff s).trans (runState_eq_some_iff s .running), fun s =>
    ⟨runState_eq_some_iff s .idle, runState_eq_some_iff s .running, runState_eq_some_iff s .done,
      runState_eq_some_iff s .faulted⟩⟩

end Sys2Proof.Machine
end

section
/-! PROOFS. The byte view of the stores (20_memory.md R44): byte k of a word of a store is the store's byte at host offset 8a + k. -/

namespace Sys2Proof.Machine

/-- The word at address a is assembled from the bytes at host offsets 8a to 8a + 7, so its byte k is the k-th of them. -/
theorem byteOfWord_word (pu : Nat → Byte) (m : Memory) (a : Nat) {k : Nat} (hk : k < 8) :
    byteOfWord (m.word pu a) k = m.byte pu (8 * a + k) :=
  byteOfWord_wordOfBytes (fun j => m.byte pu (8 * a + j)) hk

/-- Settles O50: both stores are a `Memory`, each with its own power-up bytes, and `byteOfWord_word` holds of each. -/
theorem hostByteViewIsLittleEndian : Obligations.HostByteViewIsLittleEndian := by
  intro s a k hk
  constructor
  · exact (byteOfWord_word Config.powerUpOperandByte s.operands a hk).symm
  · exact (byteOfWord_word Config.powerUpCommandByte s.commands a hk).symm

end Sys2Proof.Machine
end

section
/-! PROOFS. The legal words (30_encoding.md R64): the mask test of a row of the opcode table is the test of R64's three clauses
field by field, and so is decoding. -/

namespace Sys2Proof

/-! ### Words by their fields -/

theorem packWord_and (rsv rsv' : Byte) (c b a d c' b' a' d' : Addr) (op op' : Byte) :
    packWord rsv c b a d op &&& packWord rsv' c' b' a' d' op' =
      packWord (rsv &&& rsv') (c &&& c') (b &&& b') (a &&& a') (d &&& d') (op &&& op') := by
  refine BitVec.eq_of_getLsbD_eq fun i _ => ?_
  simp only [packWord, BitVec.getLsbD_and, BitVec.getLsbD_append]
  split_ifs <;> rfl

/-- Two words are equal exactly when their fields are. -/
theorem packWord_inj {rsv rsv' : Byte} {c b a d c' b' a' d' : Addr} {op op' : Byte} :
    packWord rsv c b a d op = packWord rsv' c' b' a' d' op' ↔
      rsv = rsv' ∧ c = c' ∧ b = b' ∧ a = a' ∧ d = d' ∧ op = op' := by
  constructor
  · intro h
    refine ⟨?_, ?_, ?_, ?_, ?_, ?_⟩
    · simpa using congrArg fieldRsv h
    · simpa using congrArg (fieldAddr · .C) h
    · simpa using congrArg (fieldAddr · .B) h
    · simpa using congrArg (fieldAddr · .A) h
    · simpa using congrArg (fieldAddr · .D) h
    · simpa using congrArg fieldOp h
  · rintro ⟨rfl, rfl, rfl, rfl, rfl, rfl⟩
    rfl

/-! ### The rows as masks, field by field -/

/-- What a row's mask holds in an address field: every bit of a field the opcode does not use, no bit of one it uses. -/
def Opcode.fieldBits (o : Opcode) (f : Field) : Addr := if o.width f = none then BitVec.allOnes 12 else 0

theorem and_fieldBits_eq_zero (o : Opcode) (f : Field) (x : Addr) :
    x &&& o.fieldBits f = 0 ↔ (o.width f = none → x = 0) := by
  unfold Opcode.fieldBits
  split_ifs with h
  · rw [BitVec.and_allOnes, imp_iff_right h]
  · simp [h]

/-- The mask of a row, read by the fields of the word format. -/
theorem mask_eq_packWord (o : Opcode) :
    o.mask = packWord (BitVec.allOnes 8) (o.fieldBits .C) (o.fieldBits .B) (o.fieldBits .A) (o.fieldBits .D)
      (BitVec.allOnes 8) := by
  cases o <;> decide

theorem matchValue_eq_packWord (o : Opcode) : o.matchValue = packWord 0 0 0 0 0 o.code := by
  cases o <;> decide

/-! ### The clauses of legality (30_encoding.md R64) -/

/-- The word is legal for the opcode: it keeps each of R64's clauses (a) to (c). -/
structure Opcode.Legal (o : Opcode) (w : Word) : Prop where
  op : Opcode.ofCode (fieldOp w) = some o
  rsv : fieldRsv w = 0
  unused : ∀ f, o.width f = none → fieldAddr w f = 0

theorem ofCode_eq_some_iff {b : Byte} {o : Opcode} : Opcode.ofCode b = some o ↔ b = o.code :=
  ⟨fun h => (code_of_ofCode h).symm, fun h => h ▸ ofCode_code o⟩

/-- `OP` alone fixes the row. -/
theorem Opcode.Legal.unique {o o' : Opcode} {w : Word} (h : o.Legal w) (h' : o'.Legal w) : o = o' :=
  Option.some.inj (h.op.symm.trans h'.op)

theorem matches_iff_legal (o : Opcode) (w : Word) : o.matches w = true ↔ o.Legal w := by
  have hfields : o.matches w = true ↔ fieldRsv w = 0 ∧ (o.width .C = none → fieldAddr w .C = 0) ∧
      (o.width .B = none → fieldAddr w .B = 0) ∧ (o.width .A = none → fieldAddr w .A = 0) ∧
      (o.width .D = none → fieldAddr w .D = 0) ∧ fieldOp w = o.code := by
    rw [Opcode.matches, beq_iff_eq, ← packWord_fields w, mask_eq_packWord, matchValue_eq_packWord, packWord_and,
      packWord_inj]
    simp only [packWord_fields, and_fieldBits_eq_zero, BitVec.and_allOnes]
  rw [hfields]
  constructor
  · rintro ⟨hrsv, hC, hB, hA, hD, hop⟩
    refine ⟨ofCode_eq_some_iff.2 hop, hrsv, fun f => ?_⟩
    cases f
    exacts [hD, hA, hB, hC]
  · rintro ⟨hop, hrsv, hunused⟩
    exact ⟨hrsv, hunused .C, hunused .B, hunused .A, hunused .D, ofCode_eq_some_iff.1 hop⟩

/-! ### Decoding accepts exactly the legal words -/

theorem firstUnusedNotZero_eq_none_iff {o : Opcode} {w : Word} :
    firstUnusedNotZero o w = none ↔ ∀ f, o.width f = none → fieldAddr w f = 0 := by
  have hall : ∀ f : Field, f ∈ Field.all := fun f => by cases f <;> decide
  simp [firstUnusedNotZero, hall]

theorem decode_ok_iff {w : Word} {i : Instr} :
    decode w = .ok i ↔
      ∃ o : Opcode, o.Legal w ∧ i = o.instr (fieldAddr w .D) (fieldAddr w .A) (fieldAddr w .B) (fieldAddr w .C) := by
  constructor
  · intro h
    obtain ⟨o, hop, hrsv, hunused, hi⟩ := decode_ok h
    exact ⟨o, ⟨hop, hrsv, firstUnusedNotZero_eq_none_iff.1 hunused⟩, hi⟩
  · rintro ⟨o, hlegal, rfl⟩
    exact decode_of_fields hlegal.op hlegal.rsv (firstUnusedNotZero_eq_none_iff.2 hlegal.unused)

/-- A word is legal for an opcode exactly when it decodes to a command of that opcode. -/
theorem legal_iff_decode {o : Opcode} {w : Word} : o.Legal w ↔ ∃ i, decode w = .ok i ∧ i.opcode = o := by
  constructor
  · intro h
    exact ⟨_, decode_ok_iff.2 ⟨o, h, rfl⟩, opcode_instr ..⟩
  · rintro ⟨i, hdecode, rfl⟩
    obtain ⟨o, hlegal, rfl⟩ := decode_ok_iff.1 hdecode
    rwa [opcode_instr]

theorem decode_error_iff_not_legal {w : Word} : (∃ r, decode w = .error r) ↔ ∀ o : Opcode, ¬ o.Legal w := by
  simp only [legal_iff_decode]
  cases decode w with
  | error r => simp
  | ok i => simp

/-- No opcode has the word as legal exactly when one of R64's clauses (a), (b), (c) is broken. -/
theorem not_legal_iff {w : Word} : (∀ o : Opcode, ¬ o.Legal w) ↔
    (Opcode.ofCode (fieldOp w) = none ∨ fieldRsv w ≠ 0 ∨
      ∃ o f, Opcode.ofCode (fieldOp w) = some o ∧ o.width f = none ∧ fieldAddr w f ≠ 0) := by
  constructor
  · intro h
    by_contra! hkept
    obtain ⟨hop, hrsv, hunused⟩ := hkept
    obtain ⟨o, ho⟩ := Option.ne_none_iff_exists'.1 hop
    exact h o ⟨ho, hrsv, fun f => hunused o f ho⟩
  · rintro (hop | hrsv | ⟨o, f, ho, hwidth, hfield⟩) o' hlegal
    · exact absurd (hop.symm.trans hlegal.op) (by simp)
    · exact hrsv hlegal.rsv
    · obtain rfl : o = o' := Option.some.inj (ho.symm.trans hlegal.op)
      exact hfield (hlegal.unused f hwidth)

/-! ### The unassigned opcodes, and the word of `HALT` -/

/-- The values of R64 (a), checked for each of the 256 bytes. -/
theorem ofCode_eq_none_iff : ∀ op : Byte, Opcode.ofCode op = none ↔ (0x08 ≤ op ∧ op ≤ 0x0f) ∨ (0x13 ≤ op ∧ op ≤ 0x1f) ∨
    (0x28 ≤ op ∧ op ≤ 0x2f) ∨ 0x35 ≤ op := by
  decide

theorem opcode_eq_halt_iff (i : Instr) : i.opcode = .halt ↔ i = .halt := by cases i <;> simp [Instr.opcode]

/-- `HALT` uses no field, so its row masks every bit of the word. -/
theorem halt_matches_iff (w : Word) : Opcode.halt.matches w = true ↔ w = 0 := by
  have hmask : Opcode.halt.mask = BitVec.allOnes 64 := by decide
  have hmatch : Opcode.halt.matchValue = 0 := by decide
  rw [Opcode.matches, beq_iff_eq, hmask, hmatch, BitVec.and_allOnes]

theorem decode_eq_halt_iff (w : Word) : decode w = .ok .halt ↔ w = 0 := by
  rw [← halt_matches_iff, matches_iff_legal, legal_iff_decode]
  simp only [opcode_eq_halt_iff, exists_eq_right]

end Sys2Proof

namespace Sys2Proof.Machine

/-! ### The fault an illegal word raises (60_exceptions.md R160, R161) -/

theorem faultTaken_illegalCommand (s : State) (w : Word) : FaultTaken s (s.raiseFault .illegalCommand w) .illegalCommand w :=
  ⟨rfl, rfl, rfl, rfl, rfl, rfl, rfl⟩

theorem step_of_decode_error {s : State} {r : Reject} (hrun : s.runState = some .running) (hpc : s.pc.toNat < 4096)
    (hdecode : decode s.fetchWord = .error r) : step s = .next (s.raiseFault .illegalCommand s.fetchWord) := by
  have hin : s.pcOutOfStore = false := decide_eq_false (Nat.not_le.2 hpc)
  obtain ⟨t, hstep⟩ := step_exists_next_of_running hrun
  obtain ⟨_, ⟨hout, _⟩ | ⟨_, _, rfl⟩ | ⟨_, i, hok, _⟩⟩ := step_next hstep
  · exact absurd (hin.symm.trans hout) (by decide)
  · exact hstep
  · exact absurd (hdecode.symm.trans hok) (by simp)

/-- Settles O8: the row test and decoding both are R64's clauses (`Opcode.Legal`), which `OP` makes the clauses of one row. -/
theorem legalWordsAreTheTableRows : Obligations.LegalWordsAreTheTableRows := by
  refine ⟨fun w o => ?_, fun w => ?_, fun w o o' h h' => ?_, fun s r hrun hpc hdecode => ?_, ofCode_eq_none_iff,
    decode_eq_halt_iff⟩
  · exact (matches_iff_legal o w).trans legal_iff_decode
  · exact decode_error_iff_not_legal.trans not_legal_iff
  · exact ((matches_iff_legal o w).1 h).unique ((matches_iff_legal o' w).1 h')
  · exact ⟨_, step_of_decode_error hrun hpc hdecode, faultTaken_illegalCommand s _, rfl⟩

end Sys2Proof.Machine
end

section
/-! PROOFS. The pseudo-instructions of one command that move or clear an element (30_encoding.md R73, R74): each is its line, and
what the line's command computes is the value. -/

namespace Sys2Proof.Machine

/-! ### From a pseudo-instruction to its one command -/

/-- The assembler accepts the number of every address field (30_encoding.md R67). -/
@[simp] theorem addrOf_toNat (a : Addr) : addrOf a.toNat = some a := by
  rw [addrOf, if_pos (show a.toNat < storeWords from a.isLt), BitVec.ofNat_toNat, BitVec.setWidth_eq]

theorem expand_zero4 (d a : Addr) : (Pseudo.zero4 d.toNat a.toNat).expand = some [.fsub d a a] := by
  simp [Pseudo.expand, Pseudo.lines]

theorem expand_copy4 (d a z : Addr) : (Pseudo.copy4 d.toNat a.toNat z.toNat).expand = some [.fadd d a z] := by
  simp [Pseudo.expand, Pseudo.lines, faddLine]

/-- A list of one command runs as that command. -/
@[simp] theorem execAll_singleton (i : Instr) (s : State) : execAll [i] s = exec i s := by
  simp only [execAll]
  cases exec i s <;> rfl

/-! ### The span check of a command on three elements (30_encoding.md R65) -/

/-- A command whose used fields' spans lie in the store is well formed; the converse is `span_of_wellFormed`. -/
theorem wellFormed_of_spans {i : Instr} (h : ∀ f n, i.width f = some n → (i.field f).toNat + n ≤ storeWords) :
    i.wellFormed = true := by
  refine List.all_eq_true.2 fun f _ => ?_
  cases hw : i.width f with
  | none => simp [Instr.fieldFits, hw]
  | some n => simpa [Instr.fieldFits, hw, spanFits] using h f n hw

/-- The commands of three elements (R62), `FADD` and `FSUB` among them: three spans of four words are checked. -/
theorem wellFormed_of_elementWidths {i : Instr} (hwidths : i.opcode.widths = ⟨some 4, some 4, some 4, none⟩)
    (hd : (i.field .D).toNat + 4 ≤ 4096) (ha : (i.field .A).toNat + 4 ≤ 4096) (hb : (i.field .B).toNat + 4 ≤ 4096) :
    i.wellFormed = true := by
  refine wellFormed_of_spans fun f n hn => ?_
  rw [Instr.width] at hn
  cases f <;> simp only [Opcode.width, hwidths, Option.some.injEq, reduceCtorEq] at hn <;> subst hn
  exacts [hd, ha, hb]

/-! ### The values (42_field_ops.md R110, R111) -/

/-- `x - x` is the reduction of the pre-offset 32p, whose fifth word is 1 and whose low words are K32 (10_state.md R31). -/
theorem fsub_self (x : Nat) : fsub x x = some 0 := by
  have hhigh : P32 / 2 ^ 256 = 1 := by norm_num [P32, P]
  have hlow : P32 % 2 ^ 256 = K32 := by norm_num [P32, P, K32]
  rw [fsub, Nat.add_sub_cancel_left, fewbitsReduce_of_le (by omega) (by rw [hhigh, hlow, Nat.one_mul]), hhigh, hlow,
    Nat.one_mul, Nat.sub_self]

/-- Adding 0 leaves every four-word value as it is, canonical or not: bit 256 of the sum is 0 and nothing is subtracted. -/
theorem fadd_zero {x : Nat} (hx : x < 2 ^ 256) : fadd x 0 = some x := overflowReduce_low hx

/-! ### What the two commands write -/

theorem exec_fsub_self_wrote {d a : Addr} (s : State) (hd : d.toNat + 4 ≤ 4096) (ha : a.toNat + 4 ≤ 4096) :
    ∃ t, exec (.fsub d a a) s = .next t ∧ Wrote s t d 4 0 := by
  refine ⟨_, exec_fsub d a a s, ?_⟩
  rw [fsub_self]
  exact runCommand_wrote (wellFormed_of_elementWidths (i := .fsub d a a) rfl hd ha ha) s d 4 (by norm_num)

theorem exec_fadd_zero_wrote {d a z : Addr} {s : State} (hd : d.toNat + 4 ≤ 4096) (ha : a.toNat + 4 ≤ 4096)
    (hz : z.toNat + 4 ≤ 4096) (hzero : s.memRead z 4 = 0) :
    ∃ t, exec (.fadd d a z) s = .next t ∧ Wrote s t d 4 (s.memRead a 4) := by
  have hlt : s.memRead a 4 < 2 ^ 256 := memRead_lt s a 4
  have hsum : fadd (s.element a) (s.element z) = some (s.memRead a 4) := by
    rw [State.element, State.element, hzero, fadd_zero hlt]
  refine ⟨_, exec_fadd d a z s, ?_⟩
  rw [hsum]
  exact runCommand_wrote (wellFormed_of_elementWidths (i := .fadd d a z) rfl hd ha hz) s d 4 hlt

/-- Settles O40: the expansions are FSUB @d, @a, @a and FADD @d, @a, @z, and x - x = 0, x + 0 = x for every element x. -/
theorem zero4AndCopy4DoWhatTheySay : Obligations.Zero4AndCopy4DoWhatTheySay := by
  intro d a z s hd ha
  constructor
  · obtain ⟨t, hexec, hwrote⟩ := exec_fsub_self_wrote s hd ha
    exact ⟨_, t, expand_zero4 d a, (execAll_singleton _ s).trans hexec, hwrote⟩
  · intro hz hzero
    obtain ⟨t, hexec, hwrote⟩ := exec_fadd_zero_wrote hd ha hz hzero
    exact ⟨_, t, expand_copy4 d a z, (execAll_singleton _ s).trans hexec, hwrote⟩

end Sys2Proof.Machine
end

section
/-! PROOFS. The subtractions as additions of the complement (40_carry_chain.md R89), by the borrow equation: one difference and
borrow balance the two sides. What the six commands with a carry or borrow word share is said once, for every width. -/

namespace Sys2Proof.Machine

/-! ### The borrow equation (40_carry_chain.md R80, R89) -/

theorem two_pow_words_succ (n : Nat) : 2 ^ (64 * (n + 1)) = 2 ^ 64 * 2 ^ (64 * n) := by
  rw [← pow_add, Nat.mul_succ, Nat.add_comm]

/-- A difference and a borrow that balance the subtraction are the ones it writes. -/
theorem subBorrow_of_balance {n x y b diff borrow : Nat} (hx : x < 2 ^ (64 * n)) (hy : y < 2 ^ (64 * n)) (hb : b ≤ 1)
    (hdiff : diff < 2 ^ (64 * n)) (hborrow : borrow ≤ 1) (h : x + borrow * 2 ^ (64 * n) = y + b + diff) :
    subBorrow n x y b = some (diff + borrow * 2 ^ (64 * n)) := by
  obtain rfl | rfl := Nat.le_one_iff_eq_zero_or_eq_one.1 hborrow
  · rw [subBorrow_of_le hb hx (by omega), show x - (y + b) = diff + 0 * 2 ^ (64 * n) by omega]
  · rw [subBorrow_of_lt hb hy (by omega), show x + 2 ^ (64 * n) - (y + b) = diff by omega, Nat.one_mul]

/-- Every subtraction inside its contract has such a difference and borrow. -/
theorem subBorrow_balance {n x y b : Nat} (hx : x < 2 ^ (64 * n)) (hy : y < 2 ^ (64 * n)) (hb : b ≤ 1) :
    ∃ diff borrow, diff < 2 ^ (64 * n) ∧ borrow ≤ 1 ∧ x + borrow * 2 ^ (64 * n) = y + b + diff ∧
      subBorrow n x y b = some (diff + borrow * 2 ^ (64 * n)) := by
  obtain ⟨diff, borrow, hdiff, hborrow, h⟩ : ∃ diff borrow, diff < 2 ^ (64 * n) ∧ borrow ≤ 1 ∧
      x + borrow * 2 ^ (64 * n) = y + b + diff := by
    rcases Nat.lt_or_ge x (y + b) with hlt | hle
    · exact ⟨x + 2 ^ (64 * n) - (y + b), 1, by omega, le_rfl, by omega⟩
    · exact ⟨x - (y + b), 0, by omega, by omega, by omega⟩
  exact ⟨diff, borrow, hdiff, hborrow, h, subBorrow_of_balance hx hy hb hdiff hborrow h⟩

/-- The sum with the complement is 2^(64n) above the exact difference, so its carry is the borrow complemented (R89). -/
theorem subBorrow_eq_complement {n x y b z : Nat} (hx : x < 2 ^ (64 * n)) (hy : y < 2 ^ (64 * n)) (hb : b ≤ 1)
    (hz : z = x + (2 ^ (64 * n) - 1 - y) + (1 - b)) :
    subBorrow n x y b = some (z % 2 ^ (64 * n) + (1 - z / 2 ^ (64 * n)) * 2 ^ (64 * n)) := by
  have hmod : z % 2 ^ (64 * n) < 2 ^ (64 * n) := Nat.mod_lt _ (by positivity)
  have hsplit : 2 ^ (64 * n) * (z / 2 ^ (64 * n)) + z % 2 ^ (64 * n) = z := Nat.div_add_mod z _
  have hcarry : z / 2 ^ (64 * n) ≤ 1 := Nat.lt_succ_iff.1 (Nat.div_lt_of_lt_mul (by omega))
  refine subBorrow_of_balance hx hy hb hmod (Nat.sub_le 1 _) ?_
  obtain h | h := Nat.le_one_iff_eq_zero_or_eq_one.1 hcarry <;> rw [h] at hsplit ⊢ <;> omega

/-! ### The commands with a carry or borrow word (40_carry_chain.md R81 to R87) -/

/-- The result function of an n-word command, of its operands and its carry or borrow word. -/
abbrev CarryFn := Nat → Nat → Nat → Nat → Option Nat

/-- `i` writes f of the n-word operands at a and b and the carry or borrow word at c to the n + 1 words at d. -/
structure CarryCommand (f : CarryFn) (n : Nat) (i : Instr) (d a b c : Addr) : Prop where
  exec_eq : ∀ s, exec i s =
    .next (runCommand i s d (n + 1) (f n (s.memRead a n) (s.memRead b n) (s.memRead c 1)))
  wellFormed : d.toNat + (n + 1) ≤ 4096 → a.toNat + n ≤ 4096 → b.toNat + n ≤ 4096 → i.wellFormed = true

/-- The span of the carry word is always in range: every address is below 4096. -/
theorem wellFormed_of_carryWidths {i : Instr} {n : Nat} (hwidths : i.opcode.widths = ⟨some (n + 1), some n, some n, some 1⟩)
    (hd : (i.field .D).toNat + (n + 1) ≤ 4096) (ha : (i.field .A).toNat + n ≤ 4096)
    (hb : (i.field .B).toNat + n ≤ 4096) : i.wellFormed = true := by
  refine wellFormed_of_spans fun f m hm => ?_
  rw [Instr.width] at hm
  cases f <;> simp only [Opcode.width, hwidths, Option.some.injEq] at hm <;> subst hm
  exacts [hd, ha, hb, (i.field .C).isLt]

section commands

variable (d a b c : Addr)

theorem add64_carryCommand : CarryCommand (fun _ => addCarry) 1 (.add64 d a b c) d a b c :=
  ⟨exec_add64 d a b c, wellFormed_of_carryWidths (i := .add64 d a b c) rfl⟩
theorem sub64_carryCommand : CarryCommand subBorrow 1 (.sub64 d a b c) d a b c :=
  ⟨exec_sub64 d a b c, wellFormed_of_carryWidths (i := .sub64 d a b c) rfl⟩
theorem add128_carryCommand : CarryCommand (fun _ => addCarry) 2 (.add128 d a b c) d a b c :=
  ⟨exec_add128 d a b c, wellFormed_of_carryWidths (i := .add128 d a b c) rfl⟩
theorem sub128_carryCommand : CarryCommand subBorrow 2 (.sub128 d a b c) d a b c :=
  ⟨exec_sub128 d a b c, wellFormed_of_carryWidths (i := .sub128 d a b c) rfl⟩
theorem add256_carryCommand : CarryCommand (fun _ => addCarry) 4 (.add256 d a b c) d a b c :=
  ⟨exec_add256 d a b c, wellFormed_of_carryWidths (i := .add256 d a b c) rfl⟩
theorem sub256_carryCommand : CarryCommand subBorrow 4 (.sub256 d a b c) d a b c :=
  ⟨exec_sub256 d a b c, wellFormed_of_carryWidths (i := .sub256 d a b c) rfl⟩

end commands

theorem CarryCommand.wrote {f : CarryFn} {n : Nat} {i : Instr} {d a b c : Addr} (h : CarryCommand f n i d a b c) {s : State}
    {v : Nat} (hwf : i.wellFormed = true) (hf : f n (s.memRead a n) (s.memRead b n) (s.memRead c 1) = some v)
    (hv : v < 2 ^ (64 * (n + 1))) : ∃ t, exec i s = .next t ∧ Wrote s t d (n + 1) v := by
  refine ⟨_, h.exec_eq s, ?_⟩
  rw [hf]
  exact runCommand_wrote hwf s d (n + 1) hv

/-! ### Subtraction as addition of the complement (R89) -/

theorem CarryCommand.wrote_complement {n : Nat} {i : Instr} {d a b c : Addr} (h : CarryCommand subBorrow n i d a b c)
    {s : State} (hc : s.memRead c 1 ≤ 1) (hwf : i.wellFormed = true) :
    ∃ t, exec i s = .next t ∧
      ∃ z, z = s.memRead a n + (2 ^ (64 * n) - 1 - s.memRead b n) + (1 - s.memRead c 1) ∧
        Wrote s t d (n + 1) (z % 2 ^ (64 * n) + (1 - z / 2 ^ (64 * n)) * 2 ^ (64 * n)) := by
  obtain ⟨z, hz⟩ : ∃ z, z = s.memRead a n + (2 ^ (64 * n) - 1 - s.memRead b n) + (1 - s.memRead c 1) := ⟨_, rfl⟩
  have hmod : z % 2 ^ (64 * n) < 2 ^ (64 * n) := Nat.mod_lt _ (by positivity)
  have hborrow : (1 - z / 2 ^ (64 * n)) * 2 ^ (64 * n) ≤ 1 * 2 ^ (64 * n) := Nat.mul_le_mul_right _ (Nat.sub_le 1 _)
  have hwidth := two_pow_words_succ n
  obtain ⟨t, hexec, hwrote⟩ :=
    h.wrote hwf (subBorrow_eq_complement (memRead_lt s a n) (memRead_lt s b n) hc hz) (by omega)
  exact ⟨t, hexec, z, hz, hwrote⟩

/-- Settles O30: R89 for each number of words. -/
theorem subtractionIsComplementAddition : Obligations.SubtractionIsComplementAddition := fun d a b c _ hc =>
  ⟨(sub64_carryCommand d a b c).wrote_complement hc, (sub128_carryCommand d a b c).wrote_complement hc,
    (sub256_carryCommand d a b c).wrote_complement hc⟩

end Sys2Proof.Machine
end

section
/-! PROOFS. Chains of one-word additions and subtractions (40_carry_chain.md R90): each wide result goes word by word, so a chain
of one-word commands that hands its carry on through the store writes it. -/

namespace Sys2Proof.Machine

/-! ### Results that go word by word -/

/-- The result on n + 1 words is the one-word result on the lowest words and, above its word, the result on the other n words
with the carry or borrow of the lowest. -/
def CarryFn.WordByWord (f : CarryFn) : Prop :=
  ∀ {n x y xs ys c : Nat}, x < 2 ^ 64 → y < 2 ^ 64 → xs < 2 ^ (64 * n) → ys < 2 ^ (64 * n) → c ≤ 1 →
    ∃ v, f 1 x y c = some v ∧ v / 2 ^ 64 ≤ 1 ∧
      ∀ hi, f n xs ys (v / 2 ^ 64) = some hi →
        f (n + 1) (x + 2 ^ 64 * xs) (y + 2 ^ 64 * ys) c = some (v % 2 ^ 64 + 2 ^ 64 * hi)

theorem addCarry_wordByWord : CarryFn.WordByWord fun _ => addCarry := by
  intro n x y xs ys c hx hy _ _ hc
  have hcarry : (x + y + c) / 2 ^ 64 ≤ 1 := by omega
  refine ⟨x + y + c, addCarry_of_ok hc, hcarry, fun hi hhi => ?_⟩
  simp only [addCarry_of_ok hcarry, addCarry_of_ok hc, Option.some.injEq] at hhi ⊢
  omega

/-- The borrow equation of the n + 1 words is that of the lowest word plus 2^64 times that of the others. -/
theorem subBorrow_wordByWord : CarryFn.WordByWord subBorrow := by
  intro n x y xs ys c hx hy hxs hys hc
  obtain ⟨d, bo, hd, hbo, hlow, hv⟩ : ∃ d bo, d < 2 ^ 64 ∧ bo ≤ 1 ∧ x + bo * 2 ^ 64 = y + c + d ∧
      subBorrow 1 x y c = some (d + bo * 2 ^ 64) :=
    subBorrow_balance (n := 1) hx hy hc
  have hword : (d + bo * 2 ^ 64) % 2 ^ 64 = d := by omega
  have hborrow : (d + bo * 2 ^ 64) / 2 ^ 64 = bo := by omega
  refine ⟨_, hv, by omega, fun hi hhi => ?_⟩
  obtain ⟨ds, bos, hds, hbos, hhigh, hvs⟩ := subBorrow_balance hxs hys hbo
  obtain rfl : ds + bos * 2 ^ (64 * n) = hi := Option.some.inj (hvs.symm.trans (hborrow ▸ hhi))
  have hwidth := two_pow_words_succ n
  have hbalance : x + 2 ^ 64 * xs + bos * 2 ^ (64 * (n + 1)) = y + 2 ^ 64 * ys + c + (d + 2 ^ 64 * ds) := by
    rw [hwidth]
    linear_combination hlow + 2 ^ 64 * hhigh
  rw [hword, subBorrow_of_balance (by omega) (by omega) hc (by omega) hbos hbalance, hwidth, Option.some.injEq]
  ring

/-! ### Chains of one-word commands -/

/-- n + 1 one-word commands from the lowest word up, at destinations one word apart, each reading as its carry or borrow word
the one that the command before it wrote. -/
def wordChain (op : Addr → Addr → Addr → Addr → Instr) : Nat → Addr → Addr → Addr → Addr → List Instr
  | 0, e, a, b, c => [op e a b c]
  | n + 1, e, a, b, c => op e a b c :: wordChain op n (e + 1) (a + 1) (b + 1) (e + 1)

theorem execAll_cons_of_next {i : Instr} {s t : State} (h : exec i s = .next t) (is : List Instr) :
    execAll (i :: is) s = execAll is t := by
  rw [execAll, h]

theorem disjointSpans_iff {x m y n : Nat} : disjointSpans x m y n = true ↔ x + m ≤ y ∨ y + n ≤ x := by
  simp [disjointSpans]

/-- An address that is not the last has the next number as its successor. -/
theorem toNat_add_one {a : Addr} (h : a.toNat + 1 < 4096) : (a + 1).toNat = a.toNat + 1 := by
  bv_omega

/-- The lowest word of a span, and the span above it. -/
theorem memRead_succ (s : State) {a : Addr} {n : Nat} (h : a.toNat + 1 < 4096) :
    s.memRead a (n + 1) = s.memRead a 1 + 2 ^ 64 * s.memRead (a + 1) n := by
  simp only [State.memRead, State.readSpan, toNat_add_one h, Nat.mul_zero, Nat.add_zero]

theorem CompletedAt.memRead_disjoint {s t : State} {d a : Addr} {n k : Nat} (h : CompletedAt s t d n)
    (hd : a.toNat + k ≤ d.toNat ∨ d.toNat + n ≤ a.toNat) : t.memRead a k = s.memRead a k :=
  h.readSpan_disjoint hd

/-- The two words a one-word command writes: the lowest word of its result, and the next carry or borrow word. -/
theorem CarryCommand.wrote_word_and_carry {f : CarryFn} {i : Instr} {e a b c : Addr} (h : CarryCommand f 1 i e a b c)
    {s : State} {v : Nat} (he : e.toNat + 1 < 4096) (hf : f 1 (s.memRead a 1) (s.memRead b 1) (s.memRead c 1) = some v)
    (hcarry : v / 2 ^ 64 ≤ 1) :
    ∃ t, exec i s = .next t ∧ CompletedAt s t e 2 ∧ t.memRead e 1 = v % 2 ^ 64 ∧ t.memRead (e + 1) 1 = v / 2 ^ 64 ∧
      t.draws = s.draws := by
  obtain ⟨t, hexec, hdone, hread, hdraws⟩ := h.wrote (h.wellFormed he a.isLt b.isLt) hf (by omega)
  have hsplit : t.memRead e 1 + 2 ^ 64 * t.memRead (e + 1) 1 = v := (memRead_succ t he).symm.trans hread
  have hword : t.memRead e 1 < 2 ^ 64 := memRead_lt t e 1
  exact ⟨t, hexec, hdone, by omega, by omega, hdraws⟩

/-- A chain of one-word commands writes the wide result, changes no word below its destination, and draws nothing. -/
theorem execAll_wordChain {f : CarryFn} (hf : f.WordByWord) {op : Addr → Addr → Addr → Addr → Instr}
    (hop : ∀ e a b c, CarryCommand f 1 (op e a b c) e a b c) :
    ∀ (n : Nat) (e a b c : Addr) (s : State), s.memRead c 1 ≤ 1 →
      e.toNat + (n + 2) ≤ 4096 → a.toNat + (n + 1) ≤ 4096 → b.toNat + (n + 1) ≤ 4096 →
      disjointSpans e.toNat (n + 2) a.toNat (n + 1) = true → disjointSpans e.toNat (n + 2) b.toNat (n + 1) = true →
      ∃ u, execAll (wordChain op n e a b c) s = .next u ∧
        f (n + 1) (s.memRead a (n + 1)) (s.memRead b (n + 1)) (s.memRead c 1) = some (u.memRead e (n + 2)) ∧
        (∀ (x : Addr) (k : Nat), x.toNat + k ≤ e.toNat → u.memRead x k = s.memRead x k) ∧ u.draws = s.draws
  | 0, e, a, b, c, s, hc, he, ha, hb, _, _ => by
    obtain ⟨v, hv, hcarry, _⟩ := hf (n := 0) (memRead_lt s a 1) (memRead_lt s b 1) Nat.one_pos Nat.one_pos hc
    obtain ⟨u, hexec, hdone, hread, hdraws⟩ := (hop e a b c).wrote ((hop e a b c).wellFormed he ha hb) hv (by omega)
    refine ⟨u, (execAll_singleton _ s).trans hexec, ?_, fun x k hx => hdone.memRead_disjoint (.inl hx), hdraws⟩
    rw [hread]
    exact hv
  | n + 1, e, a, b, c, s, hc, he, ha, hb, hea, heb => by
    rw [disjointSpans_iff] at hea heb
    have he1 := toNat_add_one (a := e) (by omega)
    have ha1 := toNat_add_one (a := a) (by omega)
    have hb1 := toNat_add_one (a := b) (by omega)
    obtain ⟨v, hv, hcarry, hwide⟩ := hf (memRead_lt s a 1) (memRead_lt s b 1) (memRead_lt s (a + 1) (n + 1))
      (memRead_lt s (b + 1) (n + 1)) hc
    obtain ⟨t, hexec, hdone, hlow, hnext, hdraws⟩ := (hop e a b c).wrote_word_and_carry (by omega) hv hcarry
    obtain ⟨u, hrest, hhigh, hframe, hdraws'⟩ := execAll_wordChain hf hop n (e + 1) (a + 1) (b + 1) (e + 1) t (by omega)
      (by omega) (by omega) (by omega) (disjointSpans_iff.2 (by omega)) (disjointSpans_iff.2 (by omega))
    rw [hdone.memRead_disjoint (by omega), hdone.memRead_disjoint (by omega), hnext] at hhigh
    refine ⟨u, (execAll_cons_of_next hexec _).trans hrest, ?_, fun x k hx => ?_, hdraws'.trans hdraws⟩
    · have hlowest : u.memRead e 1 = v % 2 ^ 64 := (hframe e 1 (by omega)).trans hlow
      rw [memRead_succ s (a := a) (n := n + 1) (by omega), memRead_succ s (a := b) (n := n + 1) (by omega), hwide _ hhigh,
        memRead_succ u (n := n + 2) (by omega), hlowest]
    · rw [hframe x k (by omega), hdone.memRead_disjoint (.inl hx)]

/-- The wide command and the chain of its one-word commands write the same words. -/
theorem CarryCommand.memRead_eq_wordChain {f : CarryFn} (hf : f.WordByWord) {op : Addr → Addr → Addr → Addr → Instr}
    (hop : ∀ e a b c, CarryCommand f 1 (op e a b c) e a b c) {n : Nat} {i : Instr} {d e a b c : Addr}
    (hi : CarryCommand f (n + 1) i d a b c) {s : State} (hc : s.memRead c 1 ≤ 1)
    (hd : d.toNat + (n + 2) ≤ 4096) (he : e.toNat + (n + 2) ≤ 4096) (ha : a.toNat + (n + 1) ≤ 4096)
    (hb : b.toNat + (n + 1) ≤ 4096) (hea : disjointSpans e.toNat (n + 2) a.toNat (n + 1) = true)
    (heb : disjointSpans e.toNat (n + 2) b.toNat (n + 1) = true) :
    ∃ t u, exec i s = .next t ∧ execAll (wordChain op n e a b c) s = .next u ∧
      t.memRead d (n + 2) = u.memRead e (n + 2) ∧ t.draws = s.draws ∧ u.draws = s.draws := by
  obtain ⟨u, hchain, hvalue, _, hu⟩ := execAll_wordChain hf hop n e a b c s hc he ha hb hea heb
  obtain ⟨t, hexec, _, hread, ht⟩ := hi.wrote (hi.wellFormed hd ha hb) hvalue (memRead_lt u e (n + 2))
  exact ⟨t, u, hexec, hchain, hread, ht, hu⟩

theorem wordChain_two (op : Addr → Addr → Addr → Addr → Instr) (e a b c : Addr) :
    wordChain op 1 e a b c = [op e a b c, op (e + 1) (a + 1) (b + 1) (e + 1)] := rfl

theorem wordChain_four (op : Addr → Addr → Addr → Addr → Instr) (e a b c : Addr) :
    wordChain op 3 e a b c = [op e a b c, op (e + 1) (a + 1) (b + 1) (e + 1), op (e + 2) (a + 2) (b + 2) (e + 2),
      op (e + 3) (a + 3) (b + 3) (e + 3)] := by
  simp [wordChain, BitVec.add_assoc]

/-- Settles O31: addition and subtraction go word by word, so each chain writes its wide command's words. -/
theorem wideCommandsAreChainsOfOneWordCommands : Obligations.WideCommandsAreChainsOfOneWordCommands := by
  intro d e a b c s hc
  constructor
  · intro hd he ha hb hea heb
    rw [← wordChain_two .add64, ← wordChain_two .sub64]
    exact ⟨(add128_carryCommand d a b c).memRead_eq_wordChain addCarry_wordByWord add64_carryCommand hc hd he ha hb hea heb,
      (sub128_carryCommand d a b c).memRead_eq_wordChain subBorrow_wordByWord sub64_carryCommand hc hd he ha hb hea heb⟩
  · intro hd he ha hb hea heb
    rw [← wordChain_four .add64, ← wordChain_four .sub64]
    exact ⟨(add256_carryCommand d a b c).memRead_eq_wordChain addCarry_wordByWord add64_carryCommand hc hd he ha hb hea heb,
      (sub256_carryCommand d a b c).memRead_eq_wordChain subBorrow_wordByWord sub64_carryCommand hc hd he ha hb hea heb⟩

end Sys2Proof.Machine
end

section
/-! PROOFS. The reduction engine (41_reduction.md R106 to R108): what each reduction subtracts is a multiple of p, except where
one addition of p does not make a few-bits borrow good, and there 2^256, which p does not divide, is left over. -/

namespace Sys2Proof.Machine

/-! ### A command whose result is a value -/

/-- A well-formed command whose contract holds writes its result and nothing else. -/
theorem exec_wrote_of_result {i : Instr} {s : State} {d : Addr} {n v : Nat} {result : Option Nat}
    (hexec : exec i s = .next (runCommand i s d n result)) (hwf : i.wellFormed = true) (hresult : result = some v)
    (hv : v < 2 ^ (64 * n)) : ∃ t, exec i s = .next t ∧ Wrote s t d n v := by
  subst hresult
  exact ⟨_, hexec, runCommand_wrote hwf s d n hv⟩

/-! ### overflow_reduce (R106) -/

/-- Bits 256 and 255 of t choose the subtrahend, 0, 16p or 32p; it never exceeds t, and it is large enough for what is left to
fit four words. -/
theorem overflowReduce_sub_multiple {t : Nat} (h : t / 2 ^ 256 ≤ 1) :
    ∃ k, overflowReduce t = some (t - k * P) ∧ k * P ≤ t ∧ t - k * P < 2 ^ 256 ∧
      (t / 2 ^ 256 = 0 → k = 0) ∧ (t / 2 ^ 256 = 1 → t / 2 ^ 255 % 2 = 1 → k = 32) ∧
      (t / 2 ^ 256 = 1 → t / 2 ^ 255 % 2 = 0 → k = 16) := by
  have hP : P = 2 ^ 251 + 17 * 2 ^ 192 + 1 := rfl
  rcases Nat.lt_or_ge t (2 ^ 256) with hlow | hge
  · exact ⟨0, by rw [overflowReduce_low hlow, Nat.zero_mul, Nat.sub_zero], by omega, by omega, by omega, by omega, by omega⟩
  rcases Nat.lt_or_ge t (2 ^ 256 + 2 ^ 255) with hmid | hhigh
  · exact ⟨16, overflowReduce_mid hge hmid, by omega, by omega, by omega, by omega, by omega⟩
  · exact ⟨32, overflowReduce_high hhigh (by omega), by omega, by omega, by omega, by omega, by omega⟩

/-- Settles O32: the command writes `overflow_reduce` of its five words; 2p itself is left as it is. -/
theorem overflowReduceSubtractsAMultipleOfP : Obligations.OverflowReduceSubtractsAMultipleOfP := by
  constructor
  · intro d a s hwf h4
    obtain ⟨k, hvalue, hle, hlt, hzero, hset, hclear⟩ := overflowReduce_sub_multiple h4
    obtain ⟨t, hexec, hwrote⟩ := exec_wrote_of_result (exec_overflowReduce d a s) hwf hvalue hlt
    have hmod : (s.memRead a 5 - k * P) % P = s.memRead a 5 % P := by
      rw [Nat.mul_comm] at hle ⊢
      exact Nat.sub_mul_mod hle
    exact ⟨t, k * P, _, hexec, hwrote, fun h0 => by rw [hzero h0, Nat.zero_mul], fun h1 hb => by rw [hset h1 hb],
      fun h1 hb => by rw [hclear h1 hb], hle, rfl, hlt, hmod⟩
  · exact ⟨2 * P, 2 * P, overflowReduce_low (by norm_num [P]), le_rfl⟩

/-! ### fewbits_reduce (R107) -/

/-- Inside the contract there is a result, and it fits four words, congruent or not. -/
theorem fewbitsReduce_exists_lt {r : Nat} (h4 : r / 2 ^ 256 < 2 ^ 53) : ∃ v, fewbitsReduce r = some v ∧ v < 2 ^ 256 :=
  ⟨_, if_neg (Nat.not_le.2 h4), Nat.mod_lt _ (by norm_num)⟩

/-- 2^256 = 32p - K32, so a fifth word counts for K32 less than a multiple of p. -/
theorem add_fifth_word_mul_K32 (r : Nat) : r + r / 2 ^ 256 * K32 = r % 2 ^ 256 + r / 2 ^ 256 * 32 * P := by
  have h32 : 32 * P = 2 ^ 256 + K32 := by norm_num [P, K32]
  rw [Nat.mul_assoc, h32, Nat.mul_add]
  omega

/-- K32 is below p, so 2^256 = 32p - K32 is no multiple of p. -/
theorem not_P_dvd_two_pow_256 : ¬ P ∣ 2 ^ 256 := by norm_num [P, Nat.dvd_iff_mod_eq_zero]

/-- Past the margin the result is 2^256 away from r mod p. -/
theorem fewbitsReduce_far_not_congr {r v : Nat} (h4 : r / 2 ^ 256 < 2 ^ 53) (h : r % 2 ^ 256 + P < r / 2 ^ 256 * K32)
    (hv : fewbitsReduce r = some v) : v % P ≠ r % P := by
  intro hmod
  have hvalue : v = r % 2 ^ 256 + P + 2 ^ 256 - r / 2 ^ 256 * K32 := Option.some.inj (hv.symm.trans (fewbitsReduce_of_far h4 h))
  have hbalance : v + r / 2 ^ 256 * 32 * P = r + 2 ^ 256 + P := by
    have hfifth := add_fifth_word_mul_K32 r
    have hk : r / 2 ^ 256 * K32 ≤ 2 ^ 53 * K32 := Nat.mul_le_mul_right _ h4.le
    have hk' : 2 ^ 53 * K32 < 2 ^ 256 := by norm_num [K32]
    omega
  have hcongr : r + 0 ≡ r + 2 ^ 256 [MOD P] := by
    calc r % P = v % P := hmod.symm
      _ = (v + r / 2 ^ 256 * 32 * P) % P := (Nat.add_mul_mod_self_right _ _ _).symm
      _ = (r + 2 ^ 256) % P := by rw [hbalance, Nat.add_mod_right]
  exact not_P_dvd_two_pow_256 (Nat.modEq_zero_iff_dvd.1 (hcongr.add_left_cancel' r).symm)

theorem fewbitsReduce_congr_iff {r v : Nat} (h4 : r / 2 ^ 256 < 2 ^ 53) (hv : fewbitsReduce r = some v) :
    v % P = r % P ↔ r / 2 ^ 256 * K32 ≤ r % 2 ^ 256 + P := by
  constructor
  · intro hmod
    by_contra hfar
    exact fewbitsReduce_far_not_congr h4 (Nat.not_le.1 hfar) hv hmod
  · intro hmargin
    obtain ⟨w, hw, _, hmod⟩ := fewbitsReduce_congr h4 hmargin
    rwa [Option.some.inj (hv.symm.trans hw)]

/-- Settles O33: the value in each of the three ranges, and the margin; `FEW_SAFE` is the largest r4 whose r4*K32 is at most p. -/
theorem fewbitsReduceIsCongruentExactlyInItsMargin : Obligations.FewbitsReduceIsCongruentExactlyInItsMargin := by
  rintro d a s r4 rl hwf rfl rfl h4
  obtain ⟨v, hv, hlt⟩ := fewbitsReduce_exists_lt h4
  obtain ⟨t, hexec, hwrote⟩ := exec_wrote_of_result (exec_fewbitsReduce d a s) hwf hv hlt
  have value {w : Nat} (hw : fewbitsReduce (s.memRead a 5) = some w) : v = w := Option.some.inj (hv.symm.trans hw)
  have hiff := fewbitsReduce_congr_iff h4 hv
  refine ⟨t, v, hexec, hwrote, hlt, fun hle => value (fewbitsReduce_of_le h4 hle), fun hb hm => ?_,
    fun hfar => value (fewbitsReduce_of_far h4 hfar), hiff, fun hsafe => hiff.2 ?_, by norm_num [P, K32], fun h0 => ?_⟩
  · have hvalue := value (fewbitsReduce_of_borrow h4 hb hm)
    exact ⟨hvalue, by omega⟩
  · exact ((Nat.le_div_iff_mul_le (by norm_num [K32])).1 hsafe).trans (Nat.le_add_left _ _)
  · rw [value (fewbitsReduce_of_le h4 (by rw [h0, Nat.zero_mul]; exact Nat.zero_le _)), h0, Nat.zero_mul, Nat.sub_zero]

/-! ### final_reduce (R108) -/

/-- Settles O34: an element is a four-word value, and `final_reduce` of one is its canonical residue. -/
theorem finalReduceWritesTheCanonicalResidue : Obligations.FinalReduceWritesTheCanonicalResidue := by
  intro d a s hwf
  have hresidue : s.memRead a 4 % P < P := Nat.mod_lt _ (by norm_num [P])
  have hvalue : some (finalReduce (s.element a)) = some (s.memRead a 4 % P) := congrArg some (finalReduce_eq (memRead_lt s a 4))
  obtain ⟨t, hexec, hwrote⟩ :=
    exec_wrote_of_result (exec_finalReduce d a s) hwf hvalue (hresidue.trans (by norm_num [P]))
  exact ⟨t, hexec, hwrote, hresidue⟩

end Sys2Proof.Machine
end

section
/-! PROOFS. The Montgomery multiplication (43_montgomery.md R138): the rounds' multiplier is the one N' = p - 2 gives, so the
quotient is R138's T, and what is written is its Montgomery product. -/

namespace Sys2Proof.Machine

/-! ### The multiplier U (R138) -/

/-- N' = p - 2 is the negated inverse of p modulo 2^256. -/
theorem P_mul_P_sub_two_modEq : P * (P - 2) + 1 ≡ 0 [MOD 2 ^ 256] := by norm_num [P, Nat.ModEq]

/-- Below 2^256 only one multiple of p can be added to m to reach a multiple of 2^256. -/
theorem multiplier_unique {m U : Nat} (hU : U < 2 ^ 256) (h : 2 ^ 256 ∣ m + U * P) : U = m * (P - 2) % 2 ^ 256 := by
  have hcongr : U ≡ m * (P - 2) [MOD 2 ^ 256] := by
    calc U = 0 * (P - 2) + U := by rw [Nat.zero_mul, Nat.zero_add]
      _ ≡ (m + U * P) * (P - 2) + U [MOD 2 ^ 256] := ((Nat.modEq_zero_iff_dvd.2 h).symm.mul_right _).add_right _
      _ = m * (P - 2) + U * (P * (P - 2) + 1) := by ring
      _ ≡ m * (P - 2) + U * 0 [MOD 2 ^ 256] := (P_mul_P_sub_two_modEq.mul_left U).add_left _
      _ = m * (P - 2) := by rw [Nat.mul_zero, Nat.add_zero]
  exact (Nat.mod_eq_of_lt hU).symm.trans hcongr

/-! ### The quotient T and its reduction (R138) -/

/-- The buffer's top five words after the rounds are R138's exact quotient. -/
theorem multBuffer_quotient {x y : Nat} (hx : x < 2 ^ 256) (hy : y < 2 ^ 256) :
    ∃ T, 2 ^ 256 * T = x * y + x * y * (P - 2) % 2 ^ 256 * P ∧
      (multBuffer x y).map (fun buf => bufRead buf 4 5) = some T ∧ T < 2 ^ 256 + P := by
  obtain ⟨U, T, hU, hT, hquot, hbuf⟩ := multBuffer_rounds hx hy
  have hP : P < 2 ^ 252 := by norm_num [P]
  refine ⟨T, ?_, ?_, by omega⟩
  · rw [← multiplier_unique hU ⟨T, hquot.symm⟩, hquot]
  · rw [hbuf, Option.map_some, bufRead_top (by norm_num; omega)]

theorem montgomeryMult_of_top {x y T : Nat} (h : (multBuffer x y).map (fun buf => bufRead buf 4 5) = some T) :
    montgomeryMult x y = overflowReduce T := by
  obtain ⟨buf, hbuf, rfl⟩ := Option.map_eq_some_iff.1 h
  rw [montgomeryMult, hbuf, Option.bind_some]

/-- Inside its contract `overflow_reduce` answers four words congruent to its input. -/
theorem overflowReduce_congr {t : Nat} (h : t / 2 ^ 256 ≤ 1) :
    ∃ v, overflowReduce t = some v ∧ v < 2 ^ 256 ∧ v ≡ t [MOD P] := by
  obtain ⟨k, hvalue, hle, hlt, _⟩ := overflowReduce_sub_multiple h
  refine ⟨_, hvalue, hlt, ?_⟩
  rw [Nat.mul_comm] at hle ⊢
  exact Nat.sub_mul_mod hle

theorem overflowReduce_quotient {T m U : Nat} (hT : T < 2 ^ 256 + P) (hquot : 2 ^ 256 * T = m + U * P) :
    ∃ v, overflowReduce T = some v ∧ v < 2 ^ 256 ∧ v * 2 ^ 256 ≡ m [MOD P] := by
  have hP : P < 2 ^ 252 := by norm_num [P]
  obtain ⟨v, hv, hlt, hcongr⟩ := overflowReduce_congr (t := T) (by omega)
  refine ⟨v, hv, hlt, ?_⟩
  calc v * 2 ^ 256 ≡ T * 2 ^ 256 [MOD P] := hcongr.mul_right _
    _ = m + U * P := by rw [Nat.mul_comm, hquot]
    _ ≡ m [MOD P] := Nat.add_mul_mod_self_right _ _ _

/-- The multiplication never draws, and answers a Montgomery product. -/
theorem montgomeryMult_product {x y : Nat} (hx : x < 2 ^ 256) (hy : y < 2 ^ 256) :
    ∃ v, montgomeryMult x y = some v ∧ v < 2 ^ 256 ∧ v * 2 ^ 256 ≡ x * y [MOD P] := by
  obtain ⟨T, hquot, htop, hT⟩ := multBuffer_quotient hx hy
  rw [montgomeryMult_of_top htop]
  exact overflowReduce_quotient hT hquot

/-- Settles O43: T is the quotient the rounds leave, and MONT_MULT writes its reduction. -/
theorem montMultIsTheMontgomeryProduct : Obligations.MontMultIsTheMontgomeryProduct := by
  refine ⟨P_mul_P_sub_two_modEq, by norm_num [P, valWords], ?_⟩
  rintro d a b s x y U hwf rfl rfl rfl
  obtain ⟨T, hquot, htop, hT⟩ := multBuffer_quotient (memRead_lt s a 4) (memRead_lt s b 4)
  obtain ⟨v, hv, hlt, hcongr⟩ := overflowReduce_quotient hT hquot
  obtain ⟨t, hexec, hwrote⟩ :=
    exec_wrote_of_result (exec_montMult d a b s) hwf ((montgomeryMult_of_top htop).trans hv) hlt
  exact ⟨t, v, T, hexec, hwrote, hquot, htop, hT, hv, hcongr⟩

end Sys2Proof.Machine
end

section
/-! PROOFS. Into and out of Montgomery form (43_montgomery.md R141): 2^256 is invertible mod p, so what FROM_MONT writes, a
residue below p, is fixed by its congruence. -/

namespace Sys2Proof.Machine

/-! ### Cancelling 2^256 mod p -/

theorem modEq_of_mul_two_pow_256 {a b : Nat} (h : a * 2 ^ 256 ≡ b * 2 ^ 256 [MOD P]) : a ≡ b [MOD P] :=
  Nat.ModEq.cancel_right_of_coprime (by norm_num [P]) h

/-! ### The result of each conversion (R135, R136) -/

theorem montgomeryMult_constMont2256 {x : Nat} (hx : x < 2 ^ 256) :
    ∃ v, montgomeryMult x constMont2256 = some v ∧ v < 2 ^ 256 ∧ v ≡ x * 2 ^ 256 [MOD P] := by
  have hconst : constMont2256 < 2 ^ 256 := (Nat.mod_lt _ (by norm_num [P])).trans (by norm_num [P] : P < 2 ^ 256)
  obtain ⟨v, hv, hlt, hcongr⟩ := montgomeryMult_product hx hconst
  refine ⟨v, hv, hlt, modEq_of_mul_two_pow_256 ?_⟩
  calc v * 2 ^ 256 ≡ x * constMont2256 [MOD P] := hcongr
    _ ≡ x * 2 ^ 512 [MOD P] := (Nat.mod_modEq _ _).mul_left x
    _ = x * 2 ^ 256 * 2 ^ 256 := by rw [Nat.mul_assoc, ← pow_add]

/-- Leaving Montgomery form divides by 2^256 mod p, canonically. -/
theorem montgomeryMult_constOne_finalReduce {x : Nat} (hx : x < 2 ^ 256) :
    ∃ w, (montgomeryMult x constOne).map finalReduce = some w ∧ w < P ∧ w * 2 ^ 256 ≡ x [MOD P] := by
  obtain ⟨v, hv, hlt, hcongr⟩ := montgomeryMult_product hx (y := constOne) (by norm_num [constOne])
  refine ⟨v % P, ?_, Nat.mod_lt _ (by norm_num [P]), ?_⟩
  · rw [hv, Option.map_some, finalReduce_eq hlt]
  · calc v % P * 2 ^ 256 ≡ v * 2 ^ 256 [MOD P] := (Nat.mod_modEq _ _).mul_right _
      _ ≡ x * constOne [MOD P] := hcongr
      _ = x := Nat.mul_one x

/-! ### What the commands write -/

section commands

variable {d a b : Addr}

theorem exec_montMult_wrote (hwf : (Instr.montMult d a b).wellFormed = true) (s : State) :
    ∃ t v, exec (.montMult d a b) s = .next t ∧ Wrote s t d 4 v ∧
      montgomeryMult (s.memRead a 4) (s.memRead b 4) = some v ∧
      v * 2 ^ 256 ≡ s.memRead a 4 * s.memRead b 4 [MOD P] := by
  obtain ⟨v, hv, hlt, hcongr⟩ := montgomeryMult_product (memRead_lt s a 4) (memRead_lt s b 4)
  obtain ⟨t, hexec, hwrote⟩ := exec_wrote_of_result (exec_montMult d a b s) hwf hv hlt
  exact ⟨t, v, hexec, hwrote, hv, hcongr⟩

theorem exec_toMont_wrote (hwf : (Instr.toMont d a).wellFormed = true) (s : State) :
    ∃ t v, exec (.toMont d a) s = .next t ∧ Wrote s t d 4 v ∧ v ≡ s.memRead a 4 * 2 ^ 256 [MOD P] := by
  obtain ⟨v, hv, hlt, hcongr⟩ := montgomeryMult_constMont2256 (memRead_lt s a 4)
  obtain ⟨t, hexec, hwrote⟩ := exec_wrote_of_result (exec_toMont d a s) hwf hv hlt
  exact ⟨t, v, hexec, hwrote, hcongr⟩

theorem exec_fromMont_wrote (hwf : (Instr.fromMont d a).wellFormed = true) (s : State) :
    ∃ t w, exec (.fromMont d a) s = .next t ∧ Wrote s t d 4 w ∧ w < P ∧ w * 2 ^ 256 ≡ s.memRead a 4 [MOD P] := by
  obtain ⟨w, hw, hlt, hcongr⟩ := montgomeryMult_constOne_finalReduce (memRead_lt s a 4)
  obtain ⟨t, hexec, hwrote⟩ := exec_wrote_of_result (exec_fromMont d a s) hwf hw (hlt.trans (by norm_num [P]))
  exact ⟨t, w, hexec, hwrote, hlt, hcongr⟩

end commands

/-- Two commands that each answer a next state run one after the other. -/
theorem execAll_pair_of_next {i j : Instr} {s t u : State} (hi : exec i s = .next t) (hj : exec j t = .next u) :
    execAll [i, j] s = .next u := by
  rw [execAll_cons_of_next hi, execAll_singleton, hj]

/-! ### The clauses of R141 -/

section clauses

variable {d e f g a b : Addr} (s : State)

theorem fromMont_toMont (hto : (Instr.toMont d a).wellFormed = true) (hfrom : (Instr.fromMont e d).wellFormed = true) :
    ∃ t, execAll [.toMont d a, .fromMont e d] s = .next t ∧ t.memRead e 4 = s.memRead a 4 % P := by
  obtain ⟨t, v, htexec, ⟨_, htread, _⟩, hv⟩ := exec_toMont_wrote hto s
  obtain ⟨u, w, huexec, ⟨_, huread, _⟩, hwlt, hw⟩ := exec_fromMont_wrote hfrom t
  refine ⟨u, execAll_pair_of_next htexec huexec, ?_⟩
  have hresidue : w ≡ s.memRead a 4 [MOD P] := modEq_of_mul_two_pow_256 ((htread ▸ hw).trans hv)
  rw [huread]
  exact (Nat.mod_eq_of_lt hwlt).symm.trans hresidue

theorem fromMont_montMult (hmul : (Instr.montMult d a b).wellFormed = true) (he : (Instr.fromMont e d).wellFormed = true)
    (hf : (Instr.fromMont f a).wellFormed = true) (hg : (Instr.fromMont g b).wellFormed = true) :
    ∃ t u v, execAll [.montMult d a b, .fromMont e d] s = .next t ∧ exec (.fromMont f a) s = .next u ∧
      exec (.fromMont g b) s = .next v ∧ t.memRead e 4 = u.memRead f 4 * v.memRead g 4 % P := by
  obtain ⟨r, z, hrexec, ⟨_, hrread, _⟩, _, hz⟩ := exec_montMult_wrote hmul s
  obtain ⟨t, w, htexec, ⟨_, htread, _⟩, hwlt, hw⟩ := exec_fromMont_wrote he r
  obtain ⟨u, x, huexec, ⟨_, huread, _⟩, _, hx⟩ := exec_fromMont_wrote hf s
  obtain ⟨v, y, hvexec, ⟨_, hvread, _⟩, _, hy⟩ := exec_fromMont_wrote hg s
  refine ⟨t, u, v, execAll_pair_of_next hrexec htexec, huexec, hvexec, ?_⟩
  have hresidue : w ≡ x * y [MOD P] := by
    refine modEq_of_mul_two_pow_256 (modEq_of_mul_two_pow_256 ?_)
    calc w * 2 ^ 256 * 2 ^ 256 ≡ z * 2 ^ 256 [MOD P] := (hrread ▸ hw).mul_right _
      _ ≡ s.memRead a 4 * s.memRead b 4 [MOD P] := hz
      _ ≡ x * 2 ^ 256 * (y * 2 ^ 256) [MOD P] := (hx.mul hy).symm
      _ = x * y * 2 ^ 256 * 2 ^ 256 := by ring
  rw [htread, huread, hvread]
  exact (Nat.mod_eq_of_lt hwlt).symm.trans hresidue

/-- The second multiplication of the pair reads the first one's product and, where that did not overwrite it, the element
itself, as MONT_CUBE does. -/
theorem montCube_eq_two_montMult (hcube : (Instr.montCube d a).wellFormed = true)
    (hsq : (Instr.montMult e a a).wellFormed = true) (hmul : (Instr.montMult f e a).wellFormed = true)
    (hdisjoint : disjointSpans e.toNat 4 a.toNat 4 = true) :
    ∃ t u, exec (.montCube d a) s = .next t ∧ execAll [.montMult e a a, .montMult f e a] s = .next u ∧
      t.memRead d 4 = u.memRead f 4 := by
  obtain ⟨r, sq, hrexec, ⟨hrdone, hrread, _⟩, hsqvalue, _⟩ := exec_montMult_wrote hsq s
  obtain ⟨u, v, huexec, ⟨_, huread, _⟩, hvalue, _⟩ := exec_montMult_wrote hmul r
  have ha : r.memRead a 4 = s.memRead a 4 := hrdone.memRead_disjoint (disjointSpans_iff.1 hdisjoint).symm
  rw [hrread, ha] at hvalue
  have hresult : (montgomeryMult (s.element a) (s.element a)).bind (fun sq => montgomeryMult sq (s.element a)) = some v := by
    rw [State.element, hsqvalue, Option.bind_some, hvalue]
  obtain ⟨t, htexec, ⟨_, htread, _⟩⟩ :=
    exec_wrote_of_result (exec_montCube d a s) hcube hresult (huread ▸ memRead_lt u f 4)
  exact ⟨t, u, htexec, execAll_pair_of_next hrexec huexec, htread.trans huread.symm⟩

end clauses

/-- 2^256 mod p is the Montgomery form of 1: its product with itself has itself as exact quotient. -/
theorem montgomeryMult_one_one : montgomeryMult (2 ^ 256 % P) (2 ^ 256 % P) = some (2 ^ 256 % P) := by
  have hlt : 2 ^ 256 % P < 2 ^ 256 := by norm_num [P]
  obtain ⟨T, hquot, htop, _⟩ := multBuffer_quotient hlt hlt
  obtain rfl : T = 2 ^ 256 % P := by
    refine Nat.eq_of_mul_eq_mul_left (Nat.two_pow_pos 256) (hquot.trans ?_)
    norm_num [P]
  rw [montgomeryMult_of_top htop, overflowReduce_low hlt]

theorem fromMont_one : (montgomeryMult (2 ^ 256 % P) constOne).map finalReduce = some 1 := by
  obtain ⟨w, hw, hwlt, hcongr⟩ := montgomeryMult_constOne_finalReduce (x := 2 ^ 256 % P) (by norm_num [P])
  have hone : w ≡ 1 [MOD P] := modEq_of_mul_two_pow_256 ((hcongr.trans (Nat.mod_modEq _ _)).trans (by rw [Nat.one_mul]))
  rw [hw, hone.eq_of_lt_of_lt hwlt (by norm_num [P])]

/-- Settles O45: the clauses of R141, each from the congruences of what the commands write. -/
theorem montgomeryRoundTripAndHomomorphism : Obligations.MontgomeryRoundTripAndHomomorphism :=
  ⟨fun _ _ _ s => fromMont_toMont s, fun _ _ _ _ _ _ s => fromMont_montMult s,
    fun _ _ _ _ s => montCube_eq_two_montMult s, montgomeryMult_one_one, fromMont_one⟩

end Sys2Proof.Machine
end

section
/-! PROOFS. The end of a run (44_sequencer.md R150, R153): what `HALT` does and which word it is, and that the steps of a run,
each raising `PC` or ending the run, are at most 4097. -/

namespace Sys2Proof

/-! ### `OP` = 0 is `HALT` in the all-zero word alone (44_sequencer.md R150) -/

/-- `OP` = 0 names the row of `HALT`, which has no other legal word than 0. -/
theorem decode_error_of_op_zero {w : Word} (hop : fieldOp w = 0) (hw : w ≠ 0) : ∃ r, decode w = .error r := by
  refine decode_error_iff_not_legal.2 fun o hlegal => hw ?_
  have hhalt : o = .halt := Option.some.inj (hlegal.op.symm.trans (hop ▸ ofCode_code .halt))
  rw [hhalt, ← matches_iff_legal] at hlegal
  exact (halt_matches_iff w).1 hlegal

end Sys2Proof

namespace Sys2Proof.Machine

/-! ### The fetch at a given `PC` (44_sequencer.md R151) -/

theorem pcOutOfStore_eq_false_iff {s : State} : s.pcOutOfStore = false ↔ s.pc.toNat < 4096 :=
  decide_eq_false_iff_not.trans Nat.not_le

theorem step_of_decode_ok {s : State} {i : Instr} (hrun : s.runState = some .running) (hpc : s.pc.toNat < 4096)
    (hdecode : decode s.fetchWord = .ok i) : step s = exec i s := by
  have hin : s.pcOutOfStore = false := pcOutOfStore_eq_false_iff.2 hpc
  obtain ⟨t, hstep⟩ := step_exists_next_of_running hrun
  obtain ⟨_, ⟨hout, _⟩ | ⟨_, ⟨r, herror⟩, _⟩ | ⟨_, j, hok, hexec⟩⟩ := step_next hstep
  · exact absurd (hin.symm.trans hout) (by decide)
  · exact absurd (hdecode.symm.trans herror) (by simp)
  · obtain rfl : i = j := Except.ok.inj (hdecode.symm.trans hok)
    exact hstep.trans hexec.symm

theorem step_of_fetch_zero {s : State} (hrun : s.runState = some .running) (hpc : s.pc.toNat < 4096)
    (hzero : s.fetchWord = 0) : step s = .next { s with status := statusDone } :=
  (step_of_decode_ok hrun hpc ((decode_eq_halt_iff _).2 hzero)).trans (exec_halt s)

/-- Past the last index there is nothing to fetch, so the only step is the fault of cause 3. -/
theorem step_next_of_pc_ge {s t : State} (hstep : step s = .next t) (hpc : 4096 ≤ s.pc.toNat) :
    t = s.raiseFault .commandRange 0 := by
  obtain ⟨_, ⟨_, ht⟩ | ⟨hin, _⟩ | ⟨hin, _⟩⟩ := step_next hstep
  · exact ht
  all_goals exact absurd (pcOutOfStore_eq_false_iff.1 hin) (Nat.not_lt.2 hpc)

/-! ### The host's register writes before and during a run (10_state.md R25, R27) -/

theorem hostWriteReg_start {s : State} (hbusy : s.busy = false) {v : Word} (hv : v.getLsbD 0 = true) :
    hostWriteReg 0 v s = s.start := by
  simp [hostWriteReg, hbusy, hv]

/-- The two registers that take writes, `CTRL` and `PC`, both test `BUSY`. -/
theorem hostWriteReg_of_busy {s : State} (hbusy : s.busy = true) (n : Nat) (v : Word) : hostWriteReg n v s = s := by
  unfold hostWriteReg
  split
  · simp [hbusy]
  · simp [hbusy]
  · rfl

theorem busy_of_statusDone {s : State} (h : s.status = statusDone) : s.busy = false := by
  rw [State.busy, h]
  decide

/-! ### `HALT` (44_sequencer.md R150) -/

/-- `START` keeps `PC` and the command store, so a DONE engine that stands on a `HALT` fetches it again and ends again. -/
theorem start_after_halt {t : State} (hdone : t.status = statusDone) (hpc : t.pc.toNat < 4096) (hzero : t.fetchWord = 0) :
    move (.writeReg 0 1) t = .next t.start ∧ step t.start = .next { t.start with status := statusDone } := by
  constructor
  · exact congrArg Host.Outcome.next (hostWriteReg_start (busy_of_statusDone hdone) (by decide))
  · exact step_of_fetch_zero (runState_start t) hpc ((fetchWord_congr (t := t) rfl rfl).trans hzero)

/-- Settles O12: `exec_halt` and the halt word, and since `HALT` keeps `PC` and the command store, `START` fetches it again. -/
theorem haltEndsTheRun : Obligations.HaltEndsTheRun := by
  refine ⟨fun s => ⟨_, exec_halt s, rfl, rfl, rfl, rfl, rfl, rfl, rfl⟩, decode_eq_halt_iff, ?_⟩
  rintro s _ hrun hpc rfl hop
  constructor
  · intro hne
    obtain ⟨r, hdecode⟩ := decode_error_of_op_zero hop hne
    exact ⟨_, step_of_decode_error hrun hpc hdecode, faultTaken_illegalCommand s _⟩
  · intro hzero
    obtain ⟨hstart, hagain⟩ := start_after_halt (t := { s with status := statusDone }) rfl hpc hzero
    exact ⟨_, _, _, step_of_fetch_zero hrun hpc hzero, rfl, rfl, rfl, rfl, hstart, rfl, hagain, rfl, rfl, rfl, rfl⟩

/-! ### What one step does to the run (44_sequencer.md R153) -/

theorem faultTaken_raiseFault (s : State) (c : Cause) (w : Word) :
    FaultTaken s (s.raiseFault c w) c (s.raiseFault c w).errcmd :=
  ⟨rfl, rfl, rfl, rfl, rfl, rfl, rfl⟩

/-- Inside the command store `PC` + 1 is taken without a wrap: `PC` has one bit more than an index needs. -/
theorem advance_pc_toNat {s : State} (hpc : s.pc.toNat < 4096) : s.advance.pc.toNat = s.pc.toNat + 1 := by
  rw [advance_pc]
  bv_omega

/-- A step raises `PC` by 1 and leaves the engine RUNNING, or is a `HALT`, or takes a fault. -/
theorem step_advances_or_halts_or_faults {s t : State} (hstep : step s = .next t) :
    (s.pc.toNat < 4096 ∧ t.pc.toNat = s.pc.toNat + 1 ∧ t.runState = some .running) ∨
    (t.status = statusDone ∧ s.pc.toNat < 4096 ∧ decode s.fetchWord = .ok .halt) ∨
    ∃ c w, FaultTaken s t c w := by
  obtain ⟨hrun, ⟨_, rfl⟩ | ⟨_, _, rfl⟩ | ⟨hin, i, hdecode, hexec⟩⟩ := step_next hstep
  · exact .inr (.inr ⟨_, _, faultTaken_raiseFault ..⟩)
  · exact .inr (.inr ⟨_, _, faultTaken_raiseFault ..⟩)
  · have hpc : s.pc.toNat < 4096 := pcOutOfStore_eq_false_iff.1 hin
    obtain ⟨rfl, rfl⟩ | ⟨_, rfl⟩ | ⟨_, d, n, r, _, rfl⟩ := exec_next hexec
    · exact .inr (.inl ⟨rfl, hpc, hdecode⟩)
    · exact .inr (.inr ⟨_, _, faultTaken_raiseFault ..⟩)
    · refine .inl ⟨hpc, ?_, ?_⟩
      · rw [advance_pc_toNat (by simpa using hpc), writeResult_pc]
      · rw [← hrun]
        exact runState_congr (by simp)

/-! ### A run ends -/

/-- The run has ended in one of its two ways, by `HALT` or by a fault (44_sequencer.md R153). -/
def State.runEnded (s : State) : Prop := s.status = statusDone ∨ ∃ c, s.status = statusFaulted c

theorem step_advances_or_ends {s t : State} (hstep : step s = .next t) :
    (s.pc.toNat < 4096 ∧ t.pc.toNat = s.pc.toNat + 1 ∧ t.runState = some .running) ∨ t.runEnded := by
  obtain hadvance | ⟨hdone, _⟩ | ⟨c, _, hfault, _⟩ := step_advances_or_halts_or_faults hstep
  · exact .inl hadvance
  · exact .inr (.inl hdone)
  · exact .inr (.inr ⟨c, hfault⟩)

theorem steps_succ_of_next {s t : State} (hstep : step s = .next t) (k : Nat) : steps (k + 1) s = steps k t := by
  rw [steps, hstep]

/-- With `n` indices left to the end of the command store, a run takes at most `n` + 1 steps: each step that does not end it
uses one up, and with none left the step faults. -/
theorem run_ends_of_indices_left (n : Nat) : ∀ s : State, s.runState = some .running → 4096 ≤ s.pc.toNat + n →
    ∃ k t, k ≤ n + 1 ∧ steps k s = .next t ∧ t.runEnded := by
  induction n with
  | zero =>
    intro s hrun hleft
    obtain ⟨t, hstep⟩ := step_exists_next_of_running hrun
    obtain ⟨hpc, _⟩ | hended := step_advances_or_ends hstep
    · omega
    · exact ⟨1, t, le_rfl, steps_succ_of_next hstep 0, hended⟩
  | succ n ih =>
    intro s hrun hleft
    obtain ⟨t, hstep⟩ := step_exists_next_of_running hrun
    obtain ⟨_, hpc, hrun'⟩ | hended := step_advances_or_ends hstep
    · obtain ⟨k, u, hk, hsteps, hended⟩ := ih t hrun' (by omega)
      exact ⟨k + 1, u, by omega, (steps_succ_of_next hstep k).trans hsteps, hended⟩
    · exact ⟨1, t, by omega, steps_succ_of_next hstep 0, hended⟩

/-- Settles O17: every index is at most 4096 away from the end of the command store, and no register write takes effect while a
run is in progress. -/
theorem everyRunEndsWithin4097Steps : Obligations.EveryRunEndsWithin4097Steps := by
  refine ⟨fun s hrun => ?_, fun s t hstep => ?_, fun s t hstep hpc => ?_, fun s n v hbusy => ?_⟩
  · exact run_ends_of_indices_left 4096 s hrun (Nat.le_add_left ..)
  · exact (step_advances_or_halts_or_faults hstep).imp_left And.right
  · rw [step_next_of_pc_ge hstep hpc.ge, raiseFault_status]
  · exact congrArg Host.Outcome.next (hostWriteReg_of_busy hbusy n v)

end Sys2Proof.Machine
end

section
/-! PROOFS. Faults (60_exceptions.md R161, R162): which one a step takes, what its entry leaves, and which moves end it. -/

namespace Sys2Proof

/-! ### A legal word is the encoding of its command (30_encoding.md R60, R64) -/

/-- A command formed from the address fields of a word holds them, where the word leaves the fields its opcode does not use 0. -/
theorem field_instr (o : Opcode) (addr : Field → Addr) (hunused : ∀ f, o.width f = none → addr f = 0) (f : Field) :
    (o.instr (addr .D) (addr .A) (addr .B) (addr .C)).field f = addr f := by
  cases o <;> cases f <;> first | rfl | exact (hunused _ rfl).symm

theorem encode_of_decode {w : Word} {i : Instr} (hdecode : decode w = .ok i) : encode i = w := by
  obtain ⟨o, hlegal, rfl⟩ := decode_ok_iff.1 hdecode
  have hfield := field_instr o (fieldAddr w) hlegal.unused
  rw [encode, hfield, hfield, hfield, hfield, opcode_instr, code_of_ofCode hlegal.op, ← hlegal.rsv, packWord_fields]

end Sys2Proof

namespace Sys2Proof.Machine

/-! ### The step in each of the four cases of R162 -/

theorem step_of_pc_ge {s : State} (hrun : s.runState = some .running) (hpc : 4096 ≤ s.pc.toNat) :
    step s = .next (s.raiseFault .commandRange 0) := by
  obtain ⟨t, hstep⟩ := step_exists_next_of_running hrun
  rw [hstep, step_next_of_pc_ge hstep hpc]

theorem exec_of_not_wellFormed {i : Instr} (hwf : i.wellFormed = false) (s : State) :
    exec i s = .next (s.raiseFault .operandRange (encode i)) := by
  rcases exec_cases i s with ⟨rfl, _⟩ | ⟨_, _, _, _, ⟨hok, _⟩ | ⟨_, hfaulted⟩⟩
  · exact absurd hwf (by decide)
  · exact absurd (hwf.symm.trans hok) (by decide)
  · exact hfaulted

/-- The word fetched is the encoding `exec` records, since a legal word is the only one of its command. -/
theorem step_of_not_wellFormed {s : State} {i : Instr} (hrun : s.runState = some .running) (hpc : s.pc.toNat < 4096)
    (hdecode : decode s.fetchWord = .ok i) (hwf : i.wellFormed = false) :
    step s = .next (s.raiseFault .operandRange s.fetchWord) := by
  rw [step_of_decode_ok hrun hpc hdecode, exec_of_not_wellFormed hwf, encode_of_decode hdecode]

/-- A command in range either ends the run in DONE or leaves `STATUS` as it was. -/
theorem exec_runState_of_wellFormed {i : Instr} {s t : State} (hwf : i.wellFormed = true) (hexec : exec i s = .next t) :
    t.runState = some .done ∨ t.runState = s.runState := by
  obtain ⟨_, rfl⟩ | ⟨hnot, _⟩ | ⟨_, d, n, r, _, rfl⟩ := exec_next hexec
  · exact .inl (runState_done _ rfl)
  · exact absurd (hwf.symm.trans hnot) (by decide)
  · exact .inr (runState_congr (by simp))

theorem step_not_faulted_of_wellFormed {s : State} {i : Instr} (hrun : s.runState = some .running)
    (hpc : s.pc.toNat < 4096) (hdecode : decode s.fetchWord = .ok i) (hwf : i.wellFormed = true) :
    ∃ t, step s = .next t ∧ t.runState ≠ some .faulted := by
  obtain ⟨t, hexec⟩ := exec_exists_next i s
  refine ⟨t, (step_of_decode_ok hrun hpc hdecode).trans hexec, ?_⟩
  obtain hdone | hsame := exec_runState_of_wellFormed hwf hexec
  · simp [hdone]
  · simp [hsame, hrun]

/-- What R161 says of the entry, whichever the cause. -/
theorem fault_entry_of_step {s : State} {c : Cause} {w : Word} (hstep : step s = .next (s.raiseFault c w)) :
    ∃ t, step s = .next t ∧ FaultTaken s t c (s.raiseFault c w).errcmd ∧ t.status = statusFaulted c ∧
      t.runState = some .faulted :=
  ⟨_, hstep, faultTaken_raiseFault s c w, raiseFault_status .., runState_raiseFault ..⟩

/-! ### What the host and reset can do to a run or a fault (10_state.md R25, R28, 60_exceptions.md R161) -/

/-- RUNNING is `BUSY` with the two bits above it clear. -/
theorem busy_of_running {s : State} (hrun : s.runState = some .running) : s.busy = true := by
  have hbits : s.status.extractLsb' 0 3 = 0b001 := (runState_eq_some_iff s .running).1 hrun
  simpa [State.busy] using congrArg (·.getLsbD 0) hbits

/-- Of the host's register writes only a `START`, bit 0 of `CTRL`, reaches `STATUS` or `ERRCMD`. -/
theorem hostWriteReg_keeps_fault_registers (n : Nat) (v : Word) (s : State) :
    ((hostWriteReg n v s).status = s.status ∧ (hostWriteReg n v s).errcmd = s.errcmd) ∨ (n = 0 ∧ v.getLsbD 0 = true) := by
  unfold hostWriteReg
  split
  · cases hv : v.getLsbD 0 with
    | false => simp
    | true => exact .inr ⟨rfl, rfl⟩
  · left; split <;> exact ⟨rfl, rfl⟩
  · exact .inl ⟨rfl, rfl⟩

/-- A read of a store, where it is not refused, is no change of the state. -/
theorem afterRead_next {s u : State} {r : Except Refusal Word} (h : afterRead s r = .next u) : u = s := by
  cases r with
  | ok w => cases h; rfl
  | error e => cases h

/-- A store write, where `BUSY` does not refuse it, answers the state it writes. -/
theorem guarded_next {busy : Bool} {e : Refusal} {t u : State}
    (h : (if busy then Host.Outcome.refused e else .next t : Host.Outcome State Fault Refusal) = .next u) : u = t := by
  cases busy
  · cases h; rfl
  · cases h

/-- The moves that can change `STATUS` or `ERRCMD`: a step of the engine, a `START` of the host and the two resets. -/
theorem move_keeps_fault_registers {m : Move} {s u : State} (hmove : move m s = .next u) :
    (u.status = s.status ∧ u.errcmd = s.errcmd) ∨ m = .engine ∨
    (∃ v, m = .writeReg 0 v ∧ v.getLsbD 0 = true) ∨ m = .reset ∨ ∃ keepNew, m = .resetDuring keepNew := by
  cases m with
  | engine => exact .inr (.inl rfl)
  | readReg n => cases hmove; exact .inl ⟨rfl, rfl⟩
  | writeReg n v =>
    cases hmove
    obtain hkept | ⟨rfl, hv⟩ := hostWriteReg_keeps_fault_registers n v s
    · exact .inl hkept
    · exact .inr (.inr (.inl ⟨v, rfl, hv⟩))
  | readOperand a => rw [afterRead_next hmove]; exact .inl ⟨rfl, rfl⟩
  | readCommand k => rw [afterRead_next hmove]; exact .inl ⟨rfl, rfl⟩
  | writeOperand a v => rw [guarded_next hmove]; exact .inl ⟨rfl, rfl⟩
  | writeCommand k v => rw [guarded_next hmove]; exact .inl ⟨rfl, rfl⟩
  | reset => exact .inr (.inr (.inr (.inl rfl)))
  | resetDuring keepNew => exact .inr (.inr (.inr (.inr ⟨keepNew, rfl⟩)))

theorem step_ne_next_of_faulted {t : State} (hfaulted : t.runState = some .faulted) (u : State) : step t ≠ .next u := by
  intro hstep
  have hrun := (step_exists_next_iff t).1 ⟨u, hstep⟩
  exact absurd (hfaulted.symm.trans hrun) (by decide)

/-- Settles O14: the four cases of a step in R162's order, each fault by its entry; then the moves that reach the registers. -/
theorem faultsAreTakenInPriorityOrder : Obligations.FaultsAreTakenInPriorityOrder := by
  refine ⟨fun s hrun => ⟨fun hpc => ?_, fun hpc r hdecode => ?_, fun hpc i hdecode hwf => ?_, fun hpc i hdecode hwf => ?_,
    fun v => ?_, ?_⟩, fun t u hfaulted => step_ne_next_of_faulted hfaulted u, fun t u m hfaulted hmove hchanged => ?_⟩
  · exact fault_entry_of_step (step_of_pc_ge hrun hpc)
  · exact fault_entry_of_step (step_of_decode_error hrun hpc hdecode)
  · exact fault_entry_of_step (step_of_not_wellFormed hrun hpc hdecode hwf)
  · exact step_not_faulted_of_wellFormed hrun hpc hdecode hwf
  · exact congrArg Host.Outcome.next (hostWriteReg_of_busy (busy_of_running hrun) 0 v)
  · exact ⟨_, rfl, resetRegisters_status s⟩
  · obtain ⟨hstatus, herrcmd⟩ | rfl | hended := move_keeps_fault_registers hmove
    · exact hchanged.elim (absurd hstatus) (absurd herrcmd)
    · exact absurd hmove (step_ne_next_of_faulted hfaulted u)
    · exact hended

end Sys2Proof.Machine
end

section
/-! PROOFS. Commands and their words (30_encoding.md R60, R63, R64): every command is the one its own word decodes to, and that
word is the only one that does. -/

namespace Sys2Proof

/-! ### A command by its opcode and its fields (30_encoding.md R62) -/

/-- A command is its opcode with its four address fields. -/
theorem instr_opcode_fields (i : Instr) : i.opcode.instr (i.field .D) (i.field .A) (i.field .B) (i.field .C) = i := by
  cases i <;> rfl

/-- A field the opcode does not use is 0 (R64 (c), R67). -/
theorem field_eq_zero_of_unused {i : Instr} {f : Field} (h : i.width f = none) : i.field f = 0 := by
  cases i <;> cases f <;> first | rfl | cases h

@[simp] theorem fieldAddr_encode (i : Instr) (f : Field) : fieldAddr (encode i) f = i.field f := by
  cases f <;> simp [encode]

/-! ### Decoding and encoding -/

theorem encode_legal (i : Instr) : i.opcode.Legal (encode i) where
  op := by simp [encode]
  rsv := by simp [encode]
  unused f hf := (fieldAddr_encode i f).trans (field_eq_zero_of_unused hf)

theorem decode_encode (i : Instr) : decode (encode i) = .ok i :=
  decode_ok_iff.2 ⟨i.opcode, encode_legal i, by simp only [fieldAddr_encode, instr_opcode_fields]⟩

end Sys2Proof

namespace Sys2Proof.Machine

/-- Settles O6: the word of a command is legal for the command's opcode and holds its fields. -/
theorem decodeOfEncodeIsTheCommand : Obligations.DecodeOfEncodeIsTheCommand := decode_encode

/-- Settles O7: a legal word is packed from the fields its command holds, the rest being 0. -/
theorem encodeOfDecodeIsTheWord : Obligations.EncodeOfDecodeIsTheWord := fun _ _ => encode_of_decode

/-- Settles O9: six fixed words, decoded. -/
theorem sampleWordsDecodeToTheirCommands : Obligations.SampleWordsDecodeToTheirCommands := by
  unfold Obligations.SampleWordsDecodeToTheirCommands
  decide

end Sys2Proof.Machine
end

section
/-! PROOFS. What a command does, read off the opcode map (30_encoding.md R62): its sources, the result its opcode computes from
them, and the destination that result is written to. -/

namespace Sys2Proof.Machine

/-! ### The result of a command, a function of its operands -/

/-- What the opcode computes from the operands at A, B and C (40_carry_chain.md R81 to R87, 41_reduction.md R103 to R105,
42_field_ops.md R113 to R120, 43_montgomery.md R133 to R137), X_MINUS_2Y at the given `OFFSET_2`; `none` where the contract
is broken. `exec_of_width` ties it to the commands' meanings. `HALT` has no result. -/
def Opcode.compute (offset2 : Offset2) (x y c : Nat) : Opcode → Option Nat
  | .halt => none
  | .add64 | .add128 | .add256 => addCarry x y c
  | .sub64 => subBorrow 1 x y c
  | .sub128 => subBorrow 2 x y c
  | .sub256 => subBorrow 4 x y c
  | .mul64 => some (mulFull x y)
  | .overflowReduce => overflowReduce x
  | .fewbitsReduce => fewbitsReduce x
  | .finalReduce => some (finalReduce x)
  | .fadd => fadd x y
  | .fsub => fsub x y
  | .xPlus2y => xPlusCy 2 x y
  | .xPlus3y => xPlusCy 3 x y
  | .xPlus4y => xPlusCy 4 x y
  | .xMinus2y => xMinusCy offset2.value 2 x y
  | .xMinus3y => xMinusCy offset3 3 x y
  | .xMinus4y => xMinusCy offset4 4 x y
  | .montRound => montgomeryRound x c y
  | .montMult => montgomeryMult x y
  | .toMont => montgomeryMult x constMont2256
  | .fromMont => (montgomeryMult x constOne).map finalReduce
  | .montCube => (montgomeryMult x x).bind (fun sq => montgomeryMult sq x)

/-- The operand a field of a command names, of the width its opcode gives the field; 0 for a field not used. -/
def State.operand (s : State) (i : Instr) (f : Field) : Nat := s.memRead (i.field f) ((i.width f).getD 0)

/-- The result of a command on the operands it finds in `s`. -/
def State.resultOf (s : State) (i : Instr) : Option Nat :=
  Opcode.compute s.offset2 (s.operand i .A) (s.operand i .B) (s.operand i .C) i.opcode

/-- Every command with a destination is the shared part with its result. -/
theorem exec_eq_runCommand {i : Instr} {n : Nat} (hn : i.width .D = some n) (s : State) :
    exec i s = .next (runCommand i s (i.field .D) n (s.resultOf i)) := by
  cases i <;> cases hn <;> rfl

theorem exec_of_width {i : Instr} {n : Nat} (hwf : i.wellFormed = true) (hn : i.width .D = some n) (s : State) :
    exec i s = .next (s.writeResult (i.field .D) n (s.resultOf i)).advance := by
  rw [exec_eq_runCommand hn, runCommand_of_wellFormed hwf]

/-- `HALT` alone writes nothing. -/
theorem width_D_eq_none_iff {i : Instr} : i.width .D = none ↔ i = .halt := by
  cases i <;> simp [Instr.width, Opcode.width, Opcode.widths, Instr.opcode]

theorem exists_width_D {i : Instr} (h : i ≠ .halt) : ∃ n, i.width .D = some n :=
  Option.ne_none_iff_exists'.1 fun hn => h (width_D_eq_none_iff.1 hn)

/-- Results of the same width and value leave the same words at their destinations; two draws take the same free words. -/
theorem writeResult_memRead (s s' : State) (d d' : Addr) (n : Nat) (r : Option Nat)
    (hdraws : r = none → s.draws = s'.draws) :
    (s.writeResult d n r).advance.memRead d n = (s'.writeResult d' n r).advance.memRead d' n := by
  rw [memRead_congr (advance_operands _), memRead_congr (advance_operands _)]
  cases r with
  | some v => rw [writeResult_some, writeResult_some, memWrite_memRead_same, memWrite_memRead_same]
  | none =>
    have hdrawn (u : State) (e : Addr) : (u.writeResult e n none).memRead e n = drawValue u.draws n :=
      calc (u.writeResult e n none).memRead e n = (u.memWrite e n (drawValue u.draws n)).memRead e n :=
            memRead_congr (writeResult_none_operands u e n) e n
        _ = drawValue u.draws n := by rw [memWrite_memRead_same, Nat.mod_eq_of_lt (drawValue_lt n _)]
    rw [hdrawn, hdrawn, hdraws rfl]

/-! ### Independence of the destination (20_memory.md R47) -/

theorem resultOf_instr_dest (o : Opcode) (d d' a b c : Addr) (s : State) :
    s.resultOf (o.instr d a b c) = s.resultOf (o.instr d' a b c) := by
  cases o <;> rfl

/-- The destination field of a command that has one is the address given for it. -/
theorem field_D_instr {o : Opcode} {n : Nat} (hn : o.width .D = some n) (d a b c : Addr) :
    (o.instr d a b c).field .D = d := by
  cases o <;> first | rfl | cases hn

/-- Settles O23: the result is computed from operands that do not include the destination, and is read back wherever it is
written. -/
theorem overlapDoesNotChangeTheResult : Obligations.OverlapDoesNotChangeTheResult := by
  intro o d d' a b c n s hn hwf hwf'
  have hwidth (e : Addr) : (o.instr e a b c).width .D = some n := by rw [Instr.width, opcode_instr, hn]
  refine ⟨_, _, exec_of_width hwf (hwidth d) s, exec_of_width hwf' (hwidth d') s, ?_⟩
  rw [field_D_instr hn, field_D_instr hn, resultOf_instr_dest o d d']
  exact writeResult_memRead s s d d' n _ fun _ => rfl

/-! ### Independence of everything but the sources (10_state.md section 1) -/

theorem operand_congr {i : Instr} {s s' : State} {f : Field}
    (h : ∀ m, i.width f = some m → s.memRead (i.field f) m = s'.memRead (i.field f) m) :
    s.operand i f = s'.operand i f := by
  unfold State.operand
  cases hm : i.width f with
  | none => rfl
  | some m => exact h m hm

/-- Only `X_MINUS_2Y` looks at the parameter. -/
theorem compute_offset2_congr {o : Opcode} {p q : Offset2} (h : o = .xMinus2y → p = q) (x y c : Nat) :
    Opcode.compute p x y c o = Opcode.compute q x y c o := by
  cases o <;> first | rfl | rw [h rfl]

theorem resultOf_congr {i : Instr} {s s' : State}
    (hsources : ∀ f m, f ≠ .D → i.width f = some m → s.memRead (i.field f) m = s'.memRead (i.field f) m)
    (hoffset : i.opcode = .xMinus2y → s.offset2 = s'.offset2) : s.resultOf i = s'.resultOf i := by
  have hoperand (f : Field) (hf : f ≠ .D) : s.operand i f = s'.operand i f := operand_congr fun m => hsources f m hf
  unfold State.resultOf
  rw [hoperand .A (by decide), hoperand .B (by decide), hoperand .C (by decide)]
  exact compute_offset2_congr hoffset _ _ _

/-! ### Contracts (70_reset_and_hazards.md R185): the result is there exactly where the contract holds -/

theorem addCarry_isSome (x y c : Nat) : (addCarry x y c).isSome = decide (c ≤ 1) := by
  rcases Nat.lt_or_ge 1 c with h | h
  · simp [addCarry_of_broken h, h]
  · simp [addCarry_of_ok h, h]

theorem subBorrow_isSome (n x y b : Nat) : (subBorrow n x y b).isSome = decide (b ≤ 1) := by
  rcases Nat.lt_or_ge 1 b with h | h
  · simp [subBorrow_of_broken h, h]
  · simp [subBorrow, carryWordOk, h]

theorem overflowReduce_isSome (t : Nat) : (overflowReduce t).isSome = decide (t / 2 ^ 256 ≤ 1) := by
  rcases Nat.lt_or_ge 1 (t / 2 ^ 256) with h | h
  · rw [overflowReduce_broken (by omega), decide_eq_false (Nat.not_le.2 h), Option.isSome_none]
  · obtain ⟨k, hk, _⟩ := overflowReduce_sub_multiple h
    rw [hk, decide_eq_true h, Option.isSome_some]

theorem fewbitsReduce_isSome (r : Nat) : (fewbitsReduce r).isSome = decide (r / 2 ^ 256 < 2 ^ 53) := by
  rcases Nat.lt_or_ge (r / 2 ^ 256) (2 ^ 53) with h | h
  · obtain ⟨v, hv, _⟩ := fewbitsReduce_exists_lt h
    rw [hv, decide_eq_true h, Option.isSome_some]
  · rw [fewbitsReduce_broken h, decide_eq_false (Nat.not_lt.2 h), Option.isSome_none]

theorem montgomeryRound_isSome (acc xi y : Nat) :
    (montgomeryRound acc xi y).isSome = decide (roundSum acc xi y < windowLimit) := by
  rw [montgomeryRound_eq]
  split
  · next h => rw [decide_eq_true h, Option.isSome_some]
  · next h => rw [decide_eq_false h, Option.isSome_none]

theorem montgomeryMult_isSome {x y : Nat} (hx : x < 2 ^ 256) (hy : y < 2 ^ 256) :
    (montgomeryMult x y).isSome = true := by
  obtain ⟨v, hv, _⟩ := montgomeryMult_product hx hy
  rw [hv, Option.isSome_some]

theorem constMont2256_lt : constMont2256 < P := Nat.mod_lt _ (by norm_num [P])

theorem fromMont_isSome {x : Nat} (hx : x < 2 ^ 256) : ((montgomeryMult x constOne).map finalReduce).isSome = true := by
  obtain ⟨w, hw, _⟩ := montgomeryMult_constOne_finalReduce hx
  rw [hw, Option.isSome_some]

theorem montgomeryCube_isSome {x : Nat} (hx : x < 2 ^ 256) :
    ((montgomeryMult x x).bind fun sq => montgomeryMult sq x).isSome = true := by
  obtain ⟨sq, hsq, hsqlt, _⟩ := montgomeryMult_product hx hx
  rw [hsq, Option.bind_some, montgomeryMult_isSome hsqlt hx]

/-- Below 2^309 a value is inside the contract of `fewbits_reduce`; x + c*y and x + k*p - c*y are far below. -/
theorem fewbitsReduce_isSome_of_lt {r : Nat} (h : r < 2 ^ 309) : (fewbitsReduce r).isSome = true := by
  rw [fewbitsReduce_isSome, decide_eq_true (by omega)]

theorem xPlusCy_isSome {c x y : Nat} (hx : x < 2 ^ 256) (hy : y < 2 ^ 256) (hc : c ≤ 4) :
    (xPlusCy c x y).isSome = true := by
  have hcy : c * y ≤ 4 * y := Nat.mul_le_mul_right y hc
  exact fewbitsReduce_isSome_of_lt (by omega)

/-- At every offset up to 128p, a difference that is not negative is inside the contract of `fewbits_reduce`. -/
theorem xMinusCy_isSome {offset c x y : Nat} (hx : x < 2 ^ 256) (hoffset : offset ≤ 128 * P) :
    (xMinusCy offset c x y).isSome = decide (c * y ≤ x + offset) := by
  have hP : P = 2 ^ 251 + 17 * 2 ^ 192 + 1 := rfl
  rcases Nat.lt_or_ge (x + offset) (c * y) with h | h
  · rw [xMinusCy_of_lt h, decide_eq_false (Nat.not_le.2 h), Option.isSome_none]
  · rw [xMinusCy_of_le h, fewbitsReduce_isSome_of_lt (by omega), decide_eq_true h]

theorem resultOf_isSome {i : Instr} (hi : i ≠ .halt) (s : State) : (s.resultOf i).isSome = contract i s := by
  have hP : P = 2 ^ 251 + 17 * 2 ^ 192 + 1 := rfl
  have hlt (a : Addr) : s.memRead a 4 < 2 ^ 256 := memRead_lt s a 4
  have hconst : constMont2256 < 2 ^ 256 := constMont2256_lt.trans (by norm_num [P])
  cases i with
  | halt => exact absurd rfl hi
  | add64 d a b c => exact addCarry_isSome ..
  | add128 d a b c => exact addCarry_isSome ..
  | add256 d a b c => exact addCarry_isSome ..
  | sub64 d a b c => exact subBorrow_isSome ..
  | sub128 d a b c => exact subBorrow_isSome ..
  | sub256 d a b c => exact subBorrow_isSome ..
  | mul64 d a b => rfl
  | overflowReduce d a => exact overflowReduce_isSome _
  | fewbitsReduce d a => exact fewbitsReduce_isSome _
  | finalReduce d a => rfl
  | fadd d a b =>
    have ha := hlt a
    have hb := hlt b
    exact (overflowReduce_isSome _).trans (decide_eq_true (show (s.memRead a 4 + s.memRead b 4) / 2 ^ 256 ≤ 1 by omega))
  | fsub d a b =>
    have ha := hlt a
    exact fewbitsReduce_isSome_of_lt (show s.memRead a 4 + 32 * P - s.memRead b 4 < 2 ^ 309 by omega)
  | xPlus2y d a b => exact xPlusCy_isSome (hlt a) (hlt b) (by norm_num)
  | xPlus3y d a b => exact xPlusCy_isSome (hlt a) (hlt b) (by norm_num)
  | xPlus4y d a b => exact xPlusCy_isSome (hlt a) (hlt b) (by norm_num)
  | xMinus2y d a b => exact xMinusCy_isSome (hlt a) ((offset2_value_le _).trans (by omega))
  | xMinus3y d a b =>
    have hb := hlt b
    refine (xMinusCy_isSome (hlt a) (Nat.mul_le_mul_right P (by norm_num))).trans (decide_eq_true ?_)
    exact (show 3 * s.memRead b 4 ≤ 96 * P by omega).trans (Nat.le_add_left ..)
  | xMinus4y d a b =>
    have hb := hlt b
    refine (xMinusCy_isSome (hlt a) le_rfl).trans (decide_eq_true ?_)
    exact (show 4 * s.memRead b 4 ≤ 128 * P by omega).trans (Nat.le_add_left ..)
  | montRound d a b c => exact montgomeryRound_isSome (s.memRead a 6) (s.memRead c 1) (s.memRead b 4)
  | montMult d a b => exact montgomeryMult_isSome (x := s.memRead a 4) (y := s.memRead b 4) (hlt a) (hlt b)
  | toMont d a => exact montgomeryMult_isSome (x := s.memRead a 4) (y := constMont2256) (hlt a) hconst
  | fromMont d a => exact fromMont_isSome (x := s.memRead a 4) (hlt a)
  | montCube d a => exact montgomeryCube_isSome (x := s.memRead a 4) (hlt a)

theorem ne_halt_of_width {i : Instr} {n : Nat} (hn : i.width .D = some n) : i ≠ .halt := by
  rintro rfl
  cases hn

/-- Settles O24: inside the contract there is a result, computed from the sources, so no draw is compared. -/
theorem resultDependsOnTheSourceWordsAlone : Obligations.ResultDependsOnTheSourceWordsAlone := by
  intro i s s' n hwf hn hsources hoffset hcontract
  refine ⟨_, _, exec_of_width hwf hn s, exec_of_width hwf hn s', ?_⟩
  rw [← resultOf_congr hsources hoffset]
  refine writeResult_memRead s s' _ _ n _ fun hnone => ?_
  rw [← resultOf_isSome (ne_halt_of_width hn) s, hnone] at hcontract
  cases hcontract

/-- Settles O25: the result is written where there is one, and free words where there is none. -/
theorem freeValuesExactlyWhereAContractIsBroken : Obligations.FreeValuesExactlyWhereAContractIsBroken := by
  intro i s n hwf hn
  refine ⟨_, exec_of_width hwf hn s, ?_⟩
  rw [← resultOf_isSome (ne_halt_of_width hn) s]
  cases s.resultOf i with
  | none => exact ⟨fun h => absurd h Bool.false_ne_true, fun _ => drew_writeResult s _ n⟩
  | some v => exact ⟨fun _ => ⟨completedAt_writeResult s _ n _, rfl⟩, fun h => absurd h.symm Bool.false_ne_true⟩

/-! ### What a command leaves (20_memory.md R48, 60_exceptions.md R161) -/

theorem isDest_eq_false_iff {i : Instr} {d : Addr} {n : Nat} (hd : destSpan i = some (d, n)) (x : Nat) :
    isDest i (x / 8) = false ↔ ¬ inSpan d n x := by
  simp only [isDest, hd, inSpan, Bool.and_eq_false_iff, decide_eq_false_iff_not]
  omega

/-- Settles O22: `HALT` and the range fault touch no store, and a completed command writes the span of its destination. -/
theorem commandsWriteOnlyTheirDestination : Obligations.CommandsWriteOnlyTheirDestination := by
  intro i s t hexec
  obtain ⟨_, rfl⟩ | ⟨_, rfl⟩ | ⟨hwf, d, n, r, hd, rfl⟩ := exec_next hexec
  · exact ⟨fun _ _ => rfl, fun _ => rfl, fun _ => ⟨rfl, rfl⟩⟩
  · exact ⟨fun _ _ => rfl, fun _ => rfl, fun _ => ⟨rfl, rfl⟩⟩
  · obtain ⟨hbytes, hcommands, _⟩ := completedAt_writeResult s d n r
    refine ⟨fun x hx => hbytes x ((isDest_eq_false_iff hd x).1 hx), hcommands, ?_⟩
    rintro (rfl | hnot)
    · cases hd
    · exact absurd (hwf.symm.trans hnot) (by decide)

/-- The span of some used field leaves the store exactly when the command is not well formed. -/
theorem not_wellFormed_of_span {i : Instr} {f : Field} {n : Nat} (hn : i.width f = some n)
    (hout : (i.field f).toNat + n > 4096) : i.wellFormed = false :=
  Bool.eq_false_iff.2 fun hwf => absurd (span_of_wellFormed hwf hn) (Nat.not_le.2 hout)

/-- Settles O13: the check of R65 refuses a command before it writes, and passes one whose spans all fit. -/
theorem operandRangeFaultsWithoutWriting : Obligations.OperandRangeFaultsWithoutWriting := by
  intro i s
  constructor
  · rintro ⟨f, n, hn, hout⟩
    exact ⟨_, exec_of_not_wellFormed (not_wellFormed_of_span hn hout) s, faultTaken_raiseFault .., raiseFault_status ..⟩
  · intro hspans
    have hwf := wellFormed_of_spans hspans
    obtain ⟨t, hexec⟩ := exec_exists_next i s
    refine ⟨t, hexec, ?_⟩
    obtain ⟨hhalt, rfl⟩ | ⟨hnot, _⟩ | ⟨_, d, n, r, _, rfl⟩ := exec_next hexec
    · exact ⟨rfl, .inr hhalt⟩
    · exact absurd (hwf.symm.trans hnot) (by decide)
    · exact ⟨by simp, .inl (by simp)⟩

end Sys2Proof.Machine
end

section
/-! PROOFS. What a command wrote, word by word. -/

namespace Sys2Proof.Machine

/-- Word j of the destination is word j of the value written (00_scope.md R7, R8). -/
theorem Wrote.operandWord {s t : State} {d : Addr} {n v j : Nat} (h : Wrote s t d n v) (hj : j < n) :
    (t.operandWord (d.toNat + j)).toNat = wordAt j v := by
  obtain ⟨_, hread, _⟩ := h
  rw [← wordAt_readSpan t n d.toNat j hj]
  exact congrArg (wordAt j) hread

/-- Above n whole words a value of n + 1 words has its last word. -/
theorem wordAt_last {n v : Nat} (hv : v < 2 ^ (64 * (n + 1))) : wordAt n v = v / 2 ^ (64 * n) := by
  rw [two_pow_words_succ, Nat.mul_comm] at hv
  exact Nat.mod_eq_of_lt (Nat.div_lt_of_lt_mul hv)

theorem Wrote.operandWord_last {s t : State} {d : Addr} {n v : Nat} (h : Wrote s t d (n + 1) v)
    (hv : v < 2 ^ (64 * (n + 1))) : (t.operandWord (d.toNat + n)).toNat = v / 2 ^ (64 * n) :=
  (h.operandWord n.lt_succ_self).trans (wordAt_last hv)

end Sys2Proof.Machine
end

section
/-! PROOFS. The carry-chain commands (40_carry_chain.md R81 to R88, R90): the exact sum, difference and product with their last
words, the carry words outside the contract, and the wide results as chains of one-word ones. -/

namespace Sys2Proof.Machine

/-! ### Sums (R81, R84, R86) -/

/-- A carry-in of at most 1 makes a carry-out of at most 1, so the sum fits one word more than its operands. -/
theorem sum_lt_and_carryOut_le_one {n x y c : Nat} (hx : x < 2 ^ (64 * n)) (hy : y < 2 ^ (64 * n)) (hc : c ≤ 1) :
    x + y + c < 2 ^ (64 * (n + 1)) ∧ carryOut n (x + y + c) ≤ 1 := by
  have hwidth := two_pow_words_succ n
  have hlt : x + y + c < 2 ^ (64 * n) * 2 := by omega
  exact ⟨by omega, Nat.lt_succ_iff.1 (Nat.div_lt_of_lt_mul hlt)⟩

theorem CarryCommand.wrote_sum {n : Nat} {i : Instr} {d a b c : Addr} (h : CarryCommand (fun _ => addCarry) n i d a b c)
    {s : State} (hc : s.memRead c 1 ≤ 1) (hwf : i.wellFormed = true) :
    ∃ t, exec i s = .next t ∧ Wrote s t d (n + 1) (s.memRead a n + s.memRead b n + s.memRead c 1) ∧
      (t.operandWord (d.toNat + n)).toNat = carryOut n (s.memRead a n + s.memRead b n + s.memRead c 1) ∧
      (t.operandWord (d.toNat + n)).toNat ≤ 1 := by
  obtain ⟨hsum, hcarry⟩ := sum_lt_and_carryOut_le_one (memRead_lt s a n) (memRead_lt s b n) hc
  obtain ⟨t, hexec, hwrote⟩ := h.wrote hwf (addCarry_of_ok hc) hsum
  have hlast := hwrote.operandWord_last hsum
  exact ⟨t, hexec, hwrote, hlast, hlast ▸ hcarry⟩

/-- Settles O26: the exact sum for each number of words. -/
theorem addCommandsWriteSumAndCarry : Obligations.AddCommandsWriteSumAndCarry := fun d a b c _ hc =>
  ⟨(add64_carryCommand d a b c).wrote_sum hc, (add128_carryCommand d a b c).wrote_sum hc,
    (add256_carryCommand d a b c).wrote_sum hc⟩

/-! ### Differences (R82, R85, R87) -/

theorem CarryCommand.wrote_difference {n : Nat} {i : Instr} {d a b c : Addr} (h : CarryCommand subBorrow n i d a b c)
    {s : State} (hc : s.memRead c 1 ≤ 1) (hwf : i.wellFormed = true) :
    ∃ t, exec i s = .next t ∧
      ∃ diff borrow, Wrote s t d (n + 1) (diff + borrow * 2 ^ (64 * n)) ∧ diff < 2 ^ (64 * n) ∧
        (s.memRead a n < s.memRead b n + s.memRead c 1 → borrow = 1) ∧
        (s.memRead b n + s.memRead c 1 ≤ s.memRead a n → borrow = 0) ∧
        s.memRead a n + borrow * 2 ^ (64 * n) = s.memRead b n + s.memRead c 1 + diff := by
  have ha := memRead_lt s a n
  obtain ⟨diff, borrow, hdiff, hborrow, hbalance, hvalue⟩ := subBorrow_balance ha (memRead_lt s b n) hc
  have hwidth := two_pow_words_succ n
  have hfits : diff + borrow * 2 ^ (64 * n) < 2 ^ (64 * (n + 1)) := by
    have := Nat.mul_le_mul_right (2 ^ (64 * n)) hborrow
    omega
  obtain ⟨t, hexec, hwrote⟩ := h.wrote hwf hvalue hfits
  refine ⟨t, hexec, diff, borrow, hwrote, hdiff, ?_⟩
  obtain rfl | rfl := Nat.le_one_iff_eq_zero_or_eq_one.1 hborrow <;> omega

/-- Settles O27: the borrow equation fixes the difference and the borrow, for each number of words. -/
theorem subCommandsWriteDifferenceAndBorrow : Obligations.SubCommandsWriteDifferenceAndBorrow := fun d a b c _ hc =>
  ⟨(sub64_carryCommand d a b c).wrote_difference hc, (sub128_carryCommand d a b c).wrote_difference hc,
    (sub256_carryCommand d a b c).wrote_difference hc⟩

/-! ### The full product (R83) -/

/-- Settles O28: (2^64 - 1)^2 is below (2^64 - 1) * 2^64, so the high word stays below 2^64 - 1. -/
theorem mul64WritesTheFullProduct : Obligations.Mul64WritesTheFullProduct := by
  intro d a b s hwf
  have ha : s.memRead a 1 ≤ 2 ^ 64 - 1 := Nat.le_pred_of_lt (memRead_lt s a 1)
  have hb : s.memRead b 1 ≤ 2 ^ 64 - 1 := Nat.le_pred_of_lt (memRead_lt s b 1)
  have hprod : s.memRead a 1 * s.memRead b 1 ≤ (2 ^ 64 - 1) * (2 ^ 64 - 1) := Nat.mul_le_mul ha hb
  have hfits : s.memRead a 1 * s.memRead b 1 < 2 ^ (64 * (1 + 1)) := by omega
  obtain ⟨t, hexec, hwrote⟩ := exec_wrote_of_result (v := s.memRead a 1 * s.memRead b 1) (exec_mul64 d a b s) hwf rfl hfits
  have hlow := (hwrote.operandWord (j := 0) (by omega)).trans (wordAt_zero _)
  have hhigh := hwrote.operandWord_last hfits
  refine ⟨t, hexec, hwrote, hlow, hhigh, hhigh.trans_le ?_⟩
  omega

/-! ### Carry and borrow words (R88) -/

/-- The result draws at a carry or borrow word above 1, and below that has a last word of at most 1 and room for it. -/
structure CarryFn.Contract (f : CarryFn) : Prop where
  broken : ∀ {n x y c}, 1 < c → f n x y c = none
  kept : ∀ {n x y c}, x < 2 ^ (64 * n) → y < 2 ^ (64 * n) → c ≤ 1 →
    ∃ v, f n x y c = some v ∧ v < 2 ^ (64 * (n + 1)) ∧ v / 2 ^ (64 * n) ≤ 1

theorem addCarry_contract : CarryFn.Contract fun _ => addCarry where
  broken := addCarry_of_broken
  kept hx hy hc := ⟨_, addCarry_of_ok hc, sum_lt_and_carryOut_le_one hx hy hc⟩

theorem subBorrow_contract : CarryFn.Contract subBorrow where
  broken := subBorrow_of_broken
  kept {n x y c} hx hy hc := by
    obtain ⟨diff, borrow, hdiff, hborrow, _, hvalue⟩ := subBorrow_balance hx hy hc
    have hwidth := two_pow_words_succ n
    have hlast := Nat.mul_le_mul_right (2 ^ (64 * n)) hborrow
    have hlt : diff + borrow * 2 ^ (64 * n) < 2 ^ (64 * n) * 2 := by omega
    exact ⟨_, hvalue, by omega, Nat.lt_succ_iff.1 (Nat.div_lt_of_lt_mul hlt)⟩

theorem CarryCommand.drew_or_last_le_one {f : CarryFn} (hf : f.Contract) {n : Nat} {i : Instr} {d a b c : Addr}
    (h : CarryCommand f n i d a b c) (s : State) (hwf : i.wellFormed = true) :
    ∃ t, exec i s = .next t ∧ (s.memRead c 1 ≥ 2 → Drew s t d (n + 1)) ∧
      (s.memRead c 1 ≤ 1 → (t.operandWord (d.toNat + n)).toNat ≤ 1) := by
  rcases Nat.lt_or_ge 1 (s.memRead c 1) with hbroken | hkept
  · refine ⟨_, h.exec_eq s, fun _ => ?_, fun hc => absurd hc (Nat.not_le.2 hbroken)⟩
    rw [hf.broken hbroken]
    exact runCommand_drew hwf s d (n + 1)
  · obtain ⟨v, hvalue, hfits, hlast⟩ := hf.kept (memRead_lt s a n) (memRead_lt s b n) hkept
    obtain ⟨t, hexec, hwrote⟩ := h.wrote hwf hvalue hfits
    refine ⟨t, hexec, fun hc => absurd hkept (Nat.not_le.2 hc), fun _ => ?_⟩
    rw [hwrote.operandWord_last hfits]
    exact hlast

/-- Settles O29: both result functions keep R88's contract, for each of the six commands. -/
theorem carryWordsAboveOneDraw : Obligations.CarryWordsAboveOneDraw := by
  intro d a b c s i n hi hwf
  simp only [List.mem_cons, Prod.mk.injEq, List.not_mem_nil, or_false] at hi
  obtain ⟨rfl, rfl⟩ | ⟨rfl, rfl⟩ | ⟨rfl, rfl⟩ | ⟨rfl, rfl⟩ | ⟨rfl, rfl⟩ | ⟨rfl, rfl⟩ := hi
  · exact (add64_carryCommand d a b c).drew_or_last_le_one addCarry_contract s hwf
  · exact (sub64_carryCommand d a b c).drew_or_last_le_one subBorrow_contract s hwf
  · exact (add128_carryCommand d a b c).drew_or_last_le_one addCarry_contract s hwf
  · exact (sub128_carryCommand d a b c).drew_or_last_le_one subBorrow_contract s hwf
  · exact (add256_carryCommand d a b c).drew_or_last_le_one addCarry_contract s hwf
  · exact (sub256_carryCommand d a b c).drew_or_last_le_one subBorrow_contract s hwf

/-! ### The wide commands as chains of the one-word functions (R90) -/

/-- `chain` runs the one-word result of `f` from the lowest pair of words up, the last carry or borrow on top. -/
structure CarryFn.ChainedBy (f : CarryFn) (chain : List (Nat × Nat) → Nat → Option Nat) : Prop where
  nil : ∀ {c}, c ≤ 1 → chain [] c = f 0 0 0 c
  cons : ∀ x y rest c, chain ((x, y) :: rest) c =
    (f 1 x y c).bind fun v => (chain rest (v / 2 ^ 64)).map fun hi => v % 2 ^ 64 + 2 ^ 64 * hi

theorem addCarry_chainedBy : CarryFn.ChainedBy (fun _ => addCarry) addChain where
  nil hc := by simp [addCarry_of_ok hc, addChain]
  cons _ _ _ _ := rfl

theorem subBorrow_chainedBy : CarryFn.ChainedBy subBorrow subChain where
  nil {c} hc := by
    rw [subBorrow_of_balance (n := 0) (diff := 0) (borrow := c) (by norm_num) (by norm_num) hc (by norm_num) hc (by omega)]
    simp [subChain]
  cons _ _ _ _ := rfl

theorem valWords_lt : ∀ l : List Nat, (∀ w ∈ l, w < 2 ^ 64) → valWords l < 2 ^ (64 * l.length)
  | [], _ => by simp [valWords]
  | w :: l, h => by
    have hw := h w (List.mem_cons_self ..)
    have hl := valWords_lt l fun v hv => h v (List.mem_cons_of_mem _ hv)
    rw [List.length_cons, two_pow_words_succ, valWords]
    omega

/-- The chain over two lists of words is the wide result on the integers they denote. -/
theorem CarryFn.ChainedBy.eq_wide {f : CarryFn} {chain : List (Nat × Nat) → Nat → Option Nat} (hchain : f.ChainedBy chain)
    (hf : f.WordByWord) (hcontract : f.Contract) : ∀ (l : List (Nat × Nat)) (c : Nat),
      (∀ p ∈ l, p.1 < 2 ^ 64 ∧ p.2 < 2 ^ 64) → c ≤ 1 →
      chain l c = f l.length (valWords (l.map Prod.fst)) (valWords (l.map Prod.snd)) c
  | [], c, _, hc => hchain.nil hc
  | (x, y) :: l, c, hl, hc => by
    obtain ⟨hx, hy⟩ := hl _ (List.mem_cons_self ..)
    have hrest : ∀ p ∈ l, p.1 < 2 ^ 64 ∧ p.2 < 2 ^ 64 := fun p hp => hl p (List.mem_cons_of_mem _ hp)
    have hxs : valWords (l.map Prod.fst) < 2 ^ (64 * l.length) := by
      simpa using valWords_lt (l.map Prod.fst) (by simpa using fun u v h => (hrest (u, v) h).1)
    have hys : valWords (l.map Prod.snd) < 2 ^ (64 * l.length) := by
      simpa using valWords_lt (l.map Prod.snd) (by simpa using fun u v h => (hrest (v, u) h).2)
    obtain ⟨v, hv, hcarry, hwide⟩ := hf hx hy hxs hys hc
    obtain ⟨hi, hhi, _, _⟩ := hcontract.kept hxs hys hcarry
    rw [hchain.cons, hv, Option.bind_some, hchain.eq_wide hf hcontract l _ hrest hcarry, hhi, Option.map_some]
    exact (hwide hi hhi).symm

/-- The words of a span, as a list, denote what the span reads. -/
theorem valWords_range_operandWord (s : State) : ∀ n a : Nat,
    valWords ((List.range n).map fun j => (s.operandWord (a + j)).toNat) = s.readSpan a n
  | 0, _ => rfl
  | n + 1, a => by
    rw [List.range_succ_eq_map, List.map_cons, List.map_map, valWords, State.readSpan,
      ← valWords_range_operandWord s n (a + 1), Nat.add_zero]
    simp only [Function.comp_def, Nat.succ_eq_add_one, Nat.add_assoc, Nat.add_comm 1]

/-- The pairs of words of two operands of `n` words, the lowest first. -/
def State.wordPairs (s : State) (a b : Addr) (n : Nat) : List (Nat × Nat) :=
  (List.range n).map fun j => ((s.operandWord (a.toNat + j)).toNat, (s.operandWord (b.toNat + j)).toNat)

theorem CarryCommand.chain_eq_memRead {f : CarryFn} {chain : List (Nat × Nat) → Nat → Option Nat}
    (hchain : f.ChainedBy chain) (hf : f.WordByWord) (hcontract : f.Contract) {n : Nat} {i : Instr} {d a b c : Addr}
    (h : CarryCommand f n i d a b c) {s : State} (hc : s.memRead c 1 ≤ 1) (hwf : i.wellFormed = true) :
    ∃ t, exec i s = .next t ∧ chain (s.wordPairs a b n) (s.memRead c 1) = some (t.memRead d (n + 1)) := by
  obtain ⟨v, hvalue, hfits, _⟩ := hcontract.kept (memRead_lt s a n) (memRead_lt s b n) hc
  obtain ⟨t, hexec, _, hread, _⟩ := h.wrote hwf hvalue hfits
  refine ⟨t, hexec, ?_⟩
  have hwords : ∀ p ∈ s.wordPairs a b n, p.1 < 2 ^ 64 ∧ p.2 < 2 ^ 64 := by
    simp only [State.wordPairs, List.mem_map]
    rintro _ ⟨j, _, rfl⟩
    exact ⟨BitVec.isLt _, BitVec.isLt _⟩
  rw [hchain.eq_wide hf hcontract _ _ hwords hc, hread, ← hvalue]
  simp only [State.wordPairs, List.map_map, List.length_map, List.length_range, Function.comp_def,
    valWords_range_operandWord, State.memRead]

/-- Settles O54: each wide result goes word by word, as its chain does. -/
theorem wideCommandsPropagateCarriesWordByWord : Obligations.WideCommandsPropagateCarriesWordByWord := by
  intro d a b c s pairs hpairs hc
  obtain rfl : pairs = s.wordPairs a b := funext hpairs
  exact ⟨(add128_carryCommand d a b c).chain_eq_memRead addCarry_chainedBy addCarry_wordByWord addCarry_contract hc,
    (add256_carryCommand d a b c).chain_eq_memRead addCarry_chainedBy addCarry_wordByWord addCarry_contract hc,
    (sub128_carryCommand d a b c).chain_eq_memRead subBorrow_chainedBy subBorrow_wordByWord subBorrow_contract hc,
    (sub256_carryCommand d a b c).chain_eq_memRead subBorrow_chainedBy subBorrow_wordByWord subBorrow_contract hc⟩

end Sys2Proof.Machine
end

section
/-! PROOFS. The field operations (42_field_ops.md R110 to R123): each result is an overflow or few-bits reduction of x + y,
x + c*y or x + offset - c*y, whose fifth word is small enough for the reduction to be congruent. -/

namespace Sys2Proof.Machine

/-! ### FADD (R113) -/

/-- Settles O35: the sum of two four-word values is below 2^257, where `overflow_reduce` subtracts 0, 16p or 32p by range. -/
theorem faddWritesTheOverflowReducedSum : Obligations.FaddWritesTheOverflowReducedSum := by
  rintro d a b s x y hwf rfl rfl
  have hx : s.memRead a 4 < 2 ^ 256 := memRead_lt s a 4
  have hy : s.memRead b 4 < 2 ^ 256 := memRead_lt s b 4
  obtain ⟨k, hvalue, hle, hlt, hlow, hhigh, hmid⟩ :=
    overflowReduce_sub_multiple (t := s.memRead a 4 + s.memRead b 4) (by omega)
  obtain ⟨t, hexec, hwrote⟩ := exec_wrote_of_result (exec_fadd d a b s) hwf hvalue hlt
  refine ⟨t, _, hexec, hwrote, fun h => ?_, fun h h' => ?_, fun h => ?_, ?_⟩
  · rw [hlow (by omega), Nat.zero_mul, Nat.sub_zero]
  · obtain rfl := hmid (by omega) (by omega)
    exact Nat.sub_add_cancel hle
  · obtain rfl := hhigh (by omega) (by omega)
    exact Nat.sub_add_cancel hle
  · rw [Nat.mul_comm] at hle ⊢
    exact Nat.sub_mul_mod hle

/-! ### The few-bits reduction of a small fifth word (R107, R122) -/

/-- `v` is the few-bits reduction of `r`, and congruent to it: the difference of R101, with p added where that borrows. -/
structure FewbitsReduced (r v : Nat) : Prop where
  value : fewbitsReduce r = some v
  lt : v < 2 ^ 256
  no_borrow : r / 2 ^ 256 * K32 ≤ r % 2 ^ 256 → v + r / 2 ^ 256 * K32 = r % 2 ^ 256
  borrow : r % 2 ^ 256 < r / 2 ^ 256 * K32 → v + r / 2 ^ 256 * K32 = r % 2 ^ 256 + P
  congr : v ≡ r [MOD P]

/-- A fifth word of at most 5 is far inside the margin of R107. -/
theorem exists_fewbitsReduced {r : Nat} (h : r / 2 ^ 256 ≤ 5) : ∃ v, FewbitsReduced r v := by
  have hmargin : r / 2 ^ 256 * K32 ≤ r % 2 ^ 256 + P := by
    calc r / 2 ^ 256 * K32 ≤ 5 * K32 := Nat.mul_le_mul_right _ h
      _ ≤ P := by norm_num [K32, P]
      _ ≤ r % 2 ^ 256 + P := Nat.le_add_left ..
  obtain ⟨v, hv, hlt, hcongr⟩ := fewbitsReduce_congr (by omega) hmargin
  have value {w : Nat} (hw : fewbitsReduce r = some w) : v = w := Option.some.inj (hv.symm.trans hw)
  refine ⟨v, hv, hlt, fun hle => ?_, fun hb => ?_, hcongr⟩
  · rw [value (fewbitsReduce_of_le (by omega) hle), Nat.sub_add_cancel hle]
  · rw [value (fewbitsReduce_of_borrow (by omega) hb hmargin), Nat.sub_add_cancel hmargin]

/-- Without a fifth word nothing is subtracted. -/
theorem FewbitsReduced.eq_of_lt {r v : Nat} (h : FewbitsReduced r v) (hr : r < 2 ^ 256) : v = r := by
  have hzero : r / 2 ^ 256 = 0 := Nat.div_eq_of_lt hr
  have hexact := h.no_borrow (by rw [hzero, Nat.zero_mul]; exact Nat.zero_le _)
  rwa [hzero, Nat.zero_mul, Nat.add_zero, Nat.mod_eq_of_lt hr] at hexact

/-- The pre-offset is a multiple of p, so the result plus what was subtracted is congruent to x. -/
theorem FewbitsReduced.add_congr {r v x z k : Nat} (h : FewbitsReduced r v) (hr : r + z = x + k * P) :
    (v + z) % P = x % P := by
  calc (v + z) % P = (r + z) % P := h.congr.add_right z
    _ = x % P := by rw [hr, Nat.add_mul_mod_self_right]

/-- A command whose result is the few-bits reduction of `r` writes it. -/
theorem exec_wrote_fewbitsReduced {i : Instr} {s : State} {d : Addr} {result : Option Nat} {r : Nat}
    (hexec : exec i s = .next (runCommand i s d 4 result)) (hwf : i.wellFormed = true)
    (hresult : result = fewbitsReduce r) (h4 : r / 2 ^ 256 ≤ 5) :
    ∃ t v, exec i s = .next t ∧ Wrote s t d 4 v ∧ FewbitsReduced r v := by
  obtain ⟨v, hv⟩ := exists_fewbitsReduced h4
  obtain ⟨t, ht, hwrote⟩ := exec_wrote_of_result hexec hwf (hresult.trans hv.value) hv.lt
  exact ⟨t, v, ht, hwrote, hv⟩

/-! ### FSUB (R114) -/

/-- Settles O36: r is x + 32p - y, which is below 3 * 2^256. -/
theorem fsubWritesACongruentDifference : Obligations.FsubWritesACongruentDifference := by
  rintro d a b s x y r hwf rfl rfl hr
  have hP : P = 2 ^ 251 + 17 * 2 ^ 192 + 1 := rfl
  have hx : s.memRead a 4 < 2 ^ 256 := memRead_lt s a 4
  have hvalue : fsub (s.element a) (s.element b) = fewbitsReduce r :=
    congrArg fewbitsReduce (Nat.sub_eq_of_eq_add hr.symm)
  obtain ⟨t, v, hexec, hwrote, hv⟩ := exec_wrote_fewbitsReduced (exec_fsub d a b s) hwf hvalue (by omega)
  refine ⟨t, v, hexec, hwrote, by omega, hv.no_borrow, hv.borrow, hv.add_congr hr, fun heq => ?_⟩
  have hself : fsub (s.element a) (s.element b) = some 0 := by rw [State.element, State.element, heq, fsub_self]
  exact Option.some.inj (hv.value.symm.trans (hvalue.symm.trans hself))

/-! ### X_PLUS_2Y, X_PLUS_3Y, X_PLUS_4Y (R115 to R117) -/

/-- x + c*y is below (c + 1) * 2^256. -/
theorem plus_fifth_word_le {x y : Nat} (hx : x < 2 ^ 256) (hy : y < 2 ^ 256) (c : Nat) : (x + c * y) / 2 ^ 256 ≤ c := by
  have hcy : c * y ≤ c * 2 ^ 256 := Nat.mul_le_mul_left c hy.le
  exact Nat.lt_succ_iff.1 (Nat.div_lt_of_lt_mul (by rw [Nat.mul_succ, Nat.mul_comm (2 ^ 256)]; omega))

/-- Settles O37: c is 2, 3 or 4, so the fifth word is at most 4. -/
theorem plusCommandsWriteACongruentSum : Obligations.PlusCommandsWriteACongruentSum := by
  rintro d a b s i c r hi hwf rfl
  obtain ⟨hc, hexec⟩ : c ≤ 4 ∧ exec i s = .next (runCommand i s d 4 (xPlusCy c (s.element a) (s.element b))) := by
    simp only [List.mem_cons, Prod.mk.injEq, List.not_mem_nil, or_false] at hi
    obtain ⟨rfl, rfl⟩ | ⟨rfl, rfl⟩ | ⟨rfl, rfl⟩ := hi
    · exact ⟨by omega, exec_xPlus2y d a b s⟩
    · exact ⟨by omega, exec_xPlus3y d a b s⟩
    · exact ⟨by omega, exec_xPlus4y d a b s⟩
  have h4 := plus_fifth_word_le (memRead_lt s a 4) (memRead_lt s b 4) c
  obtain ⟨t, v, ht, hwrote, hv⟩ := exec_wrote_fewbitsReduced hexec hwf rfl (h4.trans (by omega))
  exact ⟨t, v, ht, hwrote, h4, hv.eq_of_lt, hv.no_borrow, hv.borrow, hv.congr⟩

/-! ### X_MINUS_2Y, X_MINUS_3Y, X_MINUS_4Y (R118 to R120, R123) -/

/-- A command that computes x + k*p - c*y writes the few-bits reduction of it, where it is not negative and k is at most 128. -/
theorem exec_minus_wrote {i : Instr} {s : State} {d a b : Addr} {k c : Nat}
    (hexec : exec i s = .next (runCommand i s d 4 (xMinusCy (k * P) c (s.memRead a 4) (s.memRead b 4))))
    (hwf : i.wellFormed = true) (hk : k ≤ 128) (hkept : c * s.memRead b 4 ≤ s.memRead a 4 + k * P) :
    ∃ t v r, exec i s = .next t ∧ Wrote s t d 4 v ∧ FewbitsReduced r v ∧
      r + c * s.memRead b 4 = s.memRead a 4 + k * P := by
  have hP : P = 2 ^ 251 + 17 * 2 ^ 192 + 1 := rfl
  have hx : s.memRead a 4 < 2 ^ 256 := memRead_lt s a 4
  have hkP : k * P ≤ 128 * P := Nat.mul_le_mul_right P hk
  obtain ⟨t, v, ht, hwrote, hv⟩ := exec_wrote_fewbitsReduced hexec hwf (xMinusCy_of_le hkept) (by omega)
  exact ⟨t, v, _, ht, hwrote, hv, Nat.sub_add_cancel hkept⟩

/-- Settles O38: 32c * p exceeds c * 2^256, so the difference is always positive. -/
theorem minusThreeAndFourWriteACongruentDifference : Obligations.MinusThreeAndFourWriteACongruentDifference := by
  intro d a b s i c k hi hwf
  have hP : P = 2 ^ 251 + 17 * 2 ^ 192 + 1 := rfl
  have hx : s.memRead a 4 < 2 ^ 256 := memRead_lt s a 4
  have hy : s.memRead b 4 < 2 ^ 256 := memRead_lt s b 4
  simp only [List.mem_cons, Prod.mk.injEq, List.not_mem_nil, or_false] at hi
  obtain ⟨rfl, rfl, rfl⟩ | ⟨rfl, rfl, rfl⟩ := hi
  · obtain ⟨t, v, r, hexec, hwrote, hv, hr⟩ :=
      exec_minus_wrote (k := 96) (exec_xMinus3y d a b s) hwf (by omega) (by omega)
    exact ⟨t, v, r, hexec, hwrote, by omega, hr, by omega, hv.no_borrow, hv.borrow, hv.add_congr hr⟩
  · obtain ⟨t, v, r, hexec, hwrote, hv, hr⟩ :=
      exec_minus_wrote (k := 128) (exec_xMinus4y d a b s) hwf (by omega) (by omega)
    exact ⟨t, v, r, hexec, hwrote, by omega, hr, by omega, hv.no_borrow, hv.borrow, hv.add_congr hr⟩

/-- `X_MINUS_2Y` at an `OFFSET_2` of k*p. -/
theorem exec_xMinus2y_of_offset {d a b : Addr} {s : State} {k : Nat} (h : s.offset2.value = k * P) :
    exec (.xMinus2y d a b) s =
      .next (runCommand (.xMinus2y d a b) s d 4 (xMinusCy (k * P) 2 (s.memRead a 4) (s.memRead b 4))) := by
  rw [exec_xMinus2y, h, State.element, State.element]

/-- Settles O39: 2y can exceed x + 32p, from y = 16p on, but not x + 64p. -/
theorem minusTwoKeepsOrBreaksItsContract : Obligations.MinusTwoKeepsOrBreaksItsContract := by
  have hP : P = 2 ^ 251 + 17 * 2 ^ 192 + 1 := rfl
  refine ⟨⟨0, 16 * P + 1, by omega, by omega, by omega⟩, ?_⟩
  rintro d a b s x y hwf rfl rfl
  have hx : s.memRead a 4 < 2 ^ 256 := memRead_lt s a 4
  have hy : s.memRead b 4 < 2 ^ 256 := memRead_lt s b 4
  refine ⟨fun h32 hkept => ?_, fun h32 hbroken => ?_, fun hlt => by omega, fun h64 => ?_⟩
  · have hoffset : s.offset2.value = 32 * P := congrArg Offset2.value h32
    obtain ⟨t, v, r, hexec, hwrote, hv, hr⟩ := exec_minus_wrote (exec_xMinus2y_of_offset hoffset) hwf (by omega) hkept
    exact ⟨t, v, r, hexec, hwrote, hr, by omega, hv.value, hv.add_congr hr⟩
  · have hoffset : s.offset2.value = 32 * P := congrArg Offset2.value h32
    refine ⟨_, exec_xMinus2y_of_offset hoffset, ?_⟩
    rw [xMinusCy_of_lt hbroken]
    exact runCommand_drew hwf s d 4
  · have hoffset : s.offset2.value = 64 * P := congrArg Offset2.value h64
    have hkept : 2 * s.memRead b 4 ≤ s.memRead a 4 + 64 * P := by omega
    obtain ⟨t, v, r, hexec, hwrote, hv, hr⟩ := exec_minus_wrote (exec_xMinus2y_of_offset hoffset) hwf (by omega) hkept
    exact ⟨decide_eq_true (hoffset ▸ hkept), t, v, r, hexec, hwrote, hr, by omega, hv.value, hv.add_congr hr⟩

end Sys2Proof.Machine
end

section
/-! PROOFS. The invariant of the machine (10_state.md R26, R28): it holds after reset, and every move keeps it. -/

namespace Sys2Proof.Machine

/-! ### The invariant by the run state -/

theorem statusFaulted_mem (c : Cause) : statusFaulted c ∈ statusValues := by cases c <;> decide

/-- Of the six values of `STATUS` only 0b001 is RUNNING. -/
theorem status_of_running {s : State} (hvalues : s.status ∈ statusValues) (hrun : s.runState = some .running) :
    s.status = statusRunning := by
  have hbits : s.status.extractLsb' 0 3 = 0b001 := (runState_eq_some_iff s .running).1 hrun
  revert hbits
  revert hvalues
  generalize s.status = w
  simp only [statusValues, List.mem_cons, List.not_mem_nil, or_false]
  rintro (rfl | rfl | rfl | rfl | rfl | rfl) <;> decide

/-- Where neither cause that records a word is reported, `ERRCMD` is 0 (10_state.md R28). -/
theorem errcmdAgrees_iff {s : State} (hillegal : s.status ≠ statusFaulted .illegalCommand)
    (hrange : s.status ≠ statusFaulted .operandRange) : errcmdAgrees s = true ↔ s.errcmd = 0 := by
  simp [errcmdAgrees, hillegal, hrange]

/-- A RUNNING engine that meets the invariant has nothing in `ERRCMD`. -/
theorem errcmd_of_running {s : State} (hinv : s.Inv) (hrun : s.runState = some .running) : s.errcmd = 0 := by
  obtain ⟨_, _, hvalues, hagrees⟩ := hinv
  have hstatus := status_of_running hvalues hrun
  exact (errcmdAgrees_iff (by rw [hstatus]; decide) (by rw [hstatus]; decide)).1 hagrees

/-- A state whose `STATUS` is 0, running or done meets the invariant with 0 in `ERRCMD`. -/
theorem inv_of_not_faulted {s : State} (hoperands : s.operands.wf) (hcommands : s.commands.wf)
    (hstatus : s.status = 0 ∨ s.status = statusRunning ∨ s.status = statusDone) (herrcmd : s.errcmd = 0) : s.Inv := by
  have hdistinct : s.status ≠ statusFaulted .illegalCommand ∧ s.status ≠ statusFaulted .operandRange ∧
      s.status ∈ statusValues := by
    obtain h | h | h := hstatus <;> rw [h] <;> decide
  obtain ⟨hillegal, hrange, hvalues⟩ := hdistinct
  exact ⟨hoperands, hcommands, hvalues, (errcmdAgrees_iff hillegal hrange).2 herrcmd⟩

/-! ### The three faults record what the invariant asks (60_exceptions.md R160, R161) -/

theorem errcmdAgrees_illegalCommand {s : State} {w : Word} {r : Reject} (h : decode w = .error r) :
    errcmdAgrees (s.raiseFault .illegalCommand w) = true := by
  simp [errcmdAgrees, h]

theorem errcmdAgrees_operandRange {s : State} {i : Instr} (h : i.wellFormed = false) :
    errcmdAgrees (s.raiseFault .operandRange (encode i)) = true := by
  have hne : statusFaulted .operandRange ≠ statusFaulted .illegalCommand := by decide
  simp [errcmdAgrees, hne, decode_encode, h]

theorem errcmdAgrees_commandRange {s : State} {w : Word} : errcmdAgrees (s.raiseFault .commandRange w) = true :=
  (errcmdAgrees_iff (by rw [raiseFault_status]; decide) (by rw [raiseFault_status]; decide)).2 rfl

theorem inv_raiseFault {s : State} {c : Cause} {w : Word} (hinv : s.Inv) (hagrees : errcmdAgrees (s.raiseFault c w) = true) :
    (s.raiseFault c w).Inv := by
  obtain ⟨hoperands, hcommands, _⟩ := hinv
  exact ⟨hoperands, hcommands, statusFaulted_mem c, hagrees⟩

/-! ### Steps -/

/-- A command executed in RUNNING keeps the invariant. -/
theorem inv_of_exec {i : Instr} {s t : State} (hinv : s.Inv) (hrun : s.runState = some .running)
    (hexec : exec i s = .next t) : t.Inv := by
  have herrcmd := errcmd_of_running hinv hrun
  have ⟨hoperands, hcommands, hvalues, _⟩ := hinv
  obtain ⟨_, rfl⟩ | ⟨hnot, rfl⟩ | ⟨hwf, d, n, r, hd, rfl⟩ := exec_next hexec
  · exact inv_of_not_faulted hoperands hcommands (.inr (.inr rfl)) herrcmd
  · exact inv_raiseFault hinv (errcmdAgrees_operandRange hnot)
  · have hstatus := status_of_running hvalues hrun
    exact inv_of_not_faulted (writeResult_wf hoperands (destSpan_fits hwf hd) r) (by simpa using hcommands)
      (.inr (.inl (by simpa using hstatus))) (by simpa using herrcmd)

/-- Settles O3: each fault of a step records its word, and a command that completes or halts starts with `ERRCMD` = 0. -/
theorem stepKeepsInvariant : Obligations.StepKeepsInvariant := by
  intro s t hinv hstep
  obtain ⟨hrun, ⟨_, rfl⟩ | ⟨_, ⟨r, hdecode⟩, rfl⟩ | ⟨_, i, _, hexec⟩⟩ := step_next hstep
  · exact inv_raiseFault hinv errcmdAgrees_commandRange
  · exact inv_raiseFault hinv (errcmdAgrees_illegalCommand hdecode)
  · exact inv_of_exec hinv hrun hexec

/-! ### Reset (70_reset_and_hazards.md R180) -/

theorem inv_resetRegisters {s : State} (hoperands : s.operands.wf) (hcommands : s.commands.wf) : s.resetRegisters.Inv :=
  inv_of_not_faulted hoperands hcommands (.inl rfl) rfl

/-- An engine whose registers were reset waits for the host. -/
theorem step_resetRegisters (s : State) : step s.resetRegisters = .fault .notRunning := by
  have hidle : s.resetRegisters.runState = some .idle := runState_reset _ rfl
  rw [step, if_neg (by rw [hidle]; decide)]

theorem mergeWords_wf {s t : State} (hs : s.operands.wf) {a : Nat} (keepNew : List Bool) :
    ∀ n, a + n ≤ storeWords → (mergeWords s t a keepNew n).wf
  | 0, _ => hs
  | n + 1, hn => by
    have ih := mergeWords_wf (t := t) (a := a) hs keepNew n (by omega)
    rw [mergeWords]
    split
    · exact writeWord_wf ih (by omega) _
    · exact ih

/-- Of the `n` words at `a`, those that `keepNew` marks are taken from `t`; every other word is that of `s`. -/
theorem mergeWords_word (s t : State) (a : Nat) (keepNew : List Bool) (b : Nat) : ∀ n,
    (mergeWords s t a keepNew n).word Config.powerUpOperandByte b =
      if (a ≤ b ∧ b < a + n) ∧ keepNew.getD (b - a) false = true then t.operandWord b else s.operandWord b
  | 0 => by
    rw [if_neg (by omega)]
    rfl
  | n + 1 => by
    have ih := mergeWords_word s t a keepNew b n
    rw [mergeWords]
    by_cases hlast : b = a + n
    · subst hlast
      rw [if_neg (by omega)] at ih
      rw [Nat.add_sub_cancel_left]
      split
      · next hnew => rw [writeWord_word, if_pos rfl, if_pos ⟨by omega, hnew⟩]
      · next hold => rw [ih, if_neg fun h => hold h.2]
    · have hrange : (a ≤ b ∧ b < a + (n + 1)) ↔ a ≤ b ∧ b < a + n := by omega
      simp only [← hrange] at ih
      split
      · rw [writeWord_word, if_neg hlast, ih]
      · exact ih

/-- A reset inside a command that writes no word is a reset between commands. -/
theorem resetDuring_of_no_dest {s u : State} {i : Instr} (keepNew : List Bool) (hi : s.executing = some i)
    (hu : exec i s = .next u) (hd : destSpan i = none) : s.resetDuring keepNew = s.resetRegisters := by
  simp [State.resetDuring, hi, hu, hd]

/-- A reset inside a command that writes words merges them with the old ones (20_memory.md R48). -/
theorem resetDuring_of_dest {s u : State} {i : Instr} {d : Addr} {n : Nat} (keepNew : List Bool)
    (hi : s.executing = some i) (hu : exec i s = .next u) (hd : destSpan i = some (d, n)) :
    s.resetDuring keepNew =
      { s with operands := mergeWords s u d.toNat keepNew n, draws := u.draws }.resetRegisters := by
  simp [State.resetDuring, hi, hu, hd]

theorem resetDuring_cases (keepNew : List Bool) (s : State) :
    s.resetDuring keepNew = s.resetRegisters ∨
    ∃ i u d n, s.executing = some i ∧ destSpan i = some (d, n) ∧
      s.resetDuring keepNew =
        { s with operands := mergeWords s u d.toNat keepNew n, draws := u.draws }.resetRegisters := by
  cases hi : s.executing with
  | none => exact .inl (by simp [State.resetDuring, hi])
  | some i =>
    obtain ⟨u, hu⟩ := exec_exists_next i s
    cases hd : destSpan i with
    | none => exact .inl (resetDuring_of_no_dest keepNew hi hu hd)
    | some dn =>
      obtain ⟨d, n⟩ := dn
      exact .inr ⟨i, u, d, n, rfl, hd, resetDuring_of_dest keepNew hi hu hd⟩

theorem wellFormed_of_executing {s : State} {i : Instr} (h : s.executing = some i) : i.wellFormed = true := by
  unfold State.executing at h
  split at h
  · split at h
    · next j _ =>
      split at h
      · next hwf =>
        obtain rfl : j = i := Option.some.inj h
        exact hwf
      · cases h
    · cases h
  · cases h

theorem isDest_iff {i : Instr} {d : Addr} {n : Nat} (hd : destSpan i = some (d, n)) (a : Nat) :
    isDest i a = true ↔ d.toNat ≤ a ∧ a < d.toNat + n := by
  simp [isDest, hd]

theorem field_D_of_destSpan {i : Instr} {d : Addr} {n : Nat} (hd : destSpan i = some (d, n)) : i.field .D = d := by
  obtain ⟨m, _, h⟩ := Option.map_eq_some_iff.1 hd
  exact congrArg Prod.fst h

/-- The words of the operand store after a reset inside a command. -/
theorem resetDuring_operandWord {s u : State} {i : Instr} (keepNew : List Bool) (hi : s.executing = some i)
    (hu : exec i s = .next u) (a : Nat) : (s.resetDuring keepNew).operandWord a =
      if isDest i a && keepNew.getD (a - (i.field .D).toNat) false then u.operandWord a else s.operandWord a := by
  cases hd : destSpan i with
  | none =>
    rw [resetDuring_of_no_dest keepNew hi hu hd, operandWord_congr (resetRegisters_operands s), if_neg (by simp [isDest, hd])]
  | some dn =>
    obtain ⟨d, n⟩ := dn
    rw [State.operandWord, resetDuring_of_dest keepNew hi hu hd, resetRegisters_operands, mergeWords_word,
      field_D_of_destSpan hd]
    simp only [Bool.and_eq_true, isDest_iff hd]

/-- Settles O5: either reset clears the registers, and a reset inside a command merges its words with the old ones. -/
theorem resetClearsRegistersAndTearsOnlyDestinations : Obligations.ResetClearsRegistersAndTearsOnlyDestinations := by
  refine ⟨fun s => ⟨_, rfl, rfl, rfl, rfl, rfl, rfl, step_resetRegisters s⟩, fun s keepNew => ?_⟩
  have hwords := fun i u => resetDuring_operandWord (s := s) (u := u) (i := i) keepNew
  refine ⟨_, rfl, ?_⟩
  obtain h | ⟨i, u, d, n, hi, _, h⟩ := resetDuring_cases keepNew s
  · rw [h] at hwords ⊢
    exact ⟨rfl, rfl, rfl, rfl, step_resetRegisters s, fun _ => rfl, hwords⟩
  · rw [h] at hwords ⊢
    exact ⟨rfl, rfl, rfl, rfl, step_resetRegisters _, fun hnone => absurd (hnone.symm.trans hi) (by simp), hwords⟩

/-! ### The host's moves -/

theorem inv_hostWriteReg {s : State} (hinv : s.Inv) (n : Nat) (v : Word) : (hostWriteReg n v s).Inv := by
  have ⟨hoperands, hcommands, _⟩ := hinv
  unfold hostWriteReg
  split
  · split
    · exact inv_of_not_faulted hoperands hcommands (.inr (.inl rfl)) rfl
    · exact hinv
  · split <;> exact hinv
  · exact hinv

theorem inv_resetDuring {s : State} (hinv : s.Inv) (keepNew : List Bool) : (s.resetDuring keepNew).Inv := by
  obtain ⟨hoperands, hcommands, _⟩ := hinv
  obtain h | ⟨i, u, d, n, hi, hd, h⟩ := resetDuring_cases keepNew s
  · rw [h]
    exact inv_resetRegisters hoperands hcommands
  · rw [h]
    exact inv_resetRegisters (mergeWords_wf hoperands keepNew n (destSpan_fits (wellFormed_of_executing hi) hd)) hcommands

/-- Settles O4: `START` and the resets leave 0 in `ERRCMD`, and a host write of a word lies inside its store. -/
theorem hostMovesKeepInvariant : Obligations.HostMovesKeepInvariant := by
  intro m s t hm hinv hmove
  have ⟨hoperands, hcommands, hstatus⟩ := hinv
  cases m with
  | engine => exact absurd rfl hm
  | readReg n => cases hmove; exact hinv
  | writeReg n v => cases hmove; exact inv_hostWriteReg hinv n v
  | readOperand a => rw [afterRead_next hmove]; exact hinv
  | readCommand k => rw [afterRead_next hmove]; exact hinv
  | writeOperand a v => rw [guarded_next hmove]; exact ⟨writeWord_wf hoperands a.isLt v, hcommands, hstatus⟩
  | writeCommand k v => rw [guarded_next hmove]; exact ⟨hoperands, writeWord_wf hcommands k.isLt v, hstatus⟩
  | reset => cases hmove; exact inv_resetRegisters hoperands hcommands
  | resetDuring keepNew => cases hmove; exact inv_resetDuring hinv keepNew

/-! ### Power-up, and the parameter (70_reset_and_hazards.md R181, 42_field_ops.md R123) -/

/-- A store with nothing written is in canonical form. -/
theorem wf_nil : (Memory.mk []).wf := ⟨List.Pairwise.nil, fun _ h => absurd h List.not_mem_nil⟩

theorem inv_reset_withOffset2 (o : Offset2) : (State.reset.withOffset2 o).Inv :=
  inv_of_not_faulted wf_nil wf_nil (.inl rfl) rfl

/-- Settles O2: after power-up no byte is written, and the registers are 0. -/
theorem resetStateMeetsInvariant : Obligations.ResetStateMeetsInvariant :=
  ⟨inv_reset_withOffset2 .p32, runState_reset _ rfl, rfl, rfl, rfl⟩

theorem exec_offset2 {i : Instr} {s t : State} (hexec : exec i s = .next t) : t.offset2 = s.offset2 := by
  obtain ⟨_, rfl⟩ | ⟨_, rfl⟩ | ⟨_, d, n, r, _, rfl⟩ := exec_next hexec
  · rfl
  · rfl
  · simp

theorem step_offset2 {s t : State} (hstep : step s = .next t) : t.offset2 = s.offset2 := by
  obtain ⟨_, ⟨_, rfl⟩ | ⟨_, _, rfl⟩ | ⟨_, i, _, hexec⟩⟩ := step_next hstep
  · rfl
  · rfl
  · exact exec_offset2 hexec

theorem hostWriteReg_offset2 (n : Nat) (v : Word) (s : State) : (hostWriteReg n v s).offset2 = s.offset2 := by
  unfold hostWriteReg
  split
  · split <;> rfl
  · split <;> rfl
  · rfl

theorem resetDuring_offset2 (keepNew : List Bool) (s : State) : (s.resetDuring keepNew).offset2 = s.offset2 := by
  obtain h | ⟨i, u, d, n, _, _, h⟩ := resetDuring_cases keepNew s <;> rw [h] <;> rfl

theorem move_offset2 {m : Move} {s t : State} (hmove : move m s = .next t) : t.offset2 = s.offset2 := by
  cases m with
  | engine => exact step_offset2 hmove
  | readReg n => cases hmove; rfl
  | writeReg n v => cases hmove; exact hostWriteReg_offset2 n v s
  | readOperand a => rw [afterRead_next hmove]
  | readCommand k => rw [afterRead_next hmove]
  | writeOperand a v => rw [guarded_next hmove]
  | writeCommand k v => rw [guarded_next hmove]
  | reset => cases hmove; rfl
  | resetDuring keepNew => cases hmove; exact resetDuring_offset2 keepNew s

/-- Settles O55: no update of the state writes the parameter. -/
theorem theParameterIsTakenAndNeverChanged : Obligations.TheParameterIsTakenAndNeverChanged :=
  ⟨rfl, rfl, rfl, fun o => ⟨inv_reset_withOffset2 o, rfl, runState_reset _ rfl⟩, fun _ _ _ => exec_offset2,
    fun _ _ _ => move_offset2⟩

end Sys2Proof.Machine
end

section
/-! PROOFS. Runs (44_sequencer.md R151, R152): what a step does to `PC`, `STATUS`, `ERRCMD` and the command store depends on
those alone, and straight-line code runs its commands in order. -/

namespace Sys2Proof.Machine

open Host (Outcome)

/-! ### One step -/

/-- Settles O10: the fetch finds the command's word, and the step is the command. -/
theorem stepRunsTheDecodedCommand : Obligations.StepRunsTheDecodedCommand := fun _ _ => step_of_decode_ok

/-- Settles O16: a command that completes advances `PC`; `HALT` and each fault keep it and end the run. -/
theorem pcMovesByOneOrTheRunEnds : Obligations.PcMovesByOneOrTheRunEnds := by
  intro s t hstep
  obtain ⟨_, ⟨_, rfl⟩ | ⟨_, _, rfl⟩ | ⟨hin, i, _, hexec⟩⟩ := step_next hstep
  · exact .inr ⟨rfl, .inr ⟨_, rfl⟩⟩
  · exact .inr ⟨rfl, .inr ⟨_, rfl⟩⟩
  · have hpc : s.pc.toNat < 4096 := pcOutOfStore_eq_false_iff.1 hin
    obtain ⟨_, rfl⟩ | ⟨_, rfl⟩ | ⟨_, d, n, r, _, rfl⟩ := exec_next hexec
    · exact .inr ⟨rfl, .inl rfl⟩
    · exact .inr ⟨rfl, .inr ⟨_, rfl⟩⟩
    · refine .inl ⟨?_, hpc, by simp⟩
      rw [advance_pc_toNat (by simpa using hpc), writeResult_pc]

/-! ### Faults repeat (60_exceptions.md R163) -/

/-- A command that completes or halts leaves the `FAULT` bit of a RUNNING engine clear. -/
theorem fault_eq_false_of_status {s : State} (h : s.runState = some .running ∨ s.runState = some .done) :
    s.fault = false := by
  have hbits : s.status.extractLsb' 0 3 = 0b001 ∨ s.status.extractLsb' 0 3 = 0b010 :=
    h.imp (runState_eq_some_iff s .running).1 (runState_eq_some_iff s .done).1
  have hbit : s.fault = (s.status.extractLsb' 0 3).getLsbD 2 := by simp [State.fault]
  obtain h | h := hbits <;> rw [hbit, h] <;> rfl

/-- A step that ends in a fault is a fault entry, and one that any engine standing at the same index of the same command
store takes: whether a step faults depends on nothing else. -/
theorem step_fault {s t : State} (hstep : step s = .next t) (hfault : t.fault = true) :
    ∃ c w, t = s.raiseFault c w ∧
      ∀ u : State, u.runState = some .running → u.commands = s.commands → u.pc = s.pc →
        step u = .next (u.raiseFault c w) := by
  obtain ⟨hrun, ⟨hout, rfl⟩ | ⟨hin, ⟨r, hdecode⟩, rfl⟩ | ⟨hin, i, hdecode, hexec⟩⟩ := step_next hstep
  · refine ⟨_, _, rfl, fun u hurun _ hupc => step_of_pc_ge hurun ?_⟩
    rw [hupc]
    exact of_decide_eq_true hout
  · refine ⟨_, _, rfl, fun u hurun hucommands hupc => ?_⟩
    have hfetch := fetchWord_congr hucommands hupc
    rw [← hfetch] at hdecode ⊢
    exact step_of_decode_error hurun (hupc ▸ pcOutOfStore_eq_false_iff.1 hin) hdecode
  · cases hwf : i.wellFormed with
    | true =>
      have hended := (exec_runState_of_wellFormed hwf hexec).symm.imp_left (·.trans hrun)
      exact absurd (hfault.symm.trans (fault_eq_false_of_status hended)) (by decide)
    | false =>
      obtain rfl : s.raiseFault .operandRange (encode i) = t :=
        Outcome.next.inj ((exec_of_not_wellFormed hwf s).symm.trans hexec)
      refine ⟨_, _, rfl, fun u hurun hucommands hupc => ?_⟩
      rw [← fetchWord_congr hucommands hupc] at hdecode
      rw [encode_of_decode hdecode]
      exact step_of_not_wellFormed hurun (hupc ▸ pcOutOfStore_eq_false_iff.1 hin) hdecode hwf

theorem busy_of_faulted {s : State} {c : Cause} (h : s.status = statusFaulted c) : s.busy = false := by
  rw [State.busy, h]
  cases c <;> decide

/-- Settles O15: `START` keeps what the fault depends on, and the entry overwrites what `START` changed. -/
theorem startAfterAFaultFaultsAgain : Obligations.StartAfterAFaultFaultsAgain := by
  intro s t hstep hfault
  obtain ⟨c, w, rfl, hagain⟩ := step_fault hstep hfault
  have hidle : (s.raiseFault c w).busy = false := busy_of_faulted (raiseFault_status s c w)
  exact ⟨(s.raiseFault c w).start, congrArg Outcome.next (hostWriteReg_start hidle (by decide)), rfl, rfl, rfl, rfl, rfl,
    hagain _ (runState_start _) rfl rfl⟩

/-! ### Steps keep the command store, and control does not depend on data -/

theorem exec_commands {i : Instr} {s t : State} (hexec : exec i s = .next t) : t.commands = s.commands := by
  obtain ⟨_, rfl⟩ | ⟨_, rfl⟩ | ⟨_, d, n, r, _, rfl⟩ := exec_next hexec
  · rfl
  · rfl
  · simp

theorem step_commands {s t : State} (hstep : step s = .next t) : t.commands = s.commands := by
  obtain ⟨_, ⟨_, rfl⟩ | ⟨_, _, rfl⟩ | ⟨_, i, _, hexec⟩⟩ := step_next hstep
  · rfl
  · rfl
  · exact exec_commands hexec

/-- The first step of a run that has a next state, and the rest of the run. -/
theorem steps_succ_next {k : Nat} {s u : State} (h : steps (k + 1) s = .next u) :
    ∃ t, step s = .next t ∧ steps k t = .next u := by
  rw [steps] at h
  split at h
  · next t ht => exact ⟨t, ht, h⟩
  · cases h
  · cases h

/-- Settles O18: no step writes the command store. -/
theorem commandStoreNeverWrittenByARun : Obligations.CommandStoreNeverWrittenByARun := by
  intro k
  induction k with
  | zero =>
    intro s t hsteps
    cases hsteps
    rfl
  | succ k ih =>
    intro s t hsteps
    obtain ⟨u, hstep, hrest⟩ := steps_succ_next hsteps
    exact (ih u t hrest).trans (step_commands hstep)

/-- A command does the same to the registers and the command store of two states that have them in common: whether it halts,
faults or completes is fixed by the command. -/
theorem exec_sameControl {i : Instr} {s s' t : State} (hsame : SameControl s s') (hexec : exec i s = .next t) :
    ∃ t', exec i s' = .next t' ∧ SameControl t t' := by
  obtain ⟨hcommands, hpc, hstatus, herrcmd⟩ := hsame
  obtain ⟨t', hexec'⟩ := exec_exists_next i s'
  refine ⟨t', hexec', ?_⟩
  obtain ⟨rfl, rfl⟩ | ⟨hnot, rfl⟩ | ⟨hwf, d, n, r, hd, rfl⟩ := exec_next hexec
  · obtain rfl : { s' with status := statusDone } = t' := Outcome.next.inj ((exec_halt s').symm.trans hexec')
    exact ⟨hcommands, hpc, rfl, herrcmd⟩
  · obtain rfl : s'.raiseFault .operandRange (encode i) = t' :=
      Outcome.next.inj ((exec_of_not_wellFormed hnot s').symm.trans hexec')
    exact ⟨hcommands, hpc, rfl, rfl⟩
  · obtain ⟨rfl, _⟩ | ⟨hnot, _⟩ | ⟨_, d', n', r', _, rfl⟩ := exec_next hexec'
    · cases hd
    · exact absurd (hwf.symm.trans hnot) (by decide)
    · exact ⟨by simp [hcommands], by simp [hpc], by simp [hstatus], by simp [herrcmd]⟩

theorem step_sameControl {s s' t : State} (hsame : SameControl s s') (hstep : step s = .next t) :
    ∃ t', step s' = .next t' ∧ SameControl t t' := by
  have ⟨hcommands, hpc, hstatus, herrcmd⟩ := hsame
  obtain ⟨hrun, hcase⟩ := step_next hstep
  have hrun' : s'.runState = some .running := (runState_congr hstatus).symm.trans hrun
  have hfetch : s.fetchWord = s'.fetchWord := fetchWord_congr hcommands hpc
  have hin (h : s.pcOutOfStore = false) : s'.pc.toNat < 4096 := hpc ▸ pcOutOfStore_eq_false_iff.1 h
  obtain ⟨hout, rfl⟩ | ⟨hinside, ⟨r, hdecode⟩, rfl⟩ | ⟨hinside, i, hdecode, hexec⟩ := hcase
  · exact ⟨_, step_of_pc_ge hrun' (hpc ▸ of_decide_eq_true hout), hcommands, hpc, rfl, rfl⟩
  · exact ⟨_, step_of_decode_error hrun' (hin hinside) (hfetch ▸ hdecode), hcommands, hpc, rfl, hfetch⟩
  · obtain ⟨t', hexec', hsame'⟩ := exec_sameControl hsame hexec
    exact ⟨t', (step_of_decode_ok hrun' (hin hinside) (hfetch ▸ hdecode)).trans hexec', hsame'⟩

/-- Settles O19: a step keeps the agreement of the two states, whichever of its ways it goes. -/
theorem controlDoesNotDependOnData : Obligations.ControlDoesNotDependOnData := by
  intro k
  induction k with
  | zero =>
    intro s s' t hsame hsteps
    cases hsteps
    exact ⟨s', rfl, hsame⟩
  | succ k ih =>
    intro s s' t hsame hsteps
    obtain ⟨u, hstep, hrest⟩ := steps_succ_next hsteps
    obtain ⟨u', hstep', hsame'⟩ := step_sameControl hsame hstep
    obtain ⟨t', hrest', hend⟩ := ih u u' t hsame' hrest
    exact ⟨t', (steps_succ_of_next hstep' k).trans hrest', hend⟩

/-! ### Straight-line code -/

/-- The first command of a program stands at `PC`. -/
theorem programAt_head {s : State} {i : Instr} {l : List Instr} (h : programAt s (i :: l)) :
    s.pc.toNat < 4096 ∧ decode s.fetchWord = .ok i := by
  obtain ⟨hfits, hwords⟩ := h
  rw [List.length_cons] at hfits
  exact ⟨by unfold storeWords at hfits; omega, hwords 0 i rfl⟩

/-- The rest of it stands at the next `PC`. -/
theorem programAt_tail {s t : State} {i : Instr} {l : List Instr} (h : programAt s (i :: l))
    (hcommands : t.commands = s.commands) (hpc : t.pc.toNat = s.pc.toNat + 1) : programAt t l := by
  obtain ⟨hfits, hwords⟩ := h
  rw [List.length_cons] at hfits
  refine ⟨by omega, fun j k hk => ?_⟩
  rw [commandWord_congr hcommands, hpc, show s.pc.toNat + 1 + j = s.pc.toNat + (j + 1) by omega]
  exact hwords (j + 1) k hk

/-- A well-formed command that is no `HALT`, executed inside the command store, completes: `PC` moves on, and the registers
and the command store are as before. -/
theorem exec_completes {i : Instr} {s : State} (hi : i ≠ .halt) (hwf : i.wellFormed = true) (hpc : s.pc.toNat < 4096) :
    ∃ t, exec i s = .next t ∧ t.pc.toNat = s.pc.toNat + 1 ∧ t.status = s.status ∧ t.commands = s.commands := by
  obtain ⟨n, hn⟩ := exists_width_D hi
  refine ⟨_, exec_of_width hwf hn s, ?_, by simp, by simp⟩
  rw [advance_pc_toNat (by simpa using hpc), writeResult_pc]

theorem steps_add {j k : Nat} {s t : State} (h : steps j s = .next t) : steps (j + k) s = steps k t := by
  induction j generalizing s with
  | zero =>
    cases h
    rw [Nat.zero_add]
  | succ j ih =>
    obtain ⟨u, hstep, hrest⟩ := steps_succ_next h
    rw [Nat.add_right_comm, steps_succ_of_next hstep, ih hrest]

/-- The commands of a program run in order up to any command that stands after them. -/
theorem steps_program : ∀ (l m : List Instr) (s : State), s.runState = some .running → programAt s (l ++ m) →
    (∀ i ∈ l, i ≠ .halt ∧ i.wellFormed = true) →
    ∃ t, steps l.length s = .next t ∧ execAll l s = .next t ∧ t.pc.toNat = s.pc.toNat + l.length ∧ t.status = s.status ∧
      programAt t m
  | [], _, s, _, hprogram, _ => ⟨s, rfl, rfl, rfl, rfl, hprogram⟩
  | i :: l, m, s, hrun, hprogram, hl => by
    obtain ⟨hpc, hdecode⟩ := programAt_head hprogram
    obtain ⟨hi, hwf⟩ := hl i (List.mem_cons_self ..)
    obtain ⟨u, hexec, hupc, hustatus, hucommands⟩ := exec_completes hi hwf hpc
    have hstep : step s = .next u := (step_of_decode_ok hrun hpc hdecode).trans hexec
    obtain ⟨t, hsteps, hall, htpc, htstatus, htail⟩ := steps_program l m u ((runState_congr hustatus).trans hrun)
      (programAt_tail hprogram hucommands hupc) fun j hj => hl j (List.mem_cons_of_mem _ hj)
    refine ⟨t, (steps_succ_of_next hstep _).trans hsteps, (execAll_cons_of_next hexec l).trans hall, ?_,
      htstatus.trans hustatus, htail⟩
    rw [htpc, hupc, List.length_cons]
    omega

/-- Settles O20: `steps_program` with nothing after the commands. -/
theorem straightLineRunExecutesInOrder : Obligations.StraightLineRunExecutesInOrder := by
  intro l s hrun hprogram hl
  obtain ⟨t, hsteps, hall, hpc, hstatus, _⟩ := steps_program l [] s hrun (by rwa [List.append_nil]) hl
  exact ⟨hsteps.trans hall.symm, t, hall, hpc, hstatus⟩

/-! ### Programs without contracts (70_reset_and_hazards.md R185) -/

theorem exec_draws_of_contract {i : Instr} {s t : State} (hi : i ≠ .halt) (hwf : i.wellFormed = true)
    (hcontract : contract i s = true) (hexec : exec i s = .next t) : t.draws = s.draws := by
  obtain ⟨n, hn⟩ := exists_width_D hi
  obtain ⟨u, hu, hkept, _⟩ := freeValuesExactlyWhereAContractIsBroken i s n hwf hn
  obtain rfl : u = t := Outcome.next.inj (hu.symm.trans hexec)
  obtain ⟨_, hdraws⟩ := hkept hcontract
  exact hdraws

/-- Commands whose contracts hold in every state of the engine's parameter draw nothing, one after the other. -/
theorem execAll_draws {o : Offset2} : ∀ (l : List Instr) (s t : State), s.offset2 = o →
    (∀ i ∈ l, i.wellFormed = true ∧ i ≠ .halt ∧ ∀ u : State, u.offset2 = o → contract i u = true) →
    execAll l s = .next t → t.draws = s.draws
  | [], s, t, _, _, hall => by
    cases hall
    rfl
  | i :: l, s, t, ho, hl, hall => by
    obtain ⟨hwf, hi, hcontract⟩ := hl i (List.mem_cons_self ..)
    obtain ⟨u, hexec⟩ := exec_exists_next i s
    rw [execAll_cons_of_next hexec] at hall
    have hrest := execAll_draws l u t ((exec_offset2 hexec).trans ho) (fun j hj => hl j (List.mem_cons_of_mem _ hj)) hall
    exact hrest.trans (exec_draws_of_contract hi hwf (hcontract s ho) hexec)

/-- Settles O21: the commands run in order and draw nothing, and the `HALT` after them ends the run. -/
theorem contractFreeProgramsRunSafely : Obligations.ContractFreeProgramsRunSafely := by
  intro l s hrun hprogram hl
  have hplain : ∀ i ∈ l, i ≠ .halt ∧ i.wellFormed = true := fun i hi => by
    obtain ⟨hwf, hne, _⟩ := hl i hi
    exact ⟨hne, hwf⟩
  obtain ⟨t, hsteps, hall, _, hstatus, hhalt⟩ := steps_program l [.halt] s hrun hprogram hplain
  obtain ⟨hpc, hdecode⟩ := programAt_head hhalt
  have hend : steps 1 t = .next { t with status := statusDone } :=
    steps_succ_of_next ((step_of_decode_ok ((runState_congr hstatus).trans hrun) hpc hdecode).trans (exec_halt t)) 0
  exact ⟨l.length + 1, _, (steps_add hsteps).trans hend, rfl, execAll_draws l s t rfl hl hall⟩

end Sys2Proof.Machine
end

section
/-! PROOFS. The stores as data (20_memory.md R44): a store in canonical form is fixed by the bytes it lists. -/

namespace Sys2Proof.Machine

/-- No byte is listed below the first of a list whose addresses rise. -/
theorem lookupCell_eq_none {x : Nat} : ∀ {l : List Host.Cell}, (∀ e ∈ l, x < e.1) → lookupCell x l = none
  | [], _ => rfl
  | (y, b) :: l, h => by
    have hy : x < y := h (y, b) (List.mem_cons_self ..)
    rw [lookupCell, if_neg (by omega), lookupCell_eq_none fun e he => h e (List.mem_cons_of_mem _ he)]

@[simp] theorem lookupCell_head (x : Nat) (b : Byte) (l : List Host.Cell) : lookupCell x ((x, b) :: l) = some b :=
  if_pos rfl

theorem lookupCell_tail {x y : Nat} (h : x ≠ y) (b : Byte) (l : List Host.Cell) :
    lookupCell x ((y, b) :: l) = lookupCell x l := if_neg h

/-- The first addresses of two rising lists that list the same bytes are the same: the list that began later would not list
the byte of the other's. -/
theorem head_le_of_lookupCell_eq {x y : Nat} {b c : Byte} {l m : List Host.Cell} (hm : ∀ e ∈ m, y < e.1)
    (h : lookupCell x ((x, b) :: l) = lookupCell x ((y, c) :: m)) : y ≤ x := by
  by_contra hlt
  have hnone : lookupCell x ((y, c) :: m) = none := lookupCell_eq_none fun e he => by
    rcases List.mem_cons.1 he with rfl | he
    · exact Nat.not_le.1 hlt
    · exact (Nat.not_le.1 hlt).trans (hm e he)
  rw [lookupCell_head, hnone] at h
  cases h

theorem cells_eq_of_lookupCell_eq : ∀ {l m : List Host.Cell}, l.Pairwise (fun c c' => c.1 < c'.1) →
    m.Pairwise (fun c c' => c.1 < c'.1) → (∀ x, lookupCell x l = lookupCell x m) → l = m
  | [], [], _, _, _ => rfl
  | [], (y, c) :: m, _, _, h => by simpa [lookupCell] using h y
  | (x, b) :: l, [], _, _, h => by simpa [lookupCell] using h x
  | (x, b) :: l, (y, c) :: m, hl, hm, h => by
    obtain ⟨hx, hl'⟩ := List.pairwise_cons.1 hl
    obtain ⟨hy, hm'⟩ := List.pairwise_cons.1 hm
    obtain rfl : x = y := Nat.le_antisymm (head_le_of_lookupCell_eq hx (h y).symm) (head_le_of_lookupCell_eq hy (h x))
    obtain rfl : b = c := by simpa using h x
    rw [cells_eq_of_lookupCell_eq hl' hm' fun z => ?_]
    by_cases hz : z = x
    · rw [hz, lookupCell_eq_none hx, lookupCell_eq_none hy]
    · rw [← lookupCell_tail hz b l, h z, lookupCell_tail hz]

/-- Settles O52: two rising lists of cells with the same lookups have the same first cell, and so on. -/
theorem equalStoresAreEqualData : Obligations.EqualStoresAreEqualData := by
  rintro ⟨l⟩ ⟨m⟩ ⟨hl, _⟩ ⟨hm, _⟩ h
  exact congrArg Memory.mk (cells_eq_of_lookupCell_eq hl hm h)

end Sys2Proof.Machine
end

section
/-! PROOFS. The host's moves while `BUSY` is 0 and while it is 1 (10_state.md R24 to R28, 20_memory.md R40, R41, R56), and the
boot sequence made of them (70_reset_and_hazards.md R182). -/

namespace Sys2Proof.Machine

open Host (Outcome)

/-! ### The register block (10_state.md R24 to R28) -/

theorem hostWriteReg_pc {s : State} (hidle : s.busy = false) (v : Word) :
    hostWriteReg 2 v s = { s with pc := v.extractLsb' 0 13 } := by
  simp [hostWriteReg, hidle]

theorem hostWriteReg_no_start {s : State} {v : Word} (hv : v.getLsbD 0 = false) : hostWriteReg 0 v s = s := by
  simp only [hostWriteReg, hv, Bool.false_and, Bool.false_eq_true, if_false]

/-- Bits 12:0 of a word (10_state.md R27). -/
theorem extract_pc_toNat (v : Word) : (v.extractLsb' 0 13).toNat = v.toNat % 8192 := by
  simp [BitVec.extractLsb'_toNat]

/-- The numbers above 3 name no register. -/
theorem hostReadReg_of_gt {n : Nat} (hn : n > 3) (s : State) : hostReadReg n s = 0 := by
  unfold hostReadReg
  split <;> first | omega | rfl

theorem hostWriteReg_ignored {n : Nat} (hn : n = 1 ∨ n ≥ 3) (v : Word) (s : State) : hostWriteReg n v s = s := by
  unfold hostWriteReg
  split <;> first | omega | rfl

/-- Settles O47: each number of R24, read and written. -/
theorem registerBlockReadsAndIgnoredWrites : Obligations.RegisterBlockReadsAndIgnoredWrites := by
  intro s
  have hpc : (hostReadReg 2 s).toNat = s.pc.toNat := by
    have hlt : s.pc.toNat < 2 ^ 64 := s.pc.isLt.trans (by norm_num)
    simpa [hostReadReg] using hlt
  exact ⟨rfl, rfl, hpc, rfl, fun n hn => hostReadReg_of_gt hn s, fun _ => rfl,
    fun n v hn => congrArg Outcome.next (hostWriteReg_ignored hn v s)⟩

/-- Settles O48: what each of the two writes does while `BUSY` is 0; while it is 1 no register write does anything. -/
theorem startAndPcWritesTakeEffectOnlyWhenIdle : Obligations.StartAndPcWritesTakeEffectOnlyWhenIdle := by
  intro s v
  refine ⟨fun hidle hv => ?_, fun hignored => congrArg Outcome.next ?_, fun hidle => ?_,
    fun hbusy => congrArg Outcome.next (hostWriteReg_of_busy hbusy 2 v)⟩
  · exact ⟨s.start, congrArg Outcome.next (hostWriteReg_start hidle hv), rfl, rfl, rfl, rfl, rfl, rfl, runState_start s⟩
  · exact hignored.elim (fun hbusy => hostWriteReg_of_busy hbusy 0 v) hostWriteReg_no_start
  · exact ⟨_, congrArg Outcome.next (hostWriteReg_pc hidle v), extract_pc_toNat v, rfl, rfl, rfl, rfl, rfl⟩

/-! ### The stores (20_memory.md R40, R41, R56) -/

/-- `s` with a word written to the operand store. -/
def State.setOperand (s : State) (a : Addr) (w : Word) : State := { s with operands := s.operands.writeWord a.toNat w }

/-- `s` with a word written to the command store. -/
def State.setCommand (s : State) (k : Addr) (w : Word) : State := { s with commands := s.commands.writeWord k.toNat w }

theorem move_writeOperand {s : State} (hidle : s.busy = false) (a : Addr) (w : Word) :
    move (.writeOperand a w) s = .next (s.setOperand a w) := by
  simp [move, hostWriteOperand, hidle, State.setOperand]

theorem move_writeCommand {s : State} (hidle : s.busy = false) (k : Addr) (w : Word) :
    move (.writeCommand k w) s = .next (s.setCommand k w) := by
  simp [move, hostWriteCommand, hidle, State.setCommand]

theorem hostReadOperand_idle {s : State} (hidle : s.busy = false) (a : Addr) :
    hostReadOperand a s = .ok (s.operandWord a.toNat) := by
  simp [hostReadOperand, hidle]

theorem hostReadCommand_idle {s : State} (hidle : s.busy = false) (k : Addr) :
    hostReadCommand k s = .ok (s.commandWord k.toNat) := by
  simp [hostReadCommand, hidle]

theorem setOperand_operandWord (s : State) (a : Addr) (w : Word) : (s.setOperand a w).operandWord a.toNat = w := by
  rw [State.operandWord, State.setOperand, writeWord_word, if_pos rfl]

theorem setCommand_commandWord (s : State) (k : Addr) (w : Word) : (s.setCommand k w).commandWord k.toNat = w := by
  rw [State.commandWord, State.setCommand, writeWord_word, if_pos rfl]

theorem setOperand_operandByte {s : State} {a : Addr} {x : Nat} (hx : ¬ inSpan a 1 x) (w : Word) :
    (s.setOperand a w).operandByte x = s.operandByte x := by
  rw [State.operandByte, State.setOperand, writeWord_byte]
  exact if_neg hx

theorem setCommand_commandByte {s : State} {k : Addr} {x : Nat} (hx : ¬ inSpan k 1 x) (w : Word) :
    (s.setCommand k w).commandByte x = s.commandByte x := by
  rw [State.commandByte, State.setCommand, writeWord_byte]
  exact if_neg hx

/-- Settles O49: the four store moves, each a plain access where `BUSY` is 0 and a refusal where it is 1. -/
theorem hostStoreAccessOnlyWhenNotBusy : Obligations.HostStoreAccessOnlyWhenNotBusy := by
  intro s a v
  constructor
  · intro hidle
    have hoperand : hostReadOperand a (s.setOperand a v) = .ok v := by
      rw [hostReadOperand_idle (s := s.setOperand a v) hidle, setOperand_operandWord]
    have hcommand : hostReadCommand a (s.setCommand a v) = .ok v := by
      rw [hostReadCommand_idle (s := s.setCommand a v) hidle, setCommand_commandWord]
    refine ⟨⟨_, move_writeOperand hidle a v, hoperand, fun x hx => setOperand_operandByte hx v, rfl, rfl, rfl, rfl, rfl⟩,
      ⟨_, move_writeCommand hidle a v, hcommand, fun x hx => setCommand_commandByte hx v, rfl, rfl, rfl, rfl, rfl⟩,
      hostReadOperand_idle hidle a, ?_, hostReadCommand_idle hidle a, ?_⟩
    · rw [move, hostReadOperand_idle hidle, afterRead]
    · rw [move, hostReadCommand_idle hidle, afterRead]
  · intro hbusy
    simp [move, hostWriteOperand, hostWriteCommand, hostReadOperand, hostReadCommand, afterRead, hbusy]

/-! ### The boot sequence (70_reset_and_hazards.md R182) -/

theorem moves_cons_of_next {m : Move} {s t : State} (h : move m s = .next t) (ms : List Move) :
    moves (m :: ms) s = moves ms t := by
  rw [moves, h]

/-- A 13-bit index written through the 64-bit register arrives whole. -/
theorem extract_setWidth_index (k : Index) : (k.setWidth 64).extractLsb' 0 13 = k := by
  refine BitVec.eq_of_toNat_eq ?_
  have hk := k.isLt
  rw [extract_pc_toNat, BitVec.toNat_setWidth]
  omega

/-- `s` after the host wrote `PC` and `START` (70_reset_and_hazards.md R182, steps 4 and 5). -/
def State.startedAt (s : State) (k : Index) : State := ({ s with pc := k } : State).start

theorem moves_startAt {s : State} (hidle : s.busy = false) (k : Index) : moves (startAt k) s = .next (s.startedAt k) := by
  have hpc : move (.writeReg 2 (k.setWidth 64)) s = .next { s with pc := k } := by
    rw [move, hostWriteReg_pc hidle, extract_setWidth_index]
  have hstart : move (.writeReg 0 1) { s with pc := k } = .next (s.startedAt k) := by
    rw [move, hostWriteReg_start (s := { s with pc := k }) hidle (by decide), State.startedAt]
  rw [startAt, moves_cons_of_next hpc, moves_cons_of_next hstart, moves]

theorem moves_boot {s : State} (hidle : s.busy = false) (k : Addr) (w : Word) :
    moves (loadCommands k [w] ++ startAt (k.setWidth 13)) s = .next ((s.setCommand k w).startedAt (k.setWidth 13)) :=
  (moves_cons_of_next (move_writeCommand hidle k w) _).trans (moves_startAt (s := s.setCommand k w) hidle _)

theorem startedAt_pc (s : State) (k : Addr) : (s.startedAt (k.setWidth 13)).pc.toNat = k.toNat := by
  rw [State.startedAt, start_pc, BitVec.toNat_setWidth_of_le (by omega)]

/-- Settles O51: the started engine is RUNNING, and fetches the word the host wrote, which decodes to its command. -/
theorem bootRunsTheCommandTheHostWrote : Obligations.BootRunsTheCommandTheHostWrote := by
  intro s k i hidle
  have hpc := startedAt_pc (s.setCommand k (encode i)) k
  have hfetch : ((s.setCommand k (encode i)).startedAt (k.setWidth 13)).fetchWord = encode i := by
    rw [State.fetchWord, hpc]
    exact setCommand_commandWord s k (encode i)
  exact ⟨_, moves_boot hidle k (encode i), runState_start _, rfl, hpc, rfl,
    step_of_decode_ok (runState_start _) (hpc.trans_lt k.isLt) (by rw [hfetch, decode_encode])⟩

end Sys2Proof.Machine
end

section
/-! PROOFS. The Montgomery commands (43_montgomery.md R131 to R140): one round on its window, the ranges of the products, and a
multiplication by four explicit rounds on a buffer in the operand store (95_test_vectors.md P6). -/

namespace Sys2Proof.Machine

/-! ### One round (R131, R133, R139) -/

theorem windowLimit_eq : windowLimit = 2 ^ (64 * 6) := by rw [windowLimit]

/-- What a round adds is a multiple of p, and it leaves the lowest word 0. -/
theorem roundSum_mod_word (acc xi y : Nat) : roundSum acc xi y % 2 ^ 64 = 0 := by
  obtain ⟨u, q, _, hsum, hsplit⟩ := roundSum_split acc xi y
  rw [hsum, hsplit, Nat.mul_mod_right]

theorem roundSum_mod_P (acc xi y : Nat) : roundSum acc xi y % P = (acc + xi * y) % P := Nat.add_mul_mod_self_right ..

/-- xi*y is below 2^320 and u*p below 2^316, so an accumulator that is 2^321 short of the limit keeps the contract. -/
theorem roundSum_lt {acc xi y : Nat} (hxi : xi < 2 ^ 64) (hy : y < 2 ^ 256) (hacc : acc + 2 ^ 321 < windowLimit) :
    roundSum acc xi y < windowLimit := by
  obtain ⟨u, _, hu, hsum, _⟩ := roundSum_split acc xi y
  have hprod : xi * y ≤ 2 ^ 64 * 2 ^ 256 := Nat.mul_le_mul hxi.le hy.le
  have hcancel : u * P ≤ 2 ^ 64 * 2 ^ 252 := Nat.mul_le_mul hu.le (by norm_num [P])
  omega

/-- Settles O42: `roundSum` of the three operands is what the round writes below the limit and draws for above it. -/
theorem montRoundCancelsTheLowestWord : Obligations.MontRoundCancelsTheLowestWord := by
  rintro d a b c s a1 u hwf rfl rfl
  have hround := montgomeryRound_eq (s.memRead a 6) (s.memRead c 1) (s.memRead b 4)
  refine ⟨fun hkept => ?_, fun hbroken => ?_, fun hacc => ?_, rfl⟩
  · obtain ⟨t, hexec, hwrote⟩ :=
      exec_wrote_of_result (exec_montRound d a b c s) hwf (hround.trans (if_pos hkept)) (hkept.trans_eq windowLimit_eq)
    refine ⟨t, hexec, hwrote, BitVec.eq_of_toNat_eq ?_, roundSum_mod_P ..⟩
    have hword := hwrote.operandWord (j := 0) (by omega)
    exact hword.trans ((wordAt_zero _).trans (roundSum_mod_word ..))
  · have hnone := hround.trans (if_neg (Nat.not_lt.2 hbroken))
    refine ⟨_, exec_montRound d a b c s, ?_⟩
    rw [State.window, State.word1, State.element, hnone]
    exact runCommand_drew hwf s d 6
  · exact roundSum_lt (memRead_lt s c 1) (memRead_lt s b 4) hacc

/-! ### The ranges of the products (R139, R140) -/

/-- The quotient of the rounds stays below 2p when x*y is below 2^256 * p, and `overflow_reduce` leaves it as it is. -/
theorem montgomeryMult_lt_two_P {x y v : Nat} (hx : x < 2 ^ 256) (hy : y < 2 ^ 256) (hxy : x * y < 2 ^ 256 * P)
    (hv : montgomeryMult x y = some v) : v < 2 * P := by
  have hP : 2 * P < 2 ^ 256 := by norm_num [P]
  obtain ⟨U, T, hU, _, hquot, hmult⟩ := montgomeryMult_rounds hx hy
  have hUP : U * P < 2 ^ 256 * P := Nat.mul_lt_mul_of_pos_right hU (by norm_num [P])
  have hT : T < 2 * P := by omega
  rw [hmult, overflowReduce_low (hT.trans hP)] at hv
  exact Option.some.inj hv ▸ hT

/-- Two factors below 2p have a product below 4p^2, which is below 2^256 * p. -/
theorem mul_lt_of_lt_two_P {x y : Nat} (hx : x < 2 * P) (hy : y < 2 * P) : x * y < 2 ^ 256 * P :=
  calc x * y ≤ 2 * P * (2 * P) := Nat.mul_le_mul hx.le hy.le
    _ < 2 ^ 256 * P := by norm_num [P]

/-- The cube is the product of the square and the element, so it carries 2^512. -/
theorem montgomeryCube_product {x : Nat} (hx : x < 2 ^ 256) :
    ∃ v, (montgomeryMult x x).bind (fun sq => montgomeryMult sq x) = some v ∧ v < 2 ^ 256 ∧
      v * 2 ^ 512 ≡ x ^ 3 [MOD P] ∧ (x < 2 * P → v < 2 * P) := by
  obtain ⟨sq, hsq, hsqlt, hsqcongr⟩ := montgomeryMult_product hx hx
  obtain ⟨v, hv, hlt, hcongr⟩ := montgomeryMult_product hsqlt hx
  refine ⟨v, by rw [hsq, Option.bind_some, hv], hlt, ?_, fun hsmall => ?_⟩
  · calc v * 2 ^ 512 = v * 2 ^ 256 * 2 ^ 256 := by rw [Nat.mul_assoc, ← pow_add]
      _ ≡ sq * x * 2 ^ 256 [MOD P] := hcongr.mul_right _
      _ = sq * 2 ^ 256 * x := Nat.mul_right_comm ..
      _ ≡ x * x * x [MOD P] := hsqcongr.mul_right _
      _ = x ^ 3 := by ring
  · have hsqsmall := montgomeryMult_lt_two_P hx hx (mul_lt_of_lt_two_P hsmall hsmall) hsq
    exact montgomeryMult_lt_two_P hsqlt hx (mul_lt_of_lt_two_P hsqsmall hsmall) hv

/-- Settles O44: the congruences are those of the products, the ranges those of their quotients. -/
theorem montgomeryResultsAreCongruentAndBounded : Obligations.MontgomeryResultsAreCongruentAndBounded := by
  intro d a b s
  have ha : s.memRead a 4 < 2 ^ 256 := memRead_lt s a 4
  have hb : s.memRead b 4 < 2 ^ 256 := memRead_lt s b 4
  refine ⟨fun hwf => ?_, fun hwf => ?_, fun hwf => ?_, fun hwf => ?_⟩
  · obtain ⟨v, hv, hlt, hcongr⟩ := montgomeryMult_product ha hb
    obtain ⟨t, hexec, hwrote⟩ := exec_wrote_of_result (exec_montMult d a b s) hwf hv hlt
    exact ⟨t, v, hexec, hwrote, hcongr, hlt,
      fun hx hy => montgomeryMult_lt_two_P ha hb (mul_lt_of_lt_two_P hx hy) hv⟩
  · have hprod : s.memRead a 4 * constMont2256 < 2 ^ 256 * P :=
      Nat.mul_lt_mul_of_lt_of_le ha constMont2256_lt.le (by norm_num [P])
    obtain ⟨v, hv, hlt, hcongr⟩ := montgomeryMult_constMont2256 ha
    obtain ⟨t, hexec, hwrote⟩ := exec_wrote_of_result (exec_toMont d a s) hwf hv hlt
    exact ⟨t, v, hexec, hwrote, hcongr,
      montgomeryMult_lt_two_P ha (constMont2256_lt.trans (by norm_num [P])) hprod hv⟩
  · obtain ⟨t, v, hexec, hwrote, hlt, hcongr⟩ := exec_fromMont_wrote hwf s
    exact ⟨t, v, hexec, hwrote, hcongr, hlt⟩
  · obtain ⟨v, hv, hlt, hcongr, hsmall⟩ := montgomeryCube_product ha
    obtain ⟨t, hexec, hwrote⟩ := exec_wrote_of_result (exec_montCube d a s) hwf hv hlt
    exact ⟨t, v, hexec, hwrote, hcongr, hlt, hsmall⟩

/-! ### A multiplication by explicit rounds (R132, 95_test_vectors.md P6) -/

theorem execAll_append_of_next {l m : List Instr} {s t : State} (h : execAll l s = .next t) :
    execAll (l ++ m) s = execAll m t := by
  induction l generalizing s with
  | nil =>
    cases h
    rfl
  | cons i l ih =>
    obtain ⟨u, hexec⟩ := exec_exists_next i s
    rw [execAll_cons_of_next hexec] at h
    rw [List.cons_append, execAll_cons_of_next hexec, ih h]

/-- A span is its first words and the words above them. -/
theorem readSpan_append (s : State) (k : Nat) : ∀ (m a : Nat),
    s.readSpan a (m + k) = s.readSpan a m + 2 ^ (64 * m) * s.readSpan (a + m) k
  | 0, a => by simp [State.readSpan]
  | m + 1, a => by
    rw [Nat.add_right_comm, State.readSpan, State.readSpan, readSpan_append s k m (a + 1), two_pow_words_succ,
      show a + 1 + m = a + (m + 1) by omega]
    ring

/-- `memRead_succ` for a span that may be the last word of the store alone. -/
theorem memRead_word_add {a : Addr} {n : Nat} (s : State) (h : a.toNat + (n + 1) ≤ 4096) :
    s.memRead a (n + 1) = s.memRead a 1 + 2 ^ 64 * s.memRead (a + 1) n := by
  cases n with
  | zero => simp [State.memRead, State.readSpan]
  | succ n => exact memRead_succ s (by omega)

/-- Rounds at the windows b, b + 1, ..., each with the next word of the factor at a. -/
def montRounds : Nat → Addr → Addr → Addr → List Instr
  | 0, _, _, _ => []
  | n + 1, b, c, a => .montRound b b c a :: montRounds n (b + 1) c (a + 1)

theorem montRounds_four (b c a : Addr) : montRounds 4 b c a =
    [.montRound b b c a, .montRound (b + 1) (b + 1) c (a + 1), .montRound (b + 2) (b + 2) c (a + 2),
      .montRound (b + 3) (b + 3) c (a + 3)] := by
  simp [montRounds, BitVec.add_assoc]

/-- The span of the word operand of a round is always in range. -/
theorem montRound_wellFormed {b c a : Addr} (hb : b.toNat + 6 ≤ 4096) (hc : c.toNat + 4 ≤ 4096) :
    (Instr.montRound b b c a).wellFormed = true := by
  refine wellFormed_of_spans fun f n hn => ?_
  cases f <;> cases hn
  exacts [hb, hb, hc, a.isLt]

/-- A round on a window whose value is below y + p writes 2^64 times a value below y + p (R139). -/
theorem exec_montRound_wrote {b c a : Addr} {s : State} (hb : b.toNat + 6 ≤ 4096) (hc : c.toNat + 4 ≤ 4096)
    (hacc : s.memRead b 6 < s.memRead c 4 + P) :
    ∃ t u q, exec (.montRound b b c a) s = .next t ∧ Wrote s t b 6 (2 ^ 64 * q) ∧ u < 2 ^ 64 ∧ q < s.memRead c 4 + P ∧
      s.memRead b 6 + s.memRead a 1 * s.memRead c 4 + u * P = 2 ^ 64 * q := by
  have hP : P < 2 ^ 252 := by norm_num [P]
  have hy : s.memRead c 4 < 2 ^ 256 := memRead_lt s c 4
  have hx : s.memRead a 1 ≤ 2 ^ 64 - 1 := Nat.le_pred_of_lt (memRead_lt s a 1)
  obtain ⟨u, q, hu, hsum, hsplit⟩ := roundSum_split (s.memRead b 6) (s.memRead a 1) (s.memRead c 4)
  have hxy := Nat.mul_le_mul_right (s.memRead c 4) hx
  have huP := Nat.mul_le_mul_right P (show u ≤ 2 ^ 64 - 1 by omega)
  have hq : q < s.memRead c 4 + P := by omega
  have hfits : 2 ^ 64 * q < 2 ^ (64 * 6) := by omega
  have hvalue : montgomeryRound (s.memRead b 6) (s.memRead a 1) (s.memRead c 4) = some (2 ^ 64 * q) := by
    rw [montgomeryRound_eq, hsum, hsplit, if_pos (hfits.trans_eq windowLimit_eq.symm)]
  obtain ⟨t, hexec, hwrote⟩ :=
    exec_wrote_of_result (exec_montRound b b c a s) (montRound_wellFormed hb hc) hvalue hfits
  exact ⟨t, u, q, hexec, hwrote, hu, hq, hsplit⟩

/-- `n` rounds take a buffer of n + 5 words that holds B to the exact quotient (B + x*y + U*p) / 2^(64n) in its top five
words, x being the `n` words at a; they change no word outside the buffer, and draw nothing. -/
theorem execAll_montRounds {c : Addr} {y : Nat} (hc : c.toNat + 4 ≤ 4096) :
    ∀ (n : Nat) (b a : Addr) (s : State), s.memRead c 4 = y → s.memRead b (n + 5) < y + P →
      b.toNat + (n + 5) ≤ 4096 → a.toNat + n ≤ 4096 →
      disjointSpans b.toNat (n + 5) a.toNat n = true → disjointSpans b.toNat (n + 5) c.toNat 4 = true →
      ∃ t U T, execAll (montRounds n b c a) s = .next t ∧ t.readSpan (b.toNat + n) 5 = T ∧ U < 2 ^ (64 * n) ∧
        2 ^ (64 * n) * T = s.memRead b (n + 5) + s.memRead a n * y + U * P ∧ t.draws = s.draws
  | 0, b, a, s, _, _, _, _, _, _ =>
    ⟨s, 0, s.memRead b 5, rfl, rfl, by norm_num, by simp [State.memRead, State.readSpan], rfl⟩
  | n + 1, b, a, s, hy, hlt, hb, ha, hba, hbc => by
    rw [disjointSpans_iff] at hba hbc
    have hP : P < 2 ^ 252 := by norm_num [P]
    have hylt : y < 2 ^ 256 := hy ▸ memRead_lt s c 4
    have hb1 := toNat_add_one (a := b) (by omega)
    have ha1 : (a + 1).toNat = (a.toNat + 1) % 4096 := BitVec.toNat_add a 1
    have hsplit : s.memRead b (n + 1 + 5) = s.memRead b 6 + 2 ^ (64 * 6) * s.readSpan (b.toNat + 6) n := by
      rw [show n + 1 + 5 = 6 + n by omega]
      exact readSpan_append s n 6 b.toNat
    have hupper : s.readSpan (b.toNat + 6) n = 0 := by
      by_contra hne
      have hone : 2 ^ (64 * 6) * 1 ≤ 2 ^ (64 * 6) * s.readSpan (b.toNat + 6) n :=
        Nat.mul_le_mul_left _ (Nat.one_le_iff_ne_zero.2 hne)
      omega
    rw [hupper, Nat.mul_zero, Nat.add_zero] at hsplit
    rw [hsplit] at hlt ⊢
    obtain ⟨u, v, q, hexec, ⟨hdone, hread, hdraws⟩, hv, hq, hround⟩ :=
      exec_montRound_wrote (b := b) (c := c) (a := a) (s := s) (by omega) hc (hy ▸ hlt)
    have hnext : u.memRead (b + 1) (n + 5) = q := by
      have hlow : u.memRead b 1 + 2 ^ 64 * u.memRead (b + 1) 5 = 2 ^ 64 * q := (memRead_succ u (by omega)).symm.trans hread
      have hword : u.memRead b 1 < 2 ^ 64 := memRead_lt u b 1
      have hhigh : u.readSpan (b.toNat + 1 + 5) n = 0 := (hdone.readSpan_disjoint (.inr (by omega))).trans hupper
      have happend : u.memRead (b + 1) (n + 5) = u.memRead (b + 1) 5 + 2 ^ (64 * 5) * u.readSpan (b.toNat + 1 + 5) n := by
        rw [State.memRead, hb1, Nat.add_comm n 5, readSpan_append, State.memRead, hb1]
      rw [happend, hhigh]
      omega
    have hyu : u.memRead c 4 = y := (hdone.memRead_disjoint (by omega)).trans hy
    obtain ⟨t, U, T, hrest, hT, hU, hquot, hdraws'⟩ := execAll_montRounds hc n (b + 1) (a + 1) u hyu
      (by rw [hnext, ← hy]; exact hq) (by omega) (by omega) (disjointSpans_iff.2 (by omega)) (disjointSpans_iff.2 (by omega))
    have hxs : u.memRead (a + 1) n = s.memRead (a + 1) n := by
      cases n with
      | zero => rfl
      | succ n => exact hdone.memRead_disjoint (by omega)
    rw [hnext, hxs] at hquot
    rw [hy] at hround
    refine ⟨t, v + 2 ^ 64 * U, T, (execAll_cons_of_next hexec _).trans hrest, ?_, ?_, ?_, hdraws'.trans hdraws⟩
    · rw [← hT, hb1, Nat.add_assoc, Nat.add_comm 1 n]
    · rw [two_pow_words_succ]
      omega
    · rw [two_pow_words_succ, memRead_word_add s ha, Nat.mul_assoc, hquot]
      linear_combination -hround

/-- A quotient as R138 fixes it is the one the multiplication reduces. -/
theorem montgomeryMult_of_quotient {x y U T : Nat} (hx : x < 2 ^ 256) (hy : y < 2 ^ 256) (hU : U < 2 ^ 256)
    (hquot : 2 ^ 256 * T = x * y + U * P) : montgomeryMult x y = overflowReduce T := by
  obtain ⟨T', hquot', htop, _⟩ := multBuffer_quotient hx hy
  rw [← multiplier_unique hU ⟨T, hquot.symm⟩, ← hquot] at hquot'
  rw [montgomeryMult_of_top htop, Nat.eq_of_mul_eq_mul_left (Nat.two_pow_pos 256) hquot']

/-- Settles O46: from a buffer of zeros four rounds leave the quotient (x*y + U*p) / 2^256, which only one U below 2^256 has. -/
theorem explicitRoundsReproduceMontMult : Obligations.ExplicitRoundsReproduceMontMult := by
  intro a b c d e s ha hb hc hd he hba hbc hzero
  have hx : s.memRead a 4 < 2 ^ 256 := memRead_lt s a 4
  have hy : s.memRead c 4 < 2 ^ 256 := memRead_lt s c 4
  obtain ⟨r, U, T, hrounds, hT, hU, hquot, hdraws⟩ := execAll_montRounds (y := s.memRead c 4) hc 4 b a s rfl
    (by rw [hzero]; exact Nat.add_pos_right _ (by norm_num [P])) hb ha hba hbc
  rw [hzero, Nat.zero_add] at hquot
  obtain ⟨v, hv, hlt, _⟩ := montgomeryMult_product hx hy
  have hvalue : overflowReduce T = some v := (montgomeryMult_of_quotient hx hy hU hquot).symm.trans hv
  have hbuffer : r.memRead (b + 4) 5 = T := by
    rw [State.memRead, show (b + 4).toNat = b.toNat + 4 by bv_omega, hT]
  have hreduce : (Instr.overflowReduce d (b + 4)).wellFormed = true := by
    refine wellFormed_of_spans fun f n hn => ?_
    cases f <;> cases hn
    exacts [hd, show (b + 4).toNat + 5 ≤ 4096 by bv_omega]
  obtain ⟨t, htexec, _, htread, htdraws⟩ :=
    exec_wrote_of_result (exec_overflowReduce d (b + 4) r) hreduce ((congrArg overflowReduce hbuffer).trans hvalue) hlt
  obtain ⟨u, huexec, _, huread, _⟩ := exec_wrote_of_result (exec_montMult e a c s)
    (wellFormed_of_elementWidths (i := .montMult e a c) rfl he ha hc) hv hlt
  refine ⟨t, u, ?_, huexec, htread.trans huread.symm, htdraws.trans hdraws⟩
  rw [montRounds_four] at hrounds
  exact (execAll_append_of_next (m := [.overflowReduce d (b + 4)]) hrounds).trans ((execAll_singleton _ r).trans htexec)

end Sys2Proof.Machine
end

section
/-! PROOFS. The constants the engine holds (10_state.md R31). -/

namespace Sys2Proof.Machine

theorem constMont2256_words : constMont2256 =
    valWords [0xfffffd737e000401, 0x00000001330fffff, 0xffffffffff6f8000, 0x07ffd4ab5e008810] := by
  have hsquare : 2 ^ 512 = 2 ^ 256 * 2 ^ 256 := by rw [← pow_add]
  rw [constMont2256, hsquare]
  norm_num [P, valWords]

/-- Settles O1: the table of R31, integer by integer. -/
theorem constantsHaveTheirWords : Obligations.ConstantsHaveTheirWords :=
  ⟨by norm_num [P, valWords], rfl, by norm_num [P16, P, valWords], rfl, by norm_num [P32, P, valWords], rfl,
    by norm_num [K32, valWords], by norm_num [P32, P, K32], by norm_num [P96, P, valWords], rfl,
    by norm_num [P128, P, valWords], rfl, by norm_num [constOne, valWords], rfl, constMont2256_words, constMont2256_lt,
    by rw [constMont2256]⟩

end Sys2Proof.Machine
end

section
/-! PROOFS. The assembler (30_encoding.md R67): the addresses it accepts, and the command it forms from them. -/

namespace Sys2Proof.Machine

/-! ### Addresses -/

/-- The address field that holds a number below 4096. -/
def addrAt (n : Nat) : Addr := BitVec.ofNat 12 n

theorem addrAt_toNat {n : Nat} (h : n < 4096) : (addrAt n).toNat = n := by
  rw [addrAt, BitVec.toNat_ofNat, Nat.mod_eq_of_lt h]

theorem addrOf_of_lt {n : Nat} (h : n < 4096) : addrOf n = some (addrAt n) := if_pos h

theorem addrOf_of_ge {n : Nat} (h : 4096 ≤ n) : addrOf n = none := if_neg (Nat.not_lt.2 h)

theorem mapM_addrOf_of_lt : ∀ {l : List Nat}, (∀ n ∈ l, n < 4096) → l.mapM addrOf = some (l.map addrAt)
  | [], _ => rfl
  | n :: l, h => by
    rw [List.mapM_cons, addrOf_of_lt (h n (List.mem_cons_self ..)),
      mapM_addrOf_of_lt fun m hm => h m (List.mem_cons_of_mem _ hm)]
    rfl

theorem mapM_addrOf_of_ge : ∀ {l : List Nat} {n : Nat}, n ∈ l → 4096 ≤ n → l.mapM addrOf = none
  | m :: l, n, hmem, hn => by
    rw [List.mapM_cons]
    rcases List.mem_cons.1 hmem with rfl | hmem
    · rw [addrOf_of_ge hn]
      rfl
    · rw [mapM_addrOf_of_ge hmem hn]
      cases addrOf m <;> rfl

/-! ### Operands by field -/

/-- The place of a field among the operands (30_encoding.md R67). -/
def fieldIndex : Field → Nat
  | .D => 0
  | .A => 1
  | .B => 2
  | .C => 3

/-- The used fields of an opcode come first in the order D, A, B, C (R62), so an unused field has no operand. -/
theorem operandCount_le_index (o : Opcode) (f : Field) (h : o.width f = none) :
    Field.all.countP (fun f => (o.width f).isSome) ≤ fieldIndex f := by
  revert h
  cases o <;> cases f <;> decide

/-- The operand for a field: the address at its place, or 0 where the operands end before it. -/
theorem getD_map_addrAt {l : List Nat} (h : ∀ n ∈ l, n < 4096) (j : Nat) :
    ((l.map addrAt).getD j 0).toNat = l.getD j 0 := by
  rcases Nat.lt_or_ge j l.length with hj | hj
  · rw [List.getD_eq_getElem _ _ (by simpa using hj), List.getD_eq_getElem _ _ hj, List.getElem_map]
    exact addrAt_toNat (h _ (List.getElem_mem hj))
  · rw [List.getD_eq_default _ _ (by simpa using hj), List.getD_eq_default _ _ hj]
    rfl

theorem assembleCommand_of_lt {o : Opcode} {l : List Nat} (hcount : l.length = Opcode.operandCount o)
    (h : ∀ n ∈ l, n < 4096) : assembleCommand o l = .ok [o.instr ((l.map addrAt).getD 0 0) ((l.map addrAt).getD 1 0)
      ((l.map addrAt).getD 2 0) ((l.map addrAt).getD 3 0)] := by
  rw [assembleCommand, if_pos hcount, operandAddrs, mapM_addrOf_of_lt h]
  rfl

theorem assembleCommand_of_ge {o : Opcode} {l : List Nat} {n : Nat} (hcount : l.length = Opcode.operandCount o)
    (hmem : n ∈ l) (hn : 4096 ≤ n) : assembleCommand o l = .error .addressTooLarge := by
  rw [assembleCommand, if_pos hcount, operandAddrs, mapM_addrOf_of_ge hmem hn]
  rfl

/-- Settles O53: the count is checked, then each address, and the command's fields are the operands in order. -/
theorem assemblerAcceptsExactlyTheFieldsUsed : Obligations.AssemblerAcceptsExactlyTheFieldsUsed := by
  intro o l
  refine ⟨fun hcount => if_neg hcount, fun hcount => ⟨fun hle => ?_, fun ⟨n, hmem, hn⟩ => ?_⟩⟩
  case refine_2 => exact assembleCommand_of_ge hcount hmem hn
  have hlt : ∀ n ∈ l, n < 4096 := fun n hn => Nat.lt_succ_iff.2 (hle n hn)
  have hunused (f : Field) (hf : o.width f = none) : (l.map addrAt).getD (fieldIndex f) 0 = 0 :=
    List.getD_eq_default _ _ (by rw [List.length_map, hcount]; exact operandCount_le_index o f hf)
  have hfield := field_instr o (fun f => (l.map addrAt).getD (fieldIndex f) 0) hunused
  have hvalue (f : Field) := (congrArg BitVec.toNat (hfield f)).trans (getD_map_addrAt hlt (fieldIndex f))
  exact ⟨_, assembleCommand_of_lt hcount hlt, opcode_instr .., hvalue .D, hvalue .A, hvalue .B, hvalue .C⟩

end Sys2Proof.Machine
end

section
/-! PROOFS. The sums (30_encoding.md R68 to R71, 90_conflicts.md C7): a line of a sum adds one element to the destination, which
holds the left-to-right sum of the elements before it. -/

namespace Sys2Proof.Machine

/-! ### Words outside a four-word destination -/

/-- The operand words outside the element at `d` are the same in both states. -/
def SameOutside (s t : State) (d : Nat) : Prop := ∀ x, x < d ∨ d + 4 ≤ x → t.operandWord x = s.operandWord x

theorem SameOutside.trans {s t u : State} {d : Nat} (h : SameOutside s t d) (h' : SameOutside t u d) : SameOutside s u d :=
  fun x hx => (h' x hx).trans (h x hx)

theorem SameOutside.readSpan {s t : State} {d a n : Nat} (h : SameOutside s t d) (hd : disjointSpans d 4 a n = true) :
    t.readSpan a n = s.readSpan a n := by
  rw [disjointSpans_iff] at hd
  exact readSpan_eq n a fun j hj => h _ (by omega)

/-! ### One line -/

theorem faddLine_of_lt {d x y : Nat} (hd : d < 4096) (hx : x < 4096) (hy : y < 4096) :
    faddLine d x y = some (.fadd (addrAt d) (addrAt x) (addrAt y)) := by
  rw [faddLine, addrOf_of_lt hd, addrOf_of_lt hx, addrOf_of_lt hy]
  rfl

/-- FADD never draws, so the destination holds the sum. -/
theorem exec_fadd_at {d x y : Nat} (s : State) (hd : d + 4 ≤ 4096) (hx : x + 4 ≤ 4096) (hy : y + 4 ≤ 4096) :
    ∃ t, exec (.fadd (addrAt d) (addrAt x) (addrAt y)) s = .next t ∧
      fadd (s.readSpan x 4) (s.readSpan y 4) = some (t.readSpan d 4) ∧ SameOutside s t d := by
  have hdn := addrAt_toNat (n := d) (by omega)
  have hxn := addrAt_toNat (n := x) (by omega)
  have hyn := addrAt_toNat (n := y) (by omega)
  have hxlt : s.readSpan x 4 < 2 ^ 256 := readSpan_lt s 4 x
  have hylt : s.readSpan y 4 < 2 ^ 256 := readSpan_lt s 4 y
  obtain ⟨k, hsum, _, hlt, _⟩ := overflowReduce_sub_multiple (t := s.readSpan x 4 + s.readSpan y 4) (by omega)
  have hvalue : fadd (s.element (addrAt x)) (s.element (addrAt y)) =
      some (s.readSpan x 4 + s.readSpan y 4 - k * P) := by
    rw [State.element, State.element, State.memRead, State.memRead, hxn, hyn, fadd, hsum]
  have hwf : (Instr.fadd (addrAt d) (addrAt x) (addrAt y)).wellFormed = true :=
    wellFormed_of_elementWidths (i := .fadd (addrAt d) (addrAt x) (addrAt y)) rfl (hdn.symm ▸ hd) (hxn.symm ▸ hx)
      (hyn.symm ▸ hy)
  obtain ⟨t, hexec, hdone, hread, _⟩ := exec_wrote_of_result (exec_fadd _ _ _ s) hwf hvalue hlt
  refine ⟨t, hexec, ?_, fun w hw => operandWord_of_bytes fun j hj => hdone.1 _ ?_⟩
  · rw [State.memRead, hdn] at hread
    rw [hread]
    exact hsum
  · rw [inSpan, hdn]
    omega

/-! ### The lines of a sum -/

/-- The commands FADD @d, @d, @a+4j for the `n` numbers j from `k` on. -/
def faddsInto (d a k n : Nat) : List Instr :=
  (List.range' k n).map fun j => .fadd (addrAt d) (addrAt d) (addrAt (a + 4 * j))

theorem accumulate_eq {d a : Nat} (hd : d < 4096) : ∀ n k : Nat, a + 4 * (k + n) ≤ 4096 →
    accumulate d a k n = (faddsInto d a k n).map some
  | 0, _, _ => rfl
  | n + 1, k, ha => by
    rw [accumulate, faddLine_of_lt hd hd (by omega), accumulate_eq hd n (k + 1) (by omega)]
    rfl

/-- The commands of the sum of n + 2 elements. -/
def sumCommands (d a n : Nat) : List Instr := .fadd (addrAt d) (addrAt a) (addrAt (a + 4)) :: faddsInto d a 2 n

theorem sumInto_eq {d a n : Nat} (hd : d < 4096) (ha : a + 4 * (n + 2) ≤ 4096) :
    sumInto d a (n + 2) = (sumCommands d a n).map some := by
  rw [sumInto, faddLine_of_lt hd (by omega) (by omega), Nat.add_sub_cancel, accumulate_eq hd n 2 (by omega)]
  rfl

/-- Lines that are all accepted expand to their commands. -/
theorem expand_of_lines {p : Pseudo} {l : List Instr} (h : p.lines = l.map some) : p.expand = some l := by
  have hmap : ∀ l : List Instr, (l.map some).mapM id = some l := fun l => by
    induction l with
    | nil => rfl
    | cons i l ih =>
      rw [List.map_cons, List.mapM_cons, ih]
      rfl
  rw [Pseudo.expand, h, hmap]

/-! ### What the lines compute -/

/-- FADD @d, @d, @a+4j in turn: the sum so far, then each element; d meets none of them. -/
theorem execAll_faddsInto {d a : Nat} (el : Nat → Nat) (hd : d + 4 ≤ 4096) : ∀ (n k : Nat) (s : State),
    a + 4 * (k + n) ≤ 4096 → disjointSpans d 4 (a + 4 * k) (4 * n) = true →
    (∀ j, k ≤ j → j < k + n → el j = s.readSpan (a + 4 * j) 4) →
    ∃ t, execAll (faddsInto d a k n) s = .next t ∧
      foldFadd (s.readSpan d 4) ((List.range' k n).map el) = some (t.readSpan d 4) ∧ SameOutside s t d
  | 0, _, s, _, _, _ => ⟨s, rfl, rfl, fun _ _ => rfl⟩
  | n + 1, k, s, ha, hda, hel => by
    rw [disjointSpans_iff] at hda
    obtain ⟨u, hexec, hsum, hsame⟩ := exec_fadd_at s hd hd (y := a + 4 * k) (by omega)
    obtain ⟨t, hrest, hfold, hsame'⟩ := execAll_faddsInto el hd n (k + 1) u (by omega) (disjointSpans_iff.2 (by omega))
      fun j hj hj' => (hel j (by omega) (by omega)).trans (hsame.readSpan (disjointSpans_iff.2 (by omega))).symm
    refine ⟨t, (execAll_cons_of_next hexec _).trans hrest, ?_, hsame.trans hsame'⟩
    rw [List.range'_succ, List.map_cons, foldFadd, hel k le_rfl (by omega), hsum, Option.bind_some, hfold]

/-- The commands of a sum leave the left-to-right sum of the n + 2 elements at `a` in `d`, which may overlap the first two. -/
theorem execAll_sumCommands {d a n : Nat} {s : State} {el : Nat → Nat} (hel : ∀ k, el k = s.readSpan (a + 4 * k) 4)
    (hd : d + 4 ≤ 4096) (ha : a + 4 * (n + 2) ≤ 4096) (hda : disjointSpans d 4 (a + 8) (4 * n) = true) :
    ∃ t, execAll (sumCommands d a n) s = .next t ∧
      foldFadd (el 0) ((List.range' 1 (n + 1)).map el) = some (t.readSpan d 4) ∧ SameOutside s t d := by
  rw [disjointSpans_iff] at hda
  obtain ⟨u, hexec, hsum, hsame⟩ := exec_fadd_at s hd (x := a) (y := a + 4) (by omega) (by omega)
  obtain ⟨t, hrest, hfold, hsame'⟩ := execAll_faddsInto el hd n 2 u (by omega) (disjointSpans_iff.2 (by omega))
    fun j hj hj' => (hel j).trans (hsame.readSpan (disjointSpans_iff.2 (by omega))).symm
  refine ⟨t, (execAll_cons_of_next hexec _).trans hrest, ?_, hsame.trans hsame'⟩
  rw [List.range'_succ, List.map_cons, foldFadd, hel 0, hel 1, Nat.mul_zero, Nat.add_zero, Nat.mul_one, hsum,
    Option.bind_some, hfold]

theorem foldFadd_concat (l : List Nat) (x y : Nat) : foldFadd x (l ++ [y]) = (foldFadd x l).bind fun z => fadd z y := by
  induction l generalizing x with
  | nil => simp [foldFadd]
  | cons w l ih =>
    rw [List.cons_append, foldFadd, foldFadd]
    cases fadd x w with
    | none => rfl
    | some z => exact ih z

/-! ### The pseudo-instructions -/

/-- A sum into one destination, SUM3 or SUM5. -/
theorem sum_runs {p : Pseudo} {d a n : Nat} {s : State} {el : Nat → Nat} (hp : p.lines = sumInto d a (n + 2))
    (hel : ∀ k, el k = s.readSpan (a + 4 * k) 4) (hd : d + 4 ≤ 4096) (ha : a + 4 * (n + 2) ≤ 4096)
    (hda : disjointSpans d 4 (a + 8) (4 * n) = true) :
    ∃ l t, p.expand = some l ∧ execAll l s = .next t ∧
      foldFadd (el 0) ((List.range' 1 (n + 1)).map el) = some (t.readSpan d 4) ∧ SameOutside s t d := by
  obtain ⟨t, hall, hfold, hsame⟩ := execAll_sumCommands hel hd ha hda
  exact ⟨_, t, expand_of_lines (hp.trans (sumInto_eq (by omega) ha)), hall, hfold, hsame⟩

/-- A sum into `e` and, with one more element, into `d`, SUM4 or SUM9. -/
theorem sum_and_next_runs {p : Pseudo} {d e a n : Nat} {s : State} {el : Nat → Nat}
    (hp : p.lines = sumInto e a (n + 2) ++ [faddLine d e (a + 4 * (n + 2))])
    (hel : ∀ k, el k = s.readSpan (a + 4 * k) 4) (hd : d + 4 ≤ 4096) (he : e + 4 ≤ 4096) (ha : a + 4 * (n + 3) ≤ 4096)
    (hc : (disjointSpans e 4 (a + 8) (4 * (n + 1)) && disjointSpans d 4 e 4) = true) :
    ∃ l t, p.expand = some l ∧ execAll l s = .next t ∧
      foldFadd (el 0) ((List.range' 1 (n + 1)).map el) = some (t.readSpan e 4) ∧
      foldFadd (el 0) ((List.range' 1 (n + 2)).map el) = some (t.readSpan d 4) ∧
      ∀ x, (x < d ∨ d + 4 ≤ x) → (x < e ∨ e + 4 ≤ x) → t.operandWord x = s.operandWord x := by
  obtain ⟨hea, hde⟩ := Bool.and_eq_true_iff.1 hc
  rw [disjointSpans_iff] at hea
  obtain ⟨u, hall, hfold, hsame⟩ := execAll_sumCommands hel he (n := n) (by omega) (disjointSpans_iff.2 (by omega))
  obtain ⟨t, hexec, hsum, hsame'⟩ := exec_fadd_at u hd he (y := a + 4 * (n + 2)) (by omega)
  have hlines : p.lines = (sumCommands e a n ++ [Instr.fadd (addrAt d) (addrAt e) (addrAt (a + 4 * (n + 2)))]).map some := by
    rw [hp, sumInto_eq (by omega) (by omega), faddLine_of_lt (by omega) (by omega) (by omega), List.map_append]
    rfl
  refine ⟨_, t, expand_of_lines hlines, (execAll_append_of_next hall).trans ((execAll_singleton _ u).trans hexec), ?_, ?_,
    fun x hxd hxe => (hsame' x hxd).trans (hsame x hxe)⟩
  · rw [hfold, hsame'.readSpan hde]
  · have hnext := hsame.readSpan (a := a + 4 * (n + 2)) (n := 4) (disjointSpans_iff.2 (by omega))
    rw [List.range'_1_concat, List.map_append, List.map_singleton, foldFadd_concat, hfold, Option.bind_some,
      show 1 + (n + 1) = n + 2 by omega, hel (n + 2), ← hnext, hsum]

/-- Settles O41: SUM3 and SUM5 sum 3 and 5 elements; SUM4 and SUM9 sum 3 and 8, and then one more. -/
theorem sumPseudoInstructionsAddLeftToRight : Obligations.SumPseudoInstructionsAddLeftToRight := by
  intro d e a s el hel hd he
  exact ⟨sum_runs (p := .sum3 d a) (n := 1) rfl hel hd, sum_and_next_runs (p := .sum4 d e a) (n := 1) rfl hel hd he,
    sum_runs (p := .sum5 d a) (n := 3) rfl hel hd, sum_and_next_runs (p := .sum9 d e a) (n := 6) rfl hel hd he⟩

end Sys2Proof.Machine
end
